-- ==== Sys2Proof/Word.lean ====
section
/-! DEFINITION. The widths of the block's data (spec/00_scope.md R10: every value is unsigned). -/

namespace Sys2Proof

/-- u8: the byte of every address space (10_state R49). -/
abbrev Byte := BitVec 8

/-- u16: a halfword, a palette entry, a framebuffer pixel (00_scope R15, 10_state R37). -/
abbrev Half := BitVec 16

/-- u32: a bus address, a word, a field of the command word (00_scope R7 `ADDR_W`). -/
abbrev Word := BitVec 32

/-- The command word `CMD`, 72 bits (30_encoding R101). -/
abbrev Cmd := BitVec 72

/-- The index k in 0..3 of a background (00_scope R7 `N_BG`). -/
abbrev BgIndex := Fin 4

end Sys2Proof
end

