-- ==== Sys2Proof/Syntax.lean ====
section
/-! DEFINITION. The 19 commands of the block (spec/30_encoding.md R104, opcode_table.json), one constructor a row.
Every operand has exactly the range its field of the command word has (R102, R106). -/

namespace Sys2Proof

/-- `axis` of SCRLWR (R102: 0 = X, 1 = Y). -/
inductive Axis where
  | x
  | y
deriving DecidableEq, Repr

/-- A command. `value` of WRB and WRH is the whole data argument, whose upper bits the command ignores (R107). -/
inductive Instr where
  | rdb (addr : Word)
  | rdh (addr : Word)
  | rdw (addr : Word)
  | wrb (addr value : Word)
  | wrh (addr value : Word)
  | wrw (addr value : Word)
  | ldwc (addr : Word)
  | stwc (addr value : Word)
  | brdb (ofs : Word)
  | brdh (ofs : Word)
  | brdw (ofs : Word)
  | render (bg : BgIndex) (line : BitVec 8)
  | tmlook (bg : BgIndex) (bgX bgY : Half)
  | scrlwr (bg : BgIndex) (axis : Axis) (value : Half)
  | affwr (bg : BgIndex) (flag : Bool)
  | bgrst (bg : BgIndex)
  | irqreq (source : Fin 16)
  | irqproc
  | imewr (value : Bool)
deriving DecidableEq, Repr

end Sys2Proof
end

