-- ==== Sys2Proof/WellFormed.lean ====
section
/-! DEFINITION. Well-formed command words (spec/30_encoding.md R102, R104, R108), read from the opcode table alone:
a word is well-formed when it matches a row, that is when its `op` is in the table and every bit its format requires
to be 0 is 0. Every operand's bound is in its type, so every term of `Instr` is well-formed as syntax; what can be
ill-formed is a command word (here) and a parameter set (`paramsOk` in Machine/Construct.lean). -/

namespace Sys2Proof

/-- A row of the opcode map: the mnemonic, the bits of a matching word under `care`, and the bits that must match. -/
structure Row where
  mnemonic : String
  bits     : Cmd
  care     : Cmd
deriving DecidableEq, Repr

/-- The row of an instruction in spec/opcode_table.json (`match` and `mask`), written from R102 and R104: the eight
bits of `op`, then `a`, then `d`, a care bit for every bit that the format fixes. -/
def rowOf : Instr → Row
  | .rdb ..    => ⟨"RDB",     0x00_00000000_00000000, 0xFF_00000000_FFFFFFFF⟩
  | .rdh ..    => ⟨"RDH",     0x01_00000000_00000000, 0xFF_00000000_FFFFFFFF⟩
  | .rdw ..    => ⟨"RDW",     0x02_00000000_00000000, 0xFF_00000000_FFFFFFFF⟩
  | .wrb ..    => ⟨"WRB",     0x04_00000000_00000000, 0xFF_00000000_00000000⟩
  | .wrh ..    => ⟨"WRH",     0x05_00000000_00000000, 0xFF_00000000_00000000⟩
  | .wrw ..    => ⟨"WRW",     0x06_00000000_00000000, 0xFF_00000000_00000000⟩
  | .ldwc ..   => ⟨"LDWC",    0x0A_00000000_00000000, 0xFF_00000000_FFFFFFFF⟩
  | .stwc ..   => ⟨"STWC",    0x0E_00000000_00000000, 0xFF_00000000_00000000⟩
  | .brdb ..   => ⟨"BRDB",    0x10_00000000_00000000, 0xFF_00000000_FFFFFFFF⟩
  | .brdh ..   => ⟨"BRDH",    0x11_00000000_00000000, 0xFF_00000000_FFFFFFFF⟩
  | .brdw ..   => ⟨"BRDW",    0x12_00000000_00000000, 0xFF_00000000_FFFFFFFF⟩
  | .render .. => ⟨"RENDER",  0x20_00000000_00000000, 0xFF_FFFF00FC_FFFFFFFF⟩
  | .tmlook .. => ⟨"TMLOOK",  0x21_00000000_00000000, 0xFF_FFFFFFFC_00000000⟩
  | .scrlwr .. => ⟨"SCRLWR",  0x22_00000000_00000000, 0xFF_FFFFFFF8_FFFF0000⟩
  | .affwr ..  => ⟨"AFFWR",   0x23_00000000_00000000, 0xFF_FFFFFFFC_FFFFFFFE⟩
  | .bgrst ..  => ⟨"BGRST",   0x24_00000000_00000000, 0xFF_FFFFFFFC_FFFFFFFF⟩
  | .irqreq .. => ⟨"IRQREQ",  0x30_00000000_00000000, 0xFF_FFFFFFF0_FFFFFFFF⟩
  | .irqproc   => ⟨"IRQPROC", 0x31_00000000_00000000, 0xFF_FFFFFFFF_FFFFFFFF⟩
  | .imewr ..  => ⟨"IMEWR",   0x32_00000000_00000000, 0xFF_FFFFFFFF_FFFFFFFE⟩

/-- One instruction of each constructor, to list the rows of the table (R104). -/
def oneOfEach : List Instr :=
  [.rdb 0, .rdh 0, .rdw 0, .wrb 0 0, .wrh 0 0, .wrw 0 0, .ldwc 0, .stwc 0 0, .brdb 0, .brdh 0, .brdw 0,
   .render 0 0, .tmlook 0 0 0, .scrlwr 0 .x 0, .affwr 0 false, .bgrst 0, .irqreq 0, .irqproc, .imewr false]

/-- The opcode map: 19 rows (R104). -/
def opcodeTable : List Row := oneOfEach.map rowOf

/-- A word matches a row: its care bits are the row's bits. -/
def Row.covers (r : Row) (w : Cmd) : Bool := w &&& r.care == r.bits

/-- A command word is well-formed, that is not reserved (R108). -/
def wellFormedWord (w : Cmd) : Bool := opcodeTable.any fun r => r.covers w

end Sys2Proof
end

