-- ==== Sys2Proof/Decode.lean ====
section
/-! DEFINITION. Decoding and encoding of the 72-bit command word (spec/30_encoding.md R101 to R108). The decoder is
total: every word is one of the 19 commands or reserved, by name (R108). -/

namespace Sys2Proof

/-- Why a command word is reserved (R108): its `op` is not in the table, or a must-be-zero bit is 1. -/
inductive Reserved where
  | unknownOp (op : Byte)
  | mustBeZero (op : Byte)
deriving DecidableEq, Repr

/-! ## The fields of a command word (R101) -/

/-- `CMD[71:64]`, the opcode. -/
def opOf (w : Cmd) : Byte := w.extractLsb' 64 8

/-- `CMD[63:32]`, the first argument. -/
def argA (w : Cmd) : Word := w.extractLsb' 32 32

/-- `CMD[31:0]`, the second argument. -/
def argD (w : Cmd) : Word := w.extractLsb' 0 32

/-- The command word of three fields. -/
def cmdWord (op : Byte) (a d : Word) : Cmd := op ++ a ++ d

/-- `bg = a[1:0]` (R102). -/
def bgField (a : Word) : BgIndex := ⟨(a.extractLsb' 0 2).toNat, (a.extractLsb' 0 2).isLt⟩

/-- `source = a[3:0]` (R102). -/
def sourceField (a : Word) : Fin 16 := ⟨(a.extractLsb' 0 4).toNat, (a.extractLsb' 0 4).isLt⟩

/-- `axis = a[2]` (R102: 0 = X, 1 = Y). -/
def axisField (a : Word) : Axis := if a.getLsbD 2 then .y else .x

/-- A word of a known `op`: the command if the bits its format requires to be 0 are 0, else reserved (R102, R108). -/
def accept (op : Byte) (zeros : Bool) (i : Instr) : Except Reserved Instr :=
  if zeros then .ok i else .error (.mustBeZero op)

/-- The opcode of each command (R104). -/
def opcodeOf : Instr → Byte
  | .rdb ..    => 0x00
  | .rdh ..    => 0x01
  | .rdw ..    => 0x02
  | .wrb ..    => 0x04
  | .wrh ..    => 0x05
  | .wrw ..    => 0x06
  | .ldwc ..   => 0x0A
  | .stwc ..   => 0x0E
  | .brdb ..   => 0x10
  | .brdh ..   => 0x11
  | .brdw ..   => 0x12
  | .render .. => 0x20
  | .tmlook .. => 0x21
  | .scrlwr .. => 0x22
  | .affwr ..  => 0x23
  | .bgrst ..  => 0x24
  | .irqreq .. => 0x30
  | .irqproc   => 0x31
  | .imewr ..  => 0x32

/-- The decoder (R102, R104, R108). -/
def decode (w : Cmd) : Except Reserved Instr :=
  let op := opOf w
  let a  := argA w
  let d  := argD w
  if op = 0x00 then accept op (d == 0) (.rdb a)
  else if op = 0x01 then accept op (d == 0) (.rdh a)
  else if op = 0x02 then accept op (d == 0) (.rdw a)
  else if op = 0x04 then accept op true (.wrb a d)
  else if op = 0x05 then accept op true (.wrh a d)
  else if op = 0x06 then accept op true (.wrw a d)
  else if op = 0x0A then accept op (d == 0) (.ldwc a)
  else if op = 0x0E then accept op true (.stwc a d)
  else if op = 0x10 then accept op (d == 0) (.brdb a)
  else if op = 0x11 then accept op (d == 0) (.brdh a)
  else if op = 0x12 then accept op (d == 0) (.brdw a)
  else if op = 0x20 then
    accept op (a.extractLsb' 2 6 == 0 && a.extractLsb' 16 16 == 0 && d == 0) (.render (bgField a) (a.extractLsb' 8 8))
  else if op = 0x21 then
    accept op (a.extractLsb' 2 30 == 0) (.tmlook (bgField a) (d.extractLsb' 0 16) (d.extractLsb' 16 16))
  else if op = 0x22 then
    accept op (a.extractLsb' 3 29 == 0 && d.extractLsb' 16 16 == 0) (.scrlwr (bgField a) (axisField a) (d.extractLsb' 0 16))
  else if op = 0x23 then
    accept op (a.extractLsb' 2 30 == 0 && d.extractLsb' 1 31 == 0) (.affwr (bgField a) (d.getLsbD 0))
  else if op = 0x24 then accept op (a.extractLsb' 2 30 == 0 && d == 0) (.bgrst (bgField a))
  else if op = 0x30 then accept op (a.extractLsb' 4 28 == 0 && d == 0) (.irqreq (sourceField a))
  else if op = 0x31 then accept op (a == 0 && d == 0) .irqproc
  else if op = 0x32 then accept op (a == 0 && d.extractLsb' 1 31 == 0) (.imewr (d.getLsbD 0))
  else .error (.unknownOp op)

/-! ## The encoder (R102, R104, R111) -/

/-- The two bits of a background index (R102). -/
def bgBits (k : BgIndex) : BitVec 2 := BitVec.ofNat 2 k.val

/-- The axis bit of SCRLWR (R102). -/
def axisBit : Axis → BitVec 1
  | .x => 0
  | .y => 1

/-- The first argument `a` of a command (R102). -/
def encodeA : Instr → Word
  | .rdb addr | .rdh addr | .rdw addr | .ldwc addr => addr
  | .wrb addr _ | .wrh addr _ | .wrw addr _ | .stwc addr _ => addr
  | .brdb ofs | .brdh ofs | .brdw ofs => ofs
  | .render bg line => 0#16 ++ line ++ 0#6 ++ bgBits bg
  | .tmlook bg _ _ | .affwr bg _ | .bgrst bg => 0#30 ++ bgBits bg
  | .scrlwr bg axis _ => 0#29 ++ axisBit axis ++ bgBits bg
  | .irqreq source => 0#28 ++ BitVec.ofNat 4 source.val
  | .irqproc | .imewr _ => 0

/-- The second argument `d` of a command (R102). -/
def encodeD : Instr → Word
  | .rdb _ | .rdh _ | .rdw _ | .ldwc _ | .brdb _ | .brdh _ | .brdw _ => 0
  | .wrb _ value | .wrh _ value | .wrw _ value | .stwc _ value => value
  | .tmlook _ bgX bgY => bgY ++ bgX
  | .scrlwr _ _ value => 0#16 ++ value
  | .affwr _ flag => 0#31 ++ BitVec.ofBool flag
  | .imewr value => 0#31 ++ BitVec.ofBool value
  | .render _ _ | .bgrst _ | .irqreq _ | .irqproc => 0

/-- The command word of an instruction. -/
def encode (i : Instr) : Cmd := cmdWord (opcodeOf i) (encodeA i) (encodeD i)

/-- The instruction the decoder reads from a command whose bits are `w`, numbered as spec/opcode_table.json numbers
them (bit 0 is bit 0 of the 72-bit word, R101); bits at `nbits` and above are 0. -/
def decodeTableWord (nbits w : Nat) : Option Instr :=
  match decode (BitVec.ofNat 72 (w % 2 ^ nbits)) with
  | .ok i    => some i
  | .error _ => none

end Sys2Proof
end

