-- ==== Sys2Proof/Machine/Cpu.lean ====
section
/-! DEFINITION. The processor record `cpu`, the "processor collaborator interface" (spec/10_state.md R40, D18).
The processor owns it; the block reads some fields and IRQPROC writes some. -/

namespace Sys2Proof.Machine

/-- `cpu.cpsr.mode`: "including at least Supervisor and IRQ" (R40, 60_exceptions R255).
DESIGN CHOICE, safe: every other mode is an opaque number (log entry 7). -/
inductive Mode where
  | supervisor
  | irq
  | other (id : Nat)
deriving DecidableEq, Repr

/-- `cpu.cpsr.T`, the current instruction-set state (R40). -/
inductive InsnState where
  | arm
  | thumb
deriving DecidableEq, Repr

/-- The status record, the type of `cpu.cpsr` and of `cpu.spsr_irq` (R40).
`rest` is every other bit of the status register, opaque: copied whole, never looked into.
DESIGN CHOICE, safe: it is a number without a width (log entry 7). -/
structure Psr where
  mode : Mode
  i    : Bool
  t    : InsnState
  rest : Nat
deriving DecidableEq, Repr

/-- The processor record (R40). -/
structure Cpu where
  pc       : Word
  cpsr     : Psr
  spsrIrq  : Psr
  lrIrq    : Word
  flushReq : Bool
deriving DecidableEq, Repr

end Sys2Proof.Machine
end

