-- ==== Sys2Proof/Config.lean ====
section
/-! DEFINITION. The parameters a model takes (spec/00_scope.md R8; the list that closes spec/92_eei_decisions.md).
They are plain data and stand in the state as its field `cfg`, which no step changes (log entry 1), so that every
statement about a state is about every configuration. The two images are the state's fields `rom` and `bios`.
`IRQ_GATE` is OPEN in the spec (44_irq R213, D15): its two values are both covered in this way. -/

namespace Sys2Proof

/-- `ROM_WRITE_POLICY` (R8, D11): what a bus write into the ROM window does. -/
inductive RomWritePolicy where
  | discard
  | fault
deriving DecidableEq, Repr

/-- `IRQ_GATE` (R8, 44_irq R213): which word IRQPROC tests for nonzero. -/
inductive IrqGate where
  | ifOnly
  | ifAndIe
deriving DecidableEq, Repr

/-- `TILEMAP_LAYOUT` (R8, 42_bgcnt_tilemap R174): the tile-map entry address formula. -/
inductive TilemapLayout where
  | screenblock
  | linear
deriving DecidableEq, Repr

/-- `PAL256_RENDER` (R8, 43_render R190): RENDER when the palette-mode bit is 1. -/
inductive Pal256Render where
  | byAnalogy
  | refuse
deriving DecidableEq, Repr

/-- `CurInsnAddr` (R8, 44_irq R214), a function of the processor record to a u32, named by plain data: DESIGN CHOICE, safe
(log entry 2). `pc` is the default. `pcPlus` is for a processor that keeps `cpu.pc` ahead of the executing instruction: a
constant added modulo 2^32 in each instruction-set state, such as 2^32 - 8 and 2^32 - 4. `table` gives values record by
record over another function. `supplied n` is any function whatever. -/
inductive CurInsnAddr where
  | pc
  | pcPlus (arm thumb : Word)
  | table (entries : List (Machine.Cpu × Word)) (otherwise : CurInsnAddr)
  | supplied (n : Nat)
deriving DecidableEq, Repr

/-- The functions that processors supply of their own (44_irq R214): nothing is known of them, so what is proved of a
block with `CurInsnAddr.supplied n` holds for every function of the processor record (log entry 2). -/
opaque Config.suppliedInsnAddr : Nat → Machine.Cpu → Word

/-- The parameters of R8 but the images. -/
structure Config where
  vramWired      : Bool
  oamWired       : Bool
  oamLen         : Nat
  romWritePolicy : RomWritePolicy
  ieOfs          : Nat
  ifOfs          : Nat
  bgcntOfs       : Vector Nat 4
  dmacntAddrs    : List Word
  irqGate        : IrqGate
  curInsnAddr    : CurInsnAddr
  tilemapLayout  : TilemapLayout
  pal256Render   : Pal256Render
  screenH        : Nat
deriving DecidableEq, Repr

/-- The defaults of R8. Those the spec marks GK are general knowledge of the console (log entry 15). -/
def Config.default : Config where
  vramWired      := true
  oamWired       := false
  oamLen         := 0x400
  romWritePolicy := .discard
  ieOfs          := 0x200
  ifOfs          := 0x202
  bgcntOfs       := #v[0x008, 0x00A, 0x00C, 0x00E]
  dmacntAddrs    := [0x040000B8, 0x040000C4, 0x040000D0, 0x040000DC]
  irqGate        := .ifOnly
  curInsnAddr    := .pc
  tilemapLayout  := .screenblock
  pal256Render   := .byAnalogy
  screenH        := 160

end Sys2Proof
end

