-- ==== Sys2Proof/Machine/Mem.lean ====
section
/-! DEFINITION. Byte arrays and the framebuffer as lists of (index, value) pairs in one canonical form: indices
strictly rising, no value equal to 0. An unlisted index reads 0: the reset contents of every array of the block
(spec/10_state.md R23 to R28, R37, R50). -/

namespace Sys2Proof.Machine

/-- A sparse array of `w`-bit values. -/
abbrev Cells (w : Nat) := List (Nat × BitVec w)

/-- A byte array, keyed by the offset in the array (10_state R11 notation `VRAM[o]`). -/
abbrev Memory := List Host.Cell

/-- The framebuffer's pixels, keyed by `line * 240 + x` (10_state R37). -/
abbrev FrameBuffer := Cells 16

/-- The value at an index. -/
def cellsRead {w : Nat} : Cells w → Nat → BitVec w
  | [], _ => 0
  | (k, v) :: m, a => if k = a then v else cellsRead m a

/-- The array without its entry at an index. -/
def cellsErase {w : Nat} : Cells w → Nat → Cells w
  | [], _ => []
  | (k, v) :: m, a => if k = a then cellsErase m a else (k, v) :: cellsErase m a

/-- The array with an entry added before the first larger index. -/
def cellsInsert {w : Nat} : Cells w → Nat → BitVec w → Cells w
  | [], a, v => [(a, v)]
  | (k, x) :: m, a, v => if a < k then (a, v) :: (k, x) :: m else (k, x) :: cellsInsert m a v

/-- The array after writing a value at an index: the old entry goes, and a value other than 0 is listed. -/
def cellsWrite {w : Nat} (m : Cells w) (a : Nat) (v : BitVec w) : Cells w :=
  if v = 0 then cellsErase m a else cellsInsert (cellsErase m a) a v

/-- Canonical from index `lo` on: indices at or above `lo`, strictly rising, no value 0. -/
def cellsWfFrom {w : Nat} : Nat → Cells w → Bool
  | _, [] => true
  | lo, (k, v) :: m => decide (lo ≤ k) && decide (v ≠ 0) && cellsWfFrom (k + 1) m

/-- Every listed index is below a length. -/
def cellsBelow {w : Nat} (n : Nat) (m : Cells w) : Bool := m.all fun e => decide (e.1 < n)

/-- The canonical form of a sparse array. -/
def cellsWf {w : Nat} (m : Cells w) : Bool := cellsWfFrom 0 m

/-- The canonical form of a byte array. -/
def Memory.wf (m : Memory) : Bool := cellsWf m

end Sys2Proof.Machine
end

