-- ==== Sys2Proof/Machine/State.lean ====
section
/-! DEFINITION. The state of the block (spec/10_state.md R20 to R50), as plain data, and the state after reset. -/

namespace Sys2Proof.Machine

/-- One background k: `SCROLLX[k]`, `SCROLLY[k]` (R33), `AFFINE[k]` (R34), the render cache `TDB[k]`, `PAL256[k]`
(R35) and the tile-map cache `TMVALID[k]`, `TMBASE[k]` (R36). -/
structure Background where
  scrollX : Half
  scrollY : Half
  affine  : Bool
  tdb     : Word
  pal256  : Bool
  tmValid : Bool
  tmBase  : Word
deriving DecidableEq, Repr

/-- The fault latch `FLT` (R46): the sticky record of the first fault. -/
structure FaultLatch where
  valid : Bool
  code  : Byte
  addr  : Word
  op    : Byte
deriving DecidableEq, Repr

/-- The response word `RSP` (30_encoding R103): `RSP[39:32]` and `RSP[31:0]`. -/
structure Response where
  status : Byte
  data   : Word
deriving DecidableEq, Repr

/-- A command presented on the command port (30_encoding R100): its word, and the processor record the processor
drives with it, or `none` where the record stands as it was (log entry 3). -/
structure Presented where
  word     : Cmd
  sideband : Option Cpu
deriving DecidableEq, Repr

/-- The state of the block, the processor record it touches, and its interface.
`cfg`, `rom` and `bios` are parameters (R9, R20): no step changes them. The byte arrays are keyed by the offset in
the array; `fb` by `line * 240 + x`. `port` holds the commands presented and not yet taken, first to be taken
first; `rsp` is the response returned last (log entries 3, 5). -/
structure State where
  cfg   : Config
  rom   : List Byte
  bios  : List Byte
  ewram : Memory
  iwram : Memory
  pal   : Memory
  vram  : Memory
  oam   : Memory
  io    : Memory
  ime   : Bool
  bgs   : Vector Background 4
  fb    : FrameBuffer
  flt   : FaultLatch
  cpu   : Cpu
  port  : List Presented
  rsp   : Response
deriving DecidableEq, Repr

/-- A region of the bus space (00_scope R15). The BIOS has no window (90_conflicts C1). -/
inductive Region where
  | rom
  | io
  | iwram
  | ewram
  | pal
  | vram
  | oam
deriving DecidableEq, Repr

/-- A fault a command can raise, with the `info` the latch records (60_exceptions R230). The command answers a NEXT
state in which the fault is delivered: latched, and reported in the response (R231); see log entry 9. -/
inductive BlockFault where
  /-- A byte address outside every window, or a BIOS offset at or above `BIOS_LEN` (R232). -/
  | badAddress (addr : Word)
  /-- A byte address in a window whose storage is not there (R233). -/
  | unimplementedRegion (addr : Word)
  /-- A reserved command word (info: the `op` byte), or a RENDER line at or above `SCREEN_H` (info: the line) (R234). -/
  | reservedCommand (info : Word)
  /-- A 256-colour tile fetch beyond video RAM (R234, 43_render R194). -/
  | renderOutOfRange (ofs : Word)
  /-- RENDER or TMLOOK on an affine background, or RENDER in a refused 256-colour mode (R234). -/
  | unimplementedMode (bg : BgIndex)
deriving DecidableEq, Repr

/-- The reasons for which there is no machine to run. No step and no instruction answers one. -/
inductive Fault where
  /-- `ImageLoadError` (60_exceptions R236): raised by construction (`construct`) and by the header views
  (`romEntry`, `romTitle`), never by a command. Safe: no block exists, so nothing is claimed of one. -/
  | imageLoadError
deriving DecidableEq, Repr

/-- The reasons for which an instruction has no meaning in the model. -/
inductive Refusal where
  /-- An instruction of the opcode table that has no meaning yet. Safe. No arm of `exec` answers it. -/
  | notModelled (mnemonic : String)
deriving DecidableEq, Repr

/-- A background at reset: regular, 16-colour, tile data at 0, nothing cached (R33 to R36, R50). -/
def Background.reset : Background where
  scrollX := 0
  scrollY := 0
  affine  := false
  tdb     := 0
  pal256  := false
  tmValid := false
  tmBase  := 0

/-- The processor record's status in `State.reset`. DESIGN CHOICE, unsafe (R50: unspecified; log entry 6). -/
def Psr.reset : Psr where
  mode := .supervisor
  i    := false
  t    := .arm
  rest := 0

/-- The processor record in `State.reset`. DESIGN CHOICE, unsafe (R50: unspecified; log entry 6). -/
def Cpu.reset : Cpu where
  pc       := 0
  cpsr     := Psr.reset
  spsrIrq  := Psr.reset
  lrIrq    := 0
  flushReq := false

/-- The reset state of a block with given parameters and images (R50, 70_reset_and_hazards R271 steps 3 and 4, R272). -/
def State.resetOf (cfg : Config) (rom bios : List Byte) : State where
  cfg   := cfg
  rom   := rom
  bios  := bios
  ewram := []
  iwram := []
  pal   := []
  vram  := []
  oam   := []
  io    := []
  ime   := false
  bgs   := Vector.replicate 4 Background.reset
  fb    := []
  flt   := ⟨false, 0, 0, 0⟩
  cpu   := Cpu.reset
  port  := []
  rsp   := ⟨0, 0⟩

/-- The machine right after reset: default parameters and two empty images, the start state of
95_test_vectors.md "Conventions" (log entry 13). -/
def State.reset : State := State.resetOf Config.default [] []

end Sys2Proof.Machine
end

