-- ==== Sys2Proof/Machine/Operands.lean ====
section
/-! DEFINITION. The forms in which operands are cut, composed and decoded: bytes of a word, little-endian composition,
rotation and alignment (spec/20_memory.md R66, R67, R84), the fields of a background control register
(42_bgcnt_tilemap R162 to R166) and of a tile-map entry (R174). All are pure (R161). -/

namespace Sys2Proof.Machine

/-! ## Words and bytes -/

/-- Byte i of a value: `v[8*i+7 : 8*i]` (20_memory R67, R70). -/
def byteOf (v : Word) (i : Nat) : Byte := v.extractLsb' (8 * i) 8

/-- Bytes composed little-endian, the first at bits 7:0 (20_memory R66). -/
def composeLE : List Byte → Word
  | [] => 0
  | b :: bs => b.setWidth 32 ||| composeLE bs <<< 8

/-- `ror32(v, n)`, n in 0, 8, 16, 24 (00_scope R11, 20_memory R84). -/
def ror32 (v : Word) (n : Nat) : Word := if n = 0 then v else v >>> n ||| v <<< (32 - n)

/-- `addr AND NOT 0x3` (20_memory R84). -/
def alignDown (addr : Word) : Word := addr &&& ~~~0x3#32

/-- `addr[1:0]`, as a number. -/
def lowBits (addr : Word) : Nat := (addr.extractLsb' 0 2).toNat

/-- The halfword repeated in both halves of a word (41_bus_checked R152, case 2 in Thumb state). -/
def duplicateHalf (h : Word) : Word := h ||| h <<< 16

/-! ## Fields of `BGCNT[k]` (10_state R32) -/

/-- `Priority = BGCNT[1:0]` (R162); no operation uses it. -/
def priority (c : Half) : BitVec 2 := c.extractLsb' 0 2

/-- `TileDataBase = BGCNT[3:2] * 0x4000`, a VRAM byte offset (R163). -/
def tileDataBase (c : Half) : Word := (c.extractLsb' 2 2).setWidth 32 * 0x4000

/-- `Mosaic = BGCNT[6]` (R164, G9); no operation uses it. -/
def mosaic (c : Half) : Bool := c.getLsbD 6

/-- `PaletteMode = BGCNT[7]`: 0 = 16 colours, 1 = 256 colours (R164). -/
def paletteMode (c : Half) : Bool := c.getLsbD 7

/-- `TileMapBase = BGCNT[12:8] * 0x800`, a VRAM byte offset (R165). -/
def tileMapBase (c : Half) : Word := (c.extractLsb' 8 5).setWidth 32 * 0x800

/-- `OverflowWrap = BGCNT[13]` (R165); no operation uses it. -/
def overflowWrap (c : Half) : Bool := c.getLsbD 13

/-- `sizeCode = BGCNT[15:14]` (10_state R32). -/
def sizeCode (c : Half) : BitVec 2 := c.extractLsb' 14 2

/-- `BgSize`: (width, height) in pixels, by the size code and the affine flag (R166). -/
def bgSizeOf (c : Half) (affine : Bool) : Nat × Nat :=
  match (sizeCode c).toNat + (if affine then 4 else 0) with
  | 0 => (256, 256)
  | 1 => (512, 256)
  | 2 => (256, 512)
  | 3 => (512, 512)
  | 4 => (128, 128)
  | 5 => (256, 256)
  | 6 => (512, 512)
  | _ => (1024, 1024)

/-! ## Tile-map entries (R174) -/

/-- `tileIndex = e[9:0]`. -/
def tileIndex (e : Half) : Nat := (e.extractLsb' 0 10).toNat

/-- `hflip = e[10]` (G8); no operation uses it (43_render R195). -/
def hflip (e : Half) : Bool := e.getLsbD 10

/-- `vflip = e[11]` (G8); no operation uses it (43_render R195). -/
def vflip (e : Half) : Bool := e.getLsbD 11

/-- `subPalette = e[15:12]`. -/
def subPalette (e : Half) : Nat := (e.extractLsb' 12 4).toNat

/-- `EntryAddr(base, W, tx, ty)`: the VRAM offset of the entry of a tile (R174, D21). -/
def entryAddr (layout : TilemapLayout) (base width tx ty : Nat) : Nat :=
  match layout with
  | .screenblock =>
    base + ((ty / 32) * (width / 256) + tx / 32) * 0x800 + 2 * ((ty % 32) * 32 + tx % 32)
  | .linear => base + 2 * (ty * (width / 8) + tx)

end Sys2Proof.Machine
end

