-- ==== Sys2Proof/Machine/Flags.lean ====
section
/-! DEFINITION. The register views of the I/O bytes (spec/10_state.md R29) and the one flag computation of the block:
whether a poll takes an interrupt (44_irq R212, R213). The block has no arithmetic condition codes (10_state R43). -/

namespace Sys2Proof.Machine

/-- A 16-bit little-endian view of two adjacent bytes of an array (10_state R29, 20_memory R70). -/
def halfView (m : Memory) (o : Nat) : Half := cellsRead m (o + 1) ++ cellsRead m o

/-- `IE`, the enable mask (R29). -/
def ieReg (s : State) : Half := halfView s.io s.cfg.ieOfs

/-- `IF`, the request flags (R29). -/
def ifReg (s : State) : Half := halfView s.io s.cfg.ifOfs

/-- `BGCNT[k]` (R29, R32). -/
def bgcnt (s : State) (k : BgIndex) : Half := halfView s.io s.cfg.bgcntOfs[k]

/-- The word IRQPROC tests for nonzero, by `IRQ_GATE` (44_irq R212, R213). -/
def pendingWord (s : State) : Half :=
  match s.cfg.irqGate with
  | .ifOnly  => ifReg s
  | .ifAndIe => ifReg s &&& ieReg s

/-- The condition of IRQPROC: master-enable on, the processor's disable flag clear, something pending (44_irq R212). -/
def irqTaken (s : State) : Bool := s.ime && !s.cpu.cpsr.i && pendingWord s != 0

end Sys2Proof.Machine
end

