-- ==== Sys2Proof/Machine/Ops.lean ====
section
/-! DEFINITION. The named operations every command is built from: the address decoder and the byte accesses
(spec/20_memory.md R61 to R69), the background write side effects (42_bgcnt_tilemap R169 to R172), responses and the
delivery of a fault (60_exceptions R231), the interrupt entry (44_irq R212), and taking a command from the port. -/

namespace Sys2Proof.Machine

/-! ## Responses and faults -/

/-- The numeric code of a fault (60_exceptions R230). -/
def faultCode : BlockFault → Byte
  | .badAddress _          => 0x01
  | .unimplementedRegion _ => 0x02
  | .reservedCommand _     => 0x04
  | .renderOutOfRange _    => 0x05
  | .unimplementedMode _   => 0x06

/-- The code 0x03 of `ImageLoadError`, "construction only; never in a response" (R230). -/
def constructionFaultCode : Fault → Byte
  | .imageLoadError => 0x03

/-- The `info` of a fault, recorded in `FLT.addr` (R230). -/
def faultInfo : BlockFault → Word
  | .badAddress a          => a
  | .unimplementedRegion a => a
  | .reservedCommand info  => info
  | .renderOutOfRange ofs  => ofs
  | .unimplementedMode bg  => BitVec.ofNat 32 bg.val

/-- The latch after a fault of a command with opcode `op`: the first fault stays (10_state R46). -/
def latchFault (l : FaultLatch) (op : Byte) (f : BlockFault) : FaultLatch :=
  if l.valid then l else ⟨true, faultCode f, faultInfo f, op⟩

/-- Delivery of a fault: nothing changes but the latch; the response carries the code and data 0 (60_exceptions R231). -/
def raiseFault (s : State) (op : Byte) (f : BlockFault) : State :=
  { s with flt := latchFault s.flt op f, rsp := ⟨faultCode f, 0⟩ }

/-- Completion of a command: status 0 and a data word (30_encoding R103). -/
def complete (s : State) (data : Word) : State := { s with rsp := ⟨0, data⟩ }

/-- The end of a reading command: its value, or its fault (R103, R231). -/
def finishRead (s : State) (op : Byte) : Except BlockFault Word → Host.Outcome State Fault Refusal
  | .ok v    => .next (complete s v)
  | .error f => .next (raiseFault s op f)

/-- The end of a command that may change state: the new state, or the fault, delivered in the old one (R103, R231). -/
def finishWrite (s : State) (op : Byte) : Except BlockFault State → Host.Outcome State Fault Refusal
  | .ok t    => .next (complete t 0)
  | .error f => .next (raiseFault s op f)

/-! ## The address decoder -/

/-- `Route(addr)`: the region and offset of a bus address; `none` is BadAddress (20_memory R61). -/
def route (addr : Word) : Option (Region × Nat) :=
  let a := addr.toNat
  if 0x08000000 ≤ a ∧ a ≤ 0x09FFFFFF then some (.rom, a - 0x08000000)
  else if 0x04000000 ≤ a ∧ a ≤ 0x040003FE then some (.io, a - 0x04000000)
  else if 0x03000000 ≤ a ∧ a ≤ 0x03007FFF then some (.iwram, a - 0x03000000)
  else if 0x02000000 ≤ a ∧ a ≤ 0x0203FFFF then some (.ewram, a - 0x02000000)
  else if 0x05000000 ≤ a ∧ a ≤ 0x050003FF then some (.pal, a - 0x05000000)
  else if 0x06000000 ≤ a ∧ a ≤ 0x06017FFF then some (.vram, a - 0x06000000)
  else if 0x07000000 ≤ a ∧ a ≤ 0x07FFFFFF then some (.oam, a - 0x07000000)
  else none

/-- Whether a byte of a window has storage for a read, or a meaning for a write `w` (20_memory R63, D10, D11). -/
def backed (s : State) (r : Region) (o : Nat) (w : Bool) : Bool :=
  match r with
  | .rom  => if w then decide (s.cfg.romWritePolicy = .discard) else decide (o < s.rom.length)
  | .vram => s.cfg.vramWired
  | .oam  => s.cfg.oamWired && decide (o < s.cfg.oamLen)
  | .io | .iwram | .ewram | .pal => true

/-- `Check(addr, w)`: one byte access, `w` for a write (20_memory R63). -/
def check (s : State) (addr : Word) (w : Bool) : Except BlockFault (Region × Nat) :=
  match route addr with
  | none => .error (.badAddress addr)
  | some (r, o) => if backed s r o w then .ok (r, o) else .error (.unimplementedRegion addr)

/-- `Check` of the `n` bytes from `addr` on, ascending modulo 2^32: the lowest failing byte's fault (20_memory R66, R67). -/
def checkBytes (s : State) (w : Bool) : Word → Nat → Except BlockFault Unit
  | _, 0 => .ok ()
  | addr, n + 1 =>
    match check s addr w with
    | .error f => .error f
    | .ok _    => checkBytes s w (addr + 1) n

/-! ## Reading -/

/-- The byte stored at an offset of a region. -/
def byteAt (s : State) (r : Region) (o : Nat) : Byte :=
  match r with
  | .rom   => s.rom.getD o 0
  | .io    => cellsRead s.io o
  | .iwram => cellsRead s.iwram o
  | .ewram => cellsRead s.ewram o
  | .pal   => cellsRead s.pal o
  | .vram  => cellsRead s.vram o
  | .oam   => cellsRead s.oam o

/-- `IoRead8(o)`: offset 0x208 reads 0 (20_memory R68). -/
def ioRead8 (s : State) (o : Nat) : Byte := if o = 0x208 then 0 else cellsRead s.io o

/-- The byte a bus read of a region answers (20_memory R64). -/
def loadByte (s : State) (r : Region) (o : Nat) : Byte :=
  match r with
  | .io => ioRead8 s o
  | .rom | .iwram | .ewram | .pal | .vram | .oam => byteAt s r o

/-- `BusRead8(addr)` (20_memory R64). -/
def busRead8 (s : State) (addr : Word) : Except BlockFault Byte :=
  match check s addr false with
  | .error f   => .error f
  | .ok (r, o) => .ok (loadByte s r o)

/-- The `n` bytes from `addr` on, ascending modulo 2^32, or the lowest failing byte's fault (20_memory R66). -/
def readBytes (s : State) : Word → Nat → Except BlockFault (List Byte)
  | _, 0 => .ok []
  | addr, n + 1 =>
    match busRead8 s addr with
    | .error f => .error f
    | .ok b =>
      match readBytes s (addr + 1) n with
      | .error f => .error f
      | .ok bs   => .ok (b :: bs)

/-- `MemRead(addr, n)`, zero-extended to a word (20_memory R66, R73). -/
def memRead (s : State) (addr : Word) (n : Nat) : Except BlockFault Word :=
  match readBytes s addr n with
  | .error f => .error f
  | .ok bs   => .ok (composeLE bs)

/-! ## The background control registers -/

/-- A background with its fields changed by `f`. -/
def modifyBg (s : State) (k : BgIndex) (f : Background → Background) : State :=
  { s with bgs := s.bgs.set k (f s.bgs[k]) }

/-- `Recache(k)` (42_bgcnt_tilemap R169). -/
def recache (s : State) (k : BgIndex) : State :=
  modifyBg s k fun b => { b with tdb := tileDataBase (bgcnt s k), pal256 := paletteMode (bgcnt s k) }

/-- The tile-map reset of background k: nothing cached (10_state R36). -/
def resetTileMap (s : State) (k : BgIndex) : State := modifyBg s k fun b => { b with tmValid := false }

/-- The plain store of an I/O byte. -/
def setIo (s : State) (o : Nat) (v : Byte) : State := { s with io := cellsWrite s.io o v }

/-- `BgcntWriteByte0(k, v)` (42_bgcnt_tilemap R170). -/
def bgcntWriteByte0 (s : State) (k : BgIndex) (v : Byte) : State := recache (setIo s s.cfg.bgcntOfs[k] v) k

/-- `BgcntWriteByte1(k, v)` (42_bgcnt_tilemap R171). -/
def bgcntWriteByte1 (s : State) (k : BgIndex) (v : Byte) : State :=
  let t := setIo s (s.cfg.bgcntOfs[k] + 1) v
  recache (if tileMapBase (bgcnt s k) = tileMapBase (bgcnt t k) then t else resetTileMap t k) k

/-- `TmBaseGet(k)`: the state in which the tile-map base of background k is cached; the base is then its `tmBase`
(42_bgcnt_tilemap R172). -/
def tmBaseGet (s : State) (k : BgIndex) : State :=
  if s.bgs[k].tmValid then s
  else modifyBg s k fun b => { b with tmBase := tileMapBase (bgcnt s k), tmValid := true }

/-- `BgSize(k)` (42_bgcnt_tilemap R166). -/
def bgSize (s : State) (k : BgIndex) : Nat × Nat := bgSizeOf (bgcnt s k) s.bgs[k].affine

/-! ## Writing -/

/-- The four background indices. -/
def allBgs : List BgIndex := [0, 1, 2, 3]

/-- The background whose control byte 0 stands at an I/O offset (20_memory R69). -/
def bgOfByte0 (c : Config) (o : Nat) : Option BgIndex := allBgs.find? fun k => o == c.bgcntOfs[k]

/-- The background whose control byte 1 stands at an I/O offset (20_memory R69). -/
def bgOfByte1 (c : Config) (o : Nat) : Option BgIndex := allBgs.find? fun k => o == c.bgcntOfs[k] + 1

/-- `IoWrite8(o, v)` (20_memory R69). -/
def ioWrite8 (s : State) (o : Nat) (v : Byte) : State :=
  if o = 0x208 then s
  else if o = s.cfg.ifOfs ∨ o = s.cfg.ifOfs + 1 then setIo s o (cellsRead s.io o &&& ~~~v)
  else
    match bgOfByte0 s.cfg o with
    | some k => bgcntWriteByte0 s k v
    | none =>
      match bgOfByte1 s.cfg o with
      | some k => bgcntWriteByte1 s k v
      | none   => setIo s o v

/-- What a bus write of a byte of a region does (20_memory R65). -/
def storeByte (s : State) (r : Region) (o : Nat) (v : Byte) : State :=
  match r with
  | .rom   => s
  | .io    => ioWrite8 s o v
  | .iwram => { s with iwram := cellsWrite s.iwram o v }
  | .ewram => { s with ewram := cellsWrite s.ewram o v }
  | .pal   => { s with pal := cellsWrite s.pal o v }
  | .vram  => { s with vram := cellsWrite s.vram o v }
  | .oam   => { s with oam := cellsWrite s.oam o v }

/-- `BusWrite8(addr, v)` after `Check(addr, true)` has passed (20_memory R65, R67). -/
def busWrite8 (s : State) (addr : Word) (v : Byte) : State :=
  match route addr with
  | none        => s
  | some (r, o) => storeByte s r o v

/-- Bytes stored from `addr` on, ascending modulo 2^32 (20_memory R67). -/
def writeBytes (s : State) : Word → List Byte → State
  | _, [] => s
  | addr, b :: bs => writeBytes (busWrite8 s addr b) (addr + 1) bs

/-- The low `n` bytes of a value, the first at bits 7:0 (20_memory R67). -/
def bytesLE (v : Word) (n : Nat) : List Byte := (List.range n).map (byteOf v)

/-- `MemWrite(addr, n, v)`: all bytes are checked before any is stored (20_memory R67). -/
def memWrite (s : State) (addr : Word) (n : Nat) (v : Word) : Except BlockFault State :=
  match checkBytes s true addr n with
  | .error f => .error f
  | .ok ()   => .ok (writeBytes s addr (bytesLE v n))

/-! ## The BIOS leaf space -/

/-- The `n` bytes of the BIOS image from an offset on, the sum not wrapped, or the lowest failing offset's fault
(40_bus_plain R138 to R141; the offset is recorded modulo 2^32, log entry 11). -/
def biosBytes (s : State) : Nat → Nat → Except BlockFault (List Byte)
  | _, 0 => .ok []
  | ofs, n + 1 =>
    if s.bios.length ≤ ofs then .error (.badAddress (BitVec.ofNat 32 ofs))
    else
      match biosBytes s (ofs + 1) n with
      | .error f => .error f
      | .ok bs   => .ok (s.bios.getD ofs 0 :: bs)

/-- A leaf read of `n` bytes, composed little-endian (40_bus_plain R138). -/
def biosRead (s : State) (ofs : Word) (n : Nat) : Except BlockFault Word :=
  match biosBytes s ofs.toNat n with
  | .error f => .error f
  | .ok bs   => .ok (composeLE bs)

/-! ## The interrupt controller and the interrupt entry -/

/-- `IF <- IF OR (1 << n)` on its byte (44_irq R211). -/
def requestIrq (s : State) (source : Fin 16) : State :=
  let o := if source.val < 8 then s.cfg.ifOfs else s.cfg.ifOfs + 1
  setIo s o (cellsRead s.io o ||| BitVec.twoPow 8 (source.val % 8))

/-- The value of a parameter function at a processor record (44_irq R214, D17; log entry 2). -/
def insnAddrOf : CurInsnAddr → Cpu → Word
  | .pc, p => p.pc
  | .pcPlus arm thumb, p =>
    match p.cpsr.t with
    | .arm   => p.pc + arm
    | .thumb => p.pc + thumb
  | .table entries otherwise, p =>
    match entries.find? fun e => decide (e.1 = p) with
    | some e => e.2
    | none   => insnAddrOf otherwise p
  | .supplied n, p => Config.suppliedInsnAddr n p

/-- `CurInsnAddr(cpu)` (44_irq R214). -/
def curInsnAddr (c : Config) (p : Cpu) : Word := insnAddrOf c.curInsnAddr p

/-- The offset of the return link: 4 in ARM state, 2 in Thumb state (44_irq R212). -/
def linkOffset : InsnState → Word
  | .arm   => 4
  | .thumb => 2

/-- The fixed IRQ vector (00_scope R7 `IRQ_VECTOR`). -/
def irqVector : Word := 0x00000018

/-- TAKING AN EXCEPTION: the IRQ entry of the processor record, given the current instruction address (44_irq R212 steps
1 to 7, 60_exceptions R245). The block has no return from it (R252): the processor's new record arrives with a later
command. -/
def irqEntry (p : Cpu) (cia : Word) : Cpu where
  pc       := irqVector
  cpsr     := { p.cpsr with i := true, mode := .irq, t := .arm }
  spsrIrq  := p.cpsr
  lrIrq    := cia + linkOffset p.cpsr.t
  flushReq := true

/-- The state after a taken poll: the entry, and nothing else (60_exceptions R245). -/
def takeIrq (s : State) : State := { s with cpu := irqEntry s.cpu (curInsnAddr s.cfg s.cpu) }

/-! ## Taking a command from the port -/

/-- The state in which a presented command is performed: the command is off the port and the processor record it
brings, if any, is sampled (30_encoding R100; log entry 3). -/
def takeCommand (s : State) (p : Presented) (rest : List Presented) : State :=
  { s with port := rest, cpu := p.sideband.getD s.cpu }

/-- The command at the head of the port is `w`, presented with no new processor record, before whatever else is there. -/
def presentWord (s : State) (w : Cmd) : State := { s with port := ⟨w, none⟩ :: s.port }

/-- A reserved command word: `ReservedCommand` with the `op` byte as info, and nothing else (30_encoding R108). -/
def reservedCommand (s : State) (op : Byte) : State := raiseFault s op (.reservedCommand (op.setWidth 32))

end Sys2Proof.Machine
end

