-- ==== Sys2Proof/Machine/Bios.lean ====
section
/-! DEFINITION. The BIOS leaf reads BRDB, BRDH, BRDW (spec/40_bus_plain.md R138 to R141). -/

namespace Sys2Proof.Machine

/-- BRDB: BIOS byte read (R139). -/
def execBrdb (ofs : Word) (s : State) : Host.Outcome State Fault Refusal :=
  finishRead s (opcodeOf (.brdb ofs)) (biosRead s ofs 1)

/-- BRDH: BIOS halfword read (R140). -/
def execBrdh (ofs : Word) (s : State) : Host.Outcome State Fault Refusal :=
  finishRead s (opcodeOf (.brdh ofs)) (biosRead s ofs 2)

/-- BRDW: BIOS word read (R141). -/
def execBrdw (ofs : Word) (s : State) : Host.Outcome State Fault Refusal :=
  finishRead s (opcodeOf (.brdw ofs)) (biosRead s ofs 4)

end Sys2Proof.Machine
end

