-- ==== Sys2Proof/Machine/Bus.lean ====
section
/-! DEFINITION. The plain bus accesses RDB, RDH, RDW, WRB, WRH, WRW (spec/40_bus_plain.md R130 to R136). -/

namespace Sys2Proof.Machine

/-- RDB: read byte (R131). -/
def execRdb (addr : Word) (s : State) : Host.Outcome State Fault Refusal :=
  finishRead s (opcodeOf (.rdb addr)) (memRead s addr 1)

/-- RDH: read halfword (R132). -/
def execRdh (addr : Word) (s : State) : Host.Outcome State Fault Refusal :=
  finishRead s (opcodeOf (.rdh addr)) (memRead s addr 2)

/-- RDW: read word (R133). -/
def execRdw (addr : Word) (s : State) : Host.Outcome State Fault Refusal :=
  finishRead s (opcodeOf (.rdw addr)) (memRead s addr 4)

/-- WRB: write byte, `value[7:0]` (R134, 30_encoding R107). -/
def execWrb (addr value : Word) (s : State) : Host.Outcome State Fault Refusal :=
  finishWrite s (opcodeOf (.wrb addr value)) (memWrite s addr 1 value)

/-- WRH: write halfword, `value[15:0]` (R135, 30_encoding R107). -/
def execWrh (addr value : Word) (s : State) : Host.Outcome State Fault Refusal :=
  finishWrite s (opcodeOf (.wrh addr value)) (memWrite s addr 2 value)

/-- WRW: write word (R136). -/
def execWrw (addr value : Word) (s : State) : Host.Outcome State Fault Refusal :=
  finishWrite s (opcodeOf (.wrw addr value)) (memWrite s addr 4 value)

end Sys2Proof.Machine
end

