-- ==== Sys2Proof/Machine/Checked.lean ====
section
/-! DEFINITION. The checked word accesses LDWC and STWC (spec/41_bus_checked.md R150 to R155). -/

namespace Sys2Proof.Machine

/-- The value of a checked load: the four cases of R152 as a chain in the order listed (R151, D6). -/
def checkedLoad (s : State) (addr : Word) : Except BlockFault Word :=
  if lowBits addr ≠ 0 then
    match memRead s (alignDown addr) 4 with
    | .ok w    => .ok (ror32 w (8 * lowBits addr))
    | .error f => .error f
  else if 0x10000000 ≤ addr.toNat then
    match s.cpu.cpsr.t with
    | .arm => memRead s s.cpu.pc 4
    | .thumb =>
      match memRead s s.cpu.pc 2 with
      | .ok h    => .ok (duplicateHalf h)
      | .error f => .error f
  else if addr ∈ s.cfg.dmacntAddrs then
    match memRead s addr 4 with
    | .ok w    => .ok (w &&& 0xFFFF0000)
    | .error f => .error f
  else memRead s addr 4

/-- LDWC: checked word load (R152). -/
def execLdwc (addr : Word) (s : State) : Host.Outcome State Fault Refusal :=
  finishRead s (opcodeOf (.ldwc addr)) (checkedLoad s addr)

/-- STWC: checked word store: the word at the aligned address, no rotation (R153). -/
def execStwc (addr value : Word) (s : State) : Host.Outcome State Fault Refusal :=
  finishWrite s (opcodeOf (.stwc addr value)) (memWrite s (alignDown addr) 4 value)

end Sys2Proof.Machine
end

