-- ==== Sys2Proof/Machine/Irq.lean ====
section
/-! DEFINITION. The interrupt controller commands IRQREQ, IRQPROC, IMEWR (spec/44_irq.md R210 to R216). -/

namespace Sys2Proof.Machine

/-- IRQREQ: request an interrupt (R211). -/
def execIrqreq (source : Fin 16) (s : State) : Host.Outcome State Fault Refusal :=
  .next (complete (requestIrq s source) 0)

/-- IRQPROC: poll, and take the IRQ exception if the condition holds (R212). -/
def execIrqproc (s : State) : Host.Outcome State Fault Refusal :=
  if irqTaken s then .next (complete (takeIrq s) 1) else .next (complete s 0)

/-- IMEWR: external write of the master-enable (R216). -/
def execImewr (value : Bool) (s : State) : Host.Outcome State Fault Refusal :=
  .next (complete { s with ime := value } 0)

end Sys2Proof.Machine
end

