-- ==== Sys2Proof/Machine/Background.lean ====
section
/-! DEFINITION. The background commands TMLOOK, SCRLWR, AFFWR, BGRST (spec/42_bgcnt_tilemap.md R174 to R178). -/

namespace Sys2Proof.Machine

/-- The tile-map entry of the pixel (x, y) of background k, the base taken from the cache (R174): the caller has
called `tmBaseGet`. VRAM is indexed directly, not through the bus (R175, log entry 8). -/
def tileEntry (s : State) (k : BgIndex) (x y : Nat) : Half :=
  halfView s.vram (entryAddr s.cfg.tilemapLayout s.bgs[k].tmBase.toNat (bgSize s k).1 (x / 8) (y / 8))

/-- TMLOOK: tile-map entry lookup (R175). -/
def execTmlook (bg : BgIndex) (bgX bgY : Half) (s : State) : Host.Outcome State Fault Refusal :=
  if s.bgs[bg].affine then .next (raiseFault s (opcodeOf (.tmlook bg bgX bgY)) (.unimplementedMode bg))
  else
    let t := tmBaseGet s bg
    let e := tileEntry t bg (bgX.toNat % (bgSize t bg).1) (bgY.toNat % (bgSize t bg).2)
    .next (complete t (e.setWidth 32))

/-- SCRLWR: write a scroll register (R176). -/
def execScrlwr (bg : BgIndex) (axis : Axis) (value : Half) (s : State) : Host.Outcome State Fault Refusal :=
  match axis with
  | .x => .next (complete (modifyBg s bg fun b => { b with scrollX := value }) 0)
  | .y => .next (complete (modifyBg s bg fun b => { b with scrollY := value }) 0)

/-- AFFWR: write the affine-mode flag (R177). -/
def execAffwr (bg : BgIndex) (flag : Bool) (s : State) : Host.Outcome State Fault Refusal :=
  .next (complete (modifyBg s bg fun b => { b with affine := flag }) 0)

/-- BGRST: explicit background reset (R178). -/
def execBgrst (bg : BgIndex) (s : State) : Host.Outcome State Fault Refusal :=
  .next (complete (resetTileMap (recache s bg) bg) 0)

end Sys2Proof.Machine
end

