-- ==== Sys2Proof/Machine/Render.lean ====
section
/-! DEFINITION. The scanline renderer RENDER (spec/43_render.md R190 to R196). -/

namespace Sys2Proof.Machine

/-- `SCREEN_W` (00_scope R7). -/
def screenW : Nat := 240

/-- The pixel of a tile-data byte in 4-bit mode: the low nibble in an even column, else the high one (R192 step 5). -/
def nibbleOf (b : Byte) (tileCol : Nat) : Nat :=
  if tileCol % 2 = 0 then (b.extractLsb' 0 4).toNat else (b.extractLsb' 4 4).toNat

/-- `Pixel4`: the palette index of a pixel in 16-colour mode; 0 is the backdrop (R192). -/
def pixel4 (vram : Memory) (tdb tileIdx tileRow tileCol subPal : Nat) : Nat :=
  let p := nibbleOf (cellsRead vram (tdb + tileIdx * 32 + tileRow * 4 + tileCol / 2)) tileCol
  if p = 0 then 0 else subPal * 16 + p

/-- `Pixel8`: the palette index of a pixel in 256-colour mode, by analogy; UNVERIFIED, the spec's own flag (R194). -/
def pixel8 (vram : Memory) (tdb tileIdx tileRow tileCol : Nat) : Except BlockFault Nat :=
  let ta := tdb + tileIdx * 64 + tileRow * 8 + tileCol
  if 0x18000 ≤ ta then .error (.renderOutOfRange (BitVec.ofNat 32 ta)) else .ok (cellsRead vram ta).toNat

/-- `Palette(ci)`: the halfword at `PAL[2 * ci]` (R193). -/
def paletteColor (pal : Memory) (ci : Nat) : Half := halfView pal (2 * ci)

/-- The colour of the pixel at column `x` of a line of background k, the tile-map base cached (R190, R191). -/
def pixelColor (s : State) (k : BgIndex) (line x : Nat) : Except BlockFault Half :=
  let b   := s.bgs[k]
  let bgY := (b.scrollY.toNat + line) % (bgSize s k).2
  let bgX := (b.scrollX.toNat + x) % (bgSize s k).1
  let e   := tileEntry s k bgX bgY
  if b.pal256 then
    match pixel8 s.vram b.tdb.toNat (tileIndex e) (bgY % 8) (bgX % 8) with
    | .ok ci   => .ok (paletteColor s.pal ci)
    | .error f => .error f
  else .ok (paletteColor s.pal (pixel4 s.vram b.tdb.toNat (tileIndex e) (bgY % 8) (bgX % 8) (subPalette e)))

/-- The colours of the `n` pixels from column `x` on, or the fault of the lowest failing x (R190, 60_exceptions R244). -/
def rowColors (s : State) (k : BgIndex) (line : Nat) : Nat → Nat → Except BlockFault (List Half)
  | _, 0 => .ok []
  | x, n + 1 =>
    match pixelColor s k line x with
    | .error f => .error f
    | .ok c =>
      match rowColors s k line (x + 1) n with
      | .error f => .error f
      | .ok cs   => .ok (c :: cs)

/-- Pixels written from an index on (R190 step 7). -/
def writePixels (fb : FrameBuffer) : Nat → List Half → FrameBuffer
  | _, [] => fb
  | i, c :: cs => writePixels (cellsWrite fb i c) (i + 1) cs

/-- `FB[y][x]` (10_state R37). -/
def fbPixel (s : State) (y x : Nat) : Half := cellsRead s.fb (y * screenW + x)

/-- The row of a RENDER that is not refused: computed whole, then written; a fault writes nothing (R190). -/
def renderRow (s : State) (bg : BgIndex) (line : Nat) : Except BlockFault State :=
  let t := tmBaseGet s bg
  match rowColors t bg line 0 screenW with
  | .error f => .error f
  | .ok row  => .ok { t with fb := writePixels t.fb (line * screenW) row }

/-- RENDER: one scanline of one background into the framebuffer (R190). -/
def execRender (bg : BgIndex) (line : BitVec 8) (s : State) : Host.Outcome State Fault Refusal :=
  let op := opcodeOf (.render bg line)
  if s.cfg.screenH ≤ line.toNat then .next (raiseFault s op (.reservedCommand (line.setWidth 32)))
  else if s.bgs[bg].affine then .next (raiseFault s op (.unimplementedMode bg))
  else if s.bgs[bg].pal256 = true ∧ s.cfg.pal256Render = .refuse then .next (raiseFault s op (.unimplementedMode bg))
  else finishWrite s op (renderRow s bg line.toNat)

end Sys2Proof.Machine
end

