-- ==== Sys2Proof/Machine/Dispatch.lean ====
section
/-! DEFINITION. The meaning of every command (spec/30_encoding.md R104), one arm a row of the opcode table. -/

namespace Sys2Proof.Machine

def exec (i : Instr) (s : State) : Host.Outcome State Fault Refusal :=
  match i with
  | .rdb addr => Sys2Proof.Machine.execRdb addr s
  | .rdh addr => Sys2Proof.Machine.execRdh addr s
  | .rdw addr => Sys2Proof.Machine.execRdw addr s
  | .wrb addr value => Sys2Proof.Machine.execWrb addr value s
  | .wrh addr value => Sys2Proof.Machine.execWrh addr value s
  | .wrw addr value => Sys2Proof.Machine.execWrw addr value s
  | .ldwc addr => Sys2Proof.Machine.execLdwc addr s
  | .stwc addr value => Sys2Proof.Machine.execStwc addr value s
  | .brdb ofs => Sys2Proof.Machine.execBrdb ofs s
  | .brdh ofs => Sys2Proof.Machine.execBrdh ofs s
  | .brdw ofs => Sys2Proof.Machine.execBrdw ofs s
  | .render bg line => Sys2Proof.Machine.execRender bg line s
  | .tmlook bg bgX bgY => Sys2Proof.Machine.execTmlook bg bgX bgY s
  | .scrlwr bg axis value => Sys2Proof.Machine.execScrlwr bg axis value s
  | .affwr bg flag => Sys2Proof.Machine.execAffwr bg flag s
  | .bgrst bg => Sys2Proof.Machine.execBgrst bg s
  | .irqreq source => Sys2Proof.Machine.execIrqreq source s
  | .irqproc => Sys2Proof.Machine.execIrqproc s
  | .imewr value => Sys2Proof.Machine.execImewr value s

end Sys2Proof.Machine
end

