-- ==== Sys2Proof/Machine/Step.lean ====
section
/-! DEFINITION. One step: the command at the head of the port is taken, decoded and performed
(spec/30_encoding.md R100, R108; 70_reset_and_hazards R273, R278). -/

namespace Sys2Proof.Machine

/-- One step. With nothing presented the block does nothing (R273; DEDUCED, safe, log entry 4). -/
def step (s : State) : Host.Outcome State Fault Refusal :=
  match s.port with
  | [] => .next s
  | p :: rest =>
    match decode p.word with
    | .ok i    => exec i (takeCommand s p rest)
    | .error _ => .next (reservedCommand (takeCommand s p rest) (opOf p.word))

/-- The state with the command of bits `w` at the head of the port, so that the next step performs it: bit 0 is bit 0
of the 72-bit command word, bits at `nbits` and above are 0 (30_encoding R101). -/
def State.withFetchWord (s : State) (nbits w : Nat) : State :=
  presentWord s (BitVec.ofNat 72 (w % 2 ^ nbits))

end Sys2Proof.Machine
end

