-- ==== Sys2Proof/Machine/Construct.lean ====
section
/-! DEFINITION. Construction of the block, its only reset (spec/70_reset_and_hazards.md R270, R271), the parameter
constraints (00_scope R8), and the two header views of the ROM image (20_memory R85). -/

namespace Sys2Proof.Machine

/-- `IO_LEN` (00_scope R7). -/
def ioLen : Nat := 0x3FF

/-- The largest `ROM_LEN` (00_scope R8, 60_exceptions R236). -/
def maxRomLen : Nat := 0x02000000

/-- The thirteen special I/O offsets (00_scope R8). -/
def specialOffsets (c : Config) : List Nat :=
  [c.ieOfs, c.ieOfs + 1, c.ifOfs, c.ifOfs + 1, 0x208] ++ c.bgcntOfs.toList ++ c.bgcntOfs.toList.map (· + 1)

/-- The thirteen special I/O offsets are distinct and below `IO_LEN` (00_scope R8, D12). -/
def offsetsOk (c : Config) : Bool :=
  decide (specialOffsets c).Nodup && (specialOffsets c).all fun o => decide (o < ioLen)

/-- The register offsets are even, as their type in the parameter table says (00_scope R8; DEDUCED, safe, log entry 10). -/
def offsetsEven (c : Config) : Bool :=
  (c.ieOfs :: c.ifOfs :: c.bgcntOfs.toList).all fun o => decide (o % 2 = 0)

/-- `DMACNT_ADDRS` is a set of four word-aligned addresses in the I/O window (00_scope R8, D8, 70_reset_and_hazards R271). -/
def dmacntOk (c : Config) : Bool :=
  decide (c.dmacntAddrs.length = 4) && decide c.dmacntAddrs.Nodup &&
    c.dmacntAddrs.all fun a => decide (lowBits a = 0 ∧ 0x04000000 ≤ a.toNat ∧ a.toNat ≤ 0x040003FE)

/-- The bounds the parameter table gives `OAM_LEN` and `SCREEN_H` (00_scope R8; log entry 10). -/
def boundsOk (c : Config) : Bool := decide (c.oamLen ≤ 0x01000000) && decide (c.screenH ≤ 256)

/-- The constraints on the parameters but the images (00_scope R8). -/
def paramsOk (c : Config) : Bool := offsetsOk c && offsetsEven c && dmacntOk c && boundsOk c

/-- The image of a declared length: the image given, where no length is declared; its first bytes; `none` where it is
absent or shorter than declared (R271 steps 2 and 3). -/
def imageOf (declared : Option Nat) (image : Option (List Byte)) : Option (List Byte) :=
  match image with
  | none => none
  | some bytes =>
    match declared with
    | none   => some bytes
    | some n => if n ≤ bytes.length then some (bytes.take n) else none

/-- `Construct(params, romImage, biosImage)`, with the lengths the caller declares, if any (R271, 60_exceptions R236). -/
def construct (c : Config) (romLen biosLen : Option Nat) (romImage biosImage : Option (List Byte)) :
    Host.Outcome State Fault Refusal :=
  if paramsOk c then
    match imageOf romLen romImage, imageOf biosLen biosImage with
    | some rom, some bios =>
      if rom.length ≤ maxRomLen then .next (State.resetOf c rom bios) else .fault .imageLoadError
    | _, _ => .fault .imageLoadError
  else .fault .imageLoadError

/-- `RomEntry`: the entry-point word of the cartridge header (20_memory R85, 70_reset_and_hazards R274). -/
def romEntry (s : State) : Except Fault Word :=
  if 4 ≤ s.rom.length then .ok (composeLE (s.rom.take 4)) else .error .imageLoadError

/-- Bytes without the trailing zero bytes. -/
def trimTrailingNul : List Byte → List Byte
  | [] => []
  | b :: bs =>
    match trimTrailingNul bs with
    | [] => if b = 0 then [] else [b]
    | t  => b :: t

/-- `RomTitle`: the bytes [0xA0, 0xAC) of the cartridge header, trimmed of trailing NUL; not checked to be uppercase
ASCII (20_memory R85). -/
def romTitle (s : State) : Except Fault (List Byte) :=
  if 0xAC ≤ s.rom.length then .ok (trimTrailingNul ((s.rom.drop 0xA0).take 12)) else .error .imageLoadError

end Sys2Proof.Machine
end

