-- ==== Sys2Proof/Machine/Pseudo.lean ====
section
/-! DEFINITION. The assembler's view (spec/30_encoding.md): the pseudo-commands, each a list of commands presented in
order (R112), and the textual form of a command (R111). They add no behaviour. -/

namespace Sys2Proof.Machine

/-- `IO_BASE` plus an I/O offset (00_scope R7). -/
def ioAddr (o : Nat) : Word := BitVec.ofNat 32 (0x04000000 + o)

/-- `SWPW addr, value`: the processor's word swap (R112, 20_memory R80). -/
def pseudoSwpw (addr value : Word) : List Instr := [.ldwc addr, .stwc addr value]

/-- `IEWR mask`: set the enable mask (R112). -/
def pseudoIewr (c : Config) (mask : Half) : List Instr := [.wrh (ioAddr c.ieOfs) (mask.setWidth 32)]

/-- `IRQACK mask`: clear the request flags that are 1 in the mask (R112). -/
def pseudoIrqack (c : Config) (mask : Half) : List Instr := [.wrh (ioAddr c.ifOfs) (mask.setWidth 32)]

/-- `BGCNTWR k, value`: write both bytes of `BGCNT[k]`, byte 0 first (R112). -/
def pseudoBgcntwr (c : Config) (k : BgIndex) (value : Half) : List Instr :=
  [.wrh (ioAddr c.bgcntOfs[k]) (value.setWidth 32)]

/-- `IFRD`: read the request flags (R112). -/
def pseudoIfrd (c : Config) : List Instr := [.rdh (ioAddr c.ifOfs)]

/-- A number in the textual form, decimal (R111). -/
def asmNum {w : Nat} (v : BitVec w) : String := toString v.toNat

/-- The operands of a command in the textual form, in the order of R111. -/
def asmOperands : Instr → List String
  | .rdb addr | .rdh addr | .rdw addr | .ldwc addr => [asmNum addr]
  | .wrb addr value | .wrh addr value | .wrw addr value | .stwc addr value => [asmNum addr, asmNum value]
  | .brdb ofs | .brdh ofs | .brdw ofs => [asmNum ofs]
  | .render bg line => [toString bg.val, asmNum line]
  | .tmlook bg bgX bgY => [toString bg.val, asmNum bgX, asmNum bgY]
  | .scrlwr bg axis value => [toString bg.val, (match axis with | .x => "X" | .y => "Y"), asmNum value]
  | .affwr bg flag => [toString bg.val, toString flag.toNat]
  | .bgrst bg => [toString bg.val]
  | .irqreq source => [toString source.val]
  | .irqproc => []
  | .imewr value => [toString value.toNat]

/-- The textual form of a command (R111): the mnemonic, then the operands separated by commas. -/
def asmText (i : Instr) : String :=
  match asmOperands i with
  | [] => (rowOf i).mnemonic
  | os => (rowOf i).mnemonic ++ " " ++ ", ".intercalate os

/-- The response word as 40 bits (30_encoding R103). -/
def responseWord (r : Response) : BitVec 40 := r.status ++ r.data

end Sys2Proof.Machine
end

