-- ==== Sys2Proof/Safety.lean ====
section
/-! DEFINITION. The terms claims are stated in: what a run counts as faulted (spec/60_exceptions.md R231), the
invariant of the block (10_state R48 and the bounds of its arrays), which bytes are readable and writable, and which
bytes a command stores. -/

namespace Sys2Proof.Machine

/-- A state that counts as faulted: the latch holds a fault (R231: "never a final state"). A run is safe while this is
false. No statement of this package needs it as a premise: each holds in faulted states too. -/
def faulted (s : State) : Bool := s.flt.valid

/-! ## The address map -/

/-- The base of a region's window (20_memory R76). -/
def regionBase : Region → Nat
  | .ewram => 0x02000000
  | .iwram => 0x03000000
  | .io    => 0x04000000
  | .pal   => 0x05000000
  | .vram  => 0x06000000
  | .oam   => 0x07000000
  | .rom   => 0x08000000

/-- The length of a region's window (20_memory R76). -/
def regionSize : Region → Nat
  | .ewram => 0x40000
  | .iwram => 0x8000
  | .io    => 0x3FF
  | .pal   => 0x400
  | .vram  => 0x18000
  | .oam   => 0x01000000
  | .rom   => 0x02000000

/-- A bus read of the byte at an address answers a value. -/
def readableAt (s : State) (addr : Word) : Prop := ∃ b, busRead8 s addr = .ok b

/-- A bus write of the byte at an address is accepted. -/
def writableAt (s : State) (addr : Word) : Prop := ∃ p, check s addr true = .ok p

/-- An I/O offset that IoWrite8 treats as a plain byte (20_memory R69). -/
def plainIo (c : Config) (o : Nat) : Bool :=
  decide (o ≠ 0x208 ∧ o ≠ c.ifOfs ∧ o ≠ c.ifOfs + 1) &&
    allBgs.all fun k => decide (o ≠ c.bgcntOfs[k] ∧ o ≠ c.bgcntOfs[k] + 1)

/-- A byte written to an address is the byte next read there: it may be written, and it is neither in ROM nor the I/O byte
0x208 nor a request-flag byte (20_memory R65, R69). -/
def keepsByte (s : State) (a : Word) : Prop :=
  ∃ r o, check s a true = .ok (r, o) ∧ r ≠ .rom ∧ (r = .io → o ≠ 0x208 ∧ o ≠ s.cfg.ifOfs ∧ o ≠ s.cfg.ifOfs + 1)

/-- The byte addresses a command stores to through the bus, each with its byte (R134 to R136, 41_bus_checked R153). -/
def stores : Instr → List (Word × Byte)
  | .wrb addr v  => [(addr, byteOf v 0)]
  | .wrh addr v  => [(addr, byteOf v 0), (addr + 1, byteOf v 1)]
  | .wrw addr v  => [(addr, byteOf v 0), (addr + 1, byteOf v 1), (addr + 2, byteOf v 2), (addr + 3, byteOf v 3)]
  | .stwc addr v =>
    [(alignDown addr, byteOf v 0), (alignDown addr + 1, byteOf v 1), (alignDown addr + 2, byteOf v 2),
     (alignDown addr + 3, byteOf v 3)]
  | .rdb _ | .rdh _ | .rdw _ | .ldwc _ | .brdb _ | .brdh _ | .brdw _ | .render _ _ | .tmlook _ _ _ | .scrlwr _ _ _
  | .affwr _ _ | .bgrst _ | .irqreq _ | .irqproc | .imewr _ => []

/-- A command stores to neither of the two I/O bytes from an offset on: not to the 16-bit register there (10_state R29). -/
def storesNotTo (i : Instr) (o : Nat) : Prop :=
  ∀ p ∈ stores i, route p.1 ≠ some (.io, o) ∧ route p.1 ≠ some (.io, o + 1)

/-- The commands that only read: the bus reads, the checked load and the leaf reads (20_memory R75). -/
def isRead : Instr → Bool
  | .rdb _ | .rdh _ | .rdw _ | .ldwc _ | .brdb _ | .brdh _ | .brdw _ => true
  | .wrb _ _ | .wrh _ _ | .wrw _ _ | .stwc _ _ | .render _ _ | .tmlook _ _ _ | .scrlwr _ _ _ | .affwr _ _ | .bgrst _
  | .irqreq _ | .irqproc | .imewr _ => false

/-- The status codes a command may answer (60_exceptions R237, and 0 for completion). -/
def allowedStatus : Instr → List Byte
  | .rdb _ | .rdh _ | .rdw _ | .ldwc _ | .wrb _ _ | .wrh _ _ | .wrw _ _ | .stwc _ _ => [0x00, 0x01, 0x02]
  | .brdb _ | .brdh _ | .brdw _ => [0x00, 0x01]
  | .render _ _ => [0x00, 0x04, 0x05, 0x06]
  | .tmlook _ _ _ => [0x00, 0x06]
  | .scrlwr _ _ _ | .affwr _ _ | .bgrst _ | .irqreq _ | .irqproc | .imewr _ => [0x00]

/-! ## What RENDER and TMLOOK look at -/

/-- The tile-map base a lookup on background k uses: the cached one, or the register's where nothing is cached
(42_bgcnt_tilemap R172). -/
def tmBaseOf (s : State) (k : BgIndex) : Word :=
  if s.bgs[k].tmValid then s.bgs[k].tmBase else tileMapBase (bgcnt s k)

/-- The backgrounds after a lookup on background k: its base is cached (42_bgcnt_tilemap R172). -/
def bgsAfterLookup (s : State) (k : BgIndex) : Vector Background 4 :=
  s.bgs.set k { s.bgs[k] with tmBase := tmBaseOf s k, tmValid := true }

/-- The tile-map entry of the background pixel (x, y), wrapped at the background's size (42_bgcnt_tilemap R174, R175). -/
def entryAt (s : State) (k : BgIndex) (x y : Nat) : Half :=
  let w := (bgSize s k).1
  let h := (bgSize s k).2
  let ea := entryAddr s.cfg.tilemapLayout (tmBaseOf s k).toNat w (x % w / 8) (y % h / 8)
  cellsRead s.vram (ea + 1) ++ cellsRead s.vram ea

/-- The background column and row of the pixel of a RENDER at column `x` of a line (43_render R191). -/
def bgColumn (s : State) (k : BgIndex) (x : Nat) : Nat := (s.bgs[k].scrollX.toNat + x) % (bgSize s k).1
def bgRow (s : State) (k : BgIndex) (line : Nat) : Nat := (s.bgs[k].scrollY.toNat + line) % (bgSize s k).2

/-- The VRAM offset of a pixel's byte in 16-colour mode (43_render R192 steps 4 and 5). -/
def tileByte4 (s : State) (k : BgIndex) (line x : Nat) : Nat :=
  s.bgs[k].tdb.toNat + tileIndex (entryAt s k (bgColumn s k x) (bgRow s k line)) * 32 + bgRow s k line % 8 * 4 +
    bgColumn s k x % 8 / 2

/-- The VRAM offset of a pixel's byte in 256-colour mode (43_render R194). -/
def tileByte8 (s : State) (k : BgIndex) (line x : Nat) : Nat :=
  s.bgs[k].tdb.toNat + tileIndex (entryAt s k (bgColumn s k x) (bgRow s k line)) * 64 + bgRow s k line % 8 * 8 +
    bgColumn s k x % 8

/-- The pixel value of a line's column in 16-colour mode (43_render R192 step 5). -/
def pixelValue4 (s : State) (k : BgIndex) (line x : Nat) : Nat :=
  let b := cellsRead s.vram (tileByte4 s k line x)
  if bgColumn s k x % 2 = 0 then b.toNat % 16 else b.toNat / 16

/-- The colour of palette entry `ci` (43_render R193). -/
def paletteEntry (s : State) (ci : Nat) : Half := cellsRead s.pal (2 * ci + 1) ++ cellsRead s.pal (2 * ci)

/-- The address and the number of bytes a checked load reads (41_bus_checked R152). -/
def checkedSource (s : State) (addr : Word) : Word × Nat :=
  if addr.toNat % 4 ≠ 0 then (alignDown addr, 4)
  else if 0x10000000 ≤ addr.toNat then
    match s.cpu.cpsr.t with
    | .arm   => (s.cpu.pc, 4)
    | .thumb => (s.cpu.pc, 2)
  else (addr, 4)

/-! ## Faults -/

/-- The byte at `info` is the lowest of the `n` bytes from `a` on that an access (a write for `w`) may not touch: outside
every window with status 1, in a window without backing with status 2 (20_memory R66, R67, 60_exceptions R230). -/
def lowestFails (s : State) (w : Bool) (a : Word) (n : Nat) (status : Byte) (info : Word) : Prop :=
  ∃ j < n, info = a + BitVec.ofNat 32 j ∧ (∀ l < j, ∃ p, check s (a + BitVec.ofNat 32 l) w = .ok p) ∧
    ((status = 0x01 ∧ check s info w = .error (.badAddress info)) ∨
     (status = 0x02 ∧ check s info w = .error (.unimplementedRegion info)))

/-- What a faulting command reports: its status and the `info` that belongs to it, the byte address, offset or argument
that caused the fault (60_exceptions R230, 10_state R46). A failing BIOS offset is recorded modulo 2^32 (log entry 11). -/
def faultReport (s : State) (i : Instr) (status : Byte) (info : Word) : Prop :=
  match i with
  | .rdb a    => lowestFails s false a 1 status info
  | .rdh a    => lowestFails s false a 2 status info
  | .rdw a    => lowestFails s false a 4 status info
  | .wrb a _  => lowestFails s true a 1 status info
  | .wrh a _  => lowestFails s true a 2 status info
  | .wrw a _  => lowestFails s true a 4 status info
  | .ldwc a   => lowestFails s false (checkedSource s a).1 (checkedSource s a).2 status info
  | .stwc a _ => lowestFails s true (alignDown a) 4 status info
  | .brdb ofs | .brdh ofs | .brdw ofs => status = 0x01 ∧ info = BitVec.ofNat 32 (max ofs.toNat s.bios.length)
  | .render bg line =>
    (status = 0x04 ∧ info = line.setWidth 32) ∨ (status = 0x06 ∧ info = BitVec.ofNat 32 bg.val) ∨
    (status = 0x05 ∧ ∃ x < 240, info = BitVec.ofNat 32 (tileByte8 s bg line.toNat x) ∧
      0x18000 ≤ tileByte8 s bg line.toNat x ∧ ∀ z < x, tileByte8 s bg line.toNat z < 0x18000)
  | .tmlook bg _ _ => status = 0x06 ∧ info = BitVec.ofNat 32 bg.val
  | .scrlwr _ _ _ | .affwr _ _ | .bgrst _ | .irqreq _ | .irqproc | .imewr _ => False

/-! ## The invariant -/

/-- Every byte array and the framebuffer are in canonical form. -/
def arraysCanonical (s : State) : Bool :=
  s.ewram.wf && s.iwram.wf && s.pal.wf && s.vram.wf && s.oam.wf && s.io.wf && cellsWf s.fb

/-- No array lists an index outside its length (10_state R23 to R28, R37). -/
def arraysBounded (s : State) : Bool :=
  cellsBelow 0x40000 s.ewram && cellsBelow 0x8000 s.iwram && cellsBelow 0x400 s.pal && cellsBelow 0x18000 s.vram &&
    cellsBelow s.cfg.oamLen s.oam && cellsBelow ioLen s.io && cellsBelow (s.cfg.screenH * screenW) s.fb

/-- The invariant of the block: the parameters meet their constraints (00_scope R8), the arrays are canonical and
inside their lengths, I/O offset 0x208 holds 0, and the caches are coherent (10_state R48 (1), (2), (3)). -/
structure Inv (s : State) : Prop where
  params       : paramsOk s.cfg = true
  romLength    : s.rom.length ≤ maxRomLen
  canonical    : arraysCanonical s = true
  bounded      : arraysBounded s = true
  inert        : cellsRead s.io 0x208 = 0
  renderCache  : ∀ k : BgIndex, s.bgs[k].tdb = tileDataBase (bgcnt s k) ∧ s.bgs[k].pal256 = paletteMode (bgcnt s k)
  tileMapCache : ∀ k : BgIndex, s.bgs[k].tmValid = true → s.bgs[k].tmBase = tileMapBase (bgcnt s k)

/-! ## Changing what a statement says is not looked at -/

/-- The state with another mode in the processor's status (60_exceptions R255). -/
def withMode (s : State) (m : Mode) : State := { s with cpu := { s.cpu with cpsr := { s.cpu.cpsr with mode := m } } }

/-- The state with another tile-map cache for background k (10_state R36). -/
def withTileMapCache (s : State) (k : BgIndex) (valid : Bool) (base : Word) : State :=
  modifyBg s k fun b => { b with tmValid := valid, tmBase := base }

end Sys2Proof.Machine
end

