-- ==== Sys2Proof/Certificates/Slice0/Obligations.lean ====
section
/-! DEFINITION. The statements for the provers. Each docstring says which rule of spec/ it is about. None needs the
premise `FLT.valid = 0` of spec/60_exceptions.md R231: each holds in faulted states too. -/

open Sys2Proof Sys2Proof.Machine

/-! ## Decoding and encoding (30_encoding.md) -/

/-- Decoding an encoded command gives it back, every operand at every value (R101, R102, R104). -/
def Obligations.DecodeInvertsEncode : Prop := ∀ i : Instr, decode (encode i) = .ok i

/-- Every word the decoder accepts is the encoding of what it decodes to: no bit of a command word is dropped, the
ignored write data of WRB and WRH included (R102, R107). -/
def Obligations.EncodeInvertsDecode : Prop := ∀ (w : Cmd) (i : Instr), decode w = .ok i → encode i = w

/-- The decoder accepts exactly the words that match a row of the opcode table, each as its one row (R104, R108). -/
def Obligations.DecoderAcceptsExactlyTheTable : Prop :=
  (∀ w : Cmd, (∃ i, decode w = .ok i) ↔ wellFormedWord w = true) ∧
  (∀ (w : Cmd) (i : Instr) (r : Row), decode w = .ok i → r ∈ opcodeTable → (r.covers w = true ↔ r = rowOf i))

/-- Words written out from the spec's examples decode to the commands they stand for. -/
def Obligations.ExampleWordsDecode : Prop :=
  decode 0x06_03000000_11223344 = .ok (.wrw 0x03000000 0x11223344) ∧
  decode 0x0A_03000001_00000000 = .ok (.ldwc 0x03000001) ∧
  decode 0x12_00000018_00000000 = .ok (.brdw 0x18) ∧
  decode 0x20_00009F01_00000000 = .ok (.render 1 159) ∧
  decode 0x22_00000006_00000008 = .ok (.scrlwr 2 .y 8) ∧
  decode 0x30_0000000C_00000000 = .ok (.irqreq 12)

/-! ## Steps (30_encoding.md R100, R108; 70_reset_and_hazards.md R273) -/

/-- A step runs the decoded command: the command at the head of the port leaves it, the processor record presented
with it is sampled, and the step is exec of the command at that state (R100). -/
def Obligations.StepRunsTheDecodedCommand : Prop :=
  ∀ (s : State) (p : Presented) (rest : List Presented) (i : Instr),
    s.port = p :: rest → decode p.word = .ok i →
      step s = exec i { s with port := rest, cpu := p.sideband.getD s.cpu }

/-- A reserved command word changes nothing but the fault latch and is reported as ReservedCommand with its `op`
byte (R108), beside the command's leaving the port and the sampling of the processor record. -/
def Obligations.ReservedWordsOnlyLatchAFault : Prop :=
  ∀ (s : State) (p : Presented) (rest : List Presented),
    s.port = p :: rest → wellFormedWord p.word = false →
      step s = .next { s with
        port := rest
        cpu := p.sideband.getD s.cpu
        flt := if s.flt.valid then s.flt else ⟨true, 0x04, (opOf p.word).setWidth 32, opOf p.word⟩
        rsp := ⟨0x04, 0⟩ }

/-- With no command presented a step changes nothing. The model's reading of R273 (DEDUCED, log entry 4). -/
def Obligations.IdlePortChangesNothing : Prop := ∀ s : State, s.port = [] → step s = .next s

/-- Every step answers a next state: the block never stops, a fault included (R231 (5), R235). -/
def Obligations.EveryStepAnswersANextState : Prop := ∀ s : State, ∃ t, step s = .next t

/-! ## Reset and construction (10_state.md R50, 70_reset_and_hazards.md R271, R272) -/

/-- The reset state of every block: all bytes and pixels 0, controls 0, nothing cached, no fault (R50, R272). All but the
zero RAM are the spec's own decisions D28 and D31 (log entry 14); the processor record is not stated (R50: unspecified). -/
def Obligations.ResetHoldsTheSpecValues : Prop :=
  ∀ (c : Config) (rom bios : List Byte), let s := State.resetOf c rom bios
    s.cfg = c ∧ s.rom = rom ∧ s.bios = bios ∧
    (∀ r o, r ≠ .rom → byteAt s r o = 0) ∧ ieReg s = 0 ∧ ifReg s = 0 ∧ (∀ k, bgcnt s k = 0) ∧ s.ime = false ∧
    (∀ k : BgIndex, s.bgs[k] = ⟨0, 0, false, 0, false, false, 0⟩ ∧ bgSize s k = (256, 256)) ∧
    (∀ y x, fbPixel s y x = 0) ∧ s.flt = ⟨false, 0, 0, 0⟩

/-- Construction answers the reset state of the images given or declared, and ImageLoadError for a missing or truncated
image, a ROM above its window (given or declared), or a parameter set that breaks its constraints, whichever lengths are
declared (R271, R236). -/
def Obligations.ConstructionBuildsTheResetStateOrNothing : Prop :=
  ∀ (c : Config) (rom bios : List Byte) (n m : Nat),
    (paramsOk c = true → rom.length ≤ 0x02000000 →
      construct c none none (some rom) (some bios) = .next (State.resetOf c rom bios) ∧
      (m ≤ bios.length → construct c none (some m) (some rom) (some bios) = .next (State.resetOf c rom (bios.take m)))) ∧
    (paramsOk c = true → n ≤ rom.length → n ≤ 0x02000000 →
      construct c (some n) none (some rom) (some bios) = .next (State.resetOf c (rom.take n) bios) ∧
      (m ≤ bios.length →
        construct c (some n) (some m) (some rom) (some bios) = .next (State.resetOf c (rom.take n) (bios.take m)))) ∧
    (∀ dr db ri bi, (ri = none ∨ bi = none) → construct c dr db ri bi = .fault .imageLoadError) ∧
    (∀ db bi, rom.length < n → construct c (some n) db (some rom) bi = .fault .imageLoadError) ∧
    (∀ dr ri, bios.length < m → construct c dr (some m) ri (some bios) = .fault .imageLoadError) ∧
    (∀ db bi, 0x02000000 < rom.length → construct c none db (some rom) bi = .fault .imageLoadError) ∧
    (∀ db ri bi, 0x02000000 < n → construct c (some n) db ri bi = .fault .imageLoadError) ∧
    (∀ dr db ri bi, paramsOk c = false → construct c dr db ri bi = .fault .imageLoadError)

/-! ## The invariant (10_state.md R48) -/

/-- Every step keeps the invariant: canonical arrays inside their lengths, I/O offset 0x208 holding 0, coherent render
and tile-map caches (R48 (1), (2), (3)). -/
def Obligations.StepKeepsTheInvariant : Prop := ∀ s t : State, Inv s → step s = .next t → Inv t

/-- The reset state meets the invariant. -/
def Obligations.ResetMeetsTheInvariant : Prop := Inv State.reset

/-- Every block that construction answers meets the invariant. -/
def Obligations.ConstructedBlocksMeetTheInvariant : Prop :=
  ∀ (c : Config) (dr db : Option Nat) (ri bi : Option (List Byte)) (s : State),
    construct c dr db ri bi = .next s → Inv s

/-! ## Faults (60_exceptions.md R230, R231, R237; 10_state.md R46) -/

/-- Whatever a command answers: with status 0 the latch is as it was; with another status nothing but the latch and
the response differs from before, the data is 0, and the latch keeps the first fault with its code, the address, offset or
argument that caused it, and the opcode (R46, R230, R231). Beside it, the same of the shared operation by which the
fault statements below say it, each fault with its code and its `info` written out. -/
def Obligations.FaultsAreLatchedAndChangeNothingElse : Prop :=
  (∀ (i : Instr) (s t : State), exec i s = .next t →
    (t.rsp.status = 0 → t.flt = s.flt) ∧
    (t.rsp.status ≠ 0 → t.rsp.data = 0 ∧
      ∃ info, faultReport s i t.rsp.status info ∧ t = { s with
        flt := if s.flt.valid then s.flt else ⟨true, t.rsp.status, info, opcodeOf i⟩
        rsp := t.rsp })) ∧
  (∀ (s : State) (op : Byte) (a : Word) (bg : BgIndex),
    let report := fun (code : Byte) (info : Word) =>
      { s with flt := if s.flt.valid then s.flt else ⟨true, code, info, op⟩, rsp := ⟨code, 0⟩ }
    raiseFault s op (.badAddress a) = report 0x01 a ∧
    raiseFault s op (.unimplementedRegion a) = report 0x02 a ∧
    raiseFault s op (.reservedCommand a) = report 0x04 a ∧
    raiseFault s op (.renderOutOfRange a) = report 0x05 a ∧
    raiseFault s op (.unimplementedMode bg) = report 0x06 (BitVec.ofNat 32 bg.val))

/-- Every step keeps a latched fault: only reset clears the latch (R46). -/
def Obligations.LatchedFaultIsSticky : Prop :=
  ∀ s t : State, s.flt.valid = true → step s = .next t → t.flt = s.flt

/-- Each command answers only the faults its row of the table allows (R237). -/
def Obligations.EachCommandRaisesOnlyItsFaults : Prop :=
  ∀ (i : Instr) (s t : State), exec i s = .next t → t.rsp.status ∈ allowedStatus i

/-! ## The address decoder (20_memory.md R61 to R69, R76) -/

/-- An address is routed exactly to the window that holds it, at its distance from the base; a byte access faults
BadAddress outside every window, UnimplementedRegion where the window has no backing, and passes otherwise (R61, R63,
R76). -/
def Obligations.ChecksFollowTheAddressMap : Prop :=
  ∀ (s : State) (a : Word) (w : Bool),
    (∀ r o, route a = some (r, o) ↔ o < regionSize r ∧ a.toNat = regionBase r + o) ∧
    (route a = none → check s a w = .error (.badAddress a)) ∧
    (∀ r o, route a = some (r, o) →
      (((r = .rom ∧ w = true ∧ s.cfg.romWritePolicy = .fault) ∨ (r = .rom ∧ w = false ∧ s.rom.length ≤ o) ∨
          (r = .vram ∧ s.cfg.vramWired = false) ∨ (r = .oam ∧ (s.cfg.oamWired = false ∨ s.cfg.oamLen ≤ o))) ∧
        check s a w = .error (.unimplementedRegion a)) ∨
      (¬((r = .rom ∧ w = true ∧ s.cfg.romWritePolicy = .fault) ∨ (r = .rom ∧ w = false ∧ s.rom.length ≤ o) ∨
          (r = .vram ∧ s.cfg.vramWired = false) ∨ (r = .oam ∧ (s.cfg.oamWired = false ∨ s.cfg.oamLen ≤ o))) ∧
        check s a w = .ok (r, o)))

/-! ## Plain bus accesses (40_bus_plain.md) -/

/-- RDB, RDH, RDW: where every byte is readable the response is the bytes composed little-endian, zero-extended, and
nothing else changes; where one is not, the fault of the lowest failing byte (R131, R132, R133). -/
def Obligations.PlainReadsComposeLittleEndian : Prop :=
  (∀ (s : State) (a : Word) (b0 b1 b2 b3 : Byte), busRead8 s a = .ok b0 →
    exec (.rdb a) s = .next { s with rsp := ⟨0, b0.setWidth 32⟩ } ∧
    (busRead8 s (a + 1) = .ok b1 →
      exec (.rdh a) s = .next { s with rsp := ⟨0, (b1 ++ b0).setWidth 32⟩ } ∧
      (busRead8 s (a + 2) = .ok b2 → busRead8 s (a + 3) = .ok b3 →
        exec (.rdw a) s = .next { s with rsp := ⟨0, b3 ++ b2 ++ b1 ++ b0⟩ }))) ∧
  (∀ (s : State) (a : Word) (n : Nat) (f : BlockFault),
    (∀ j < n, readableAt s (a + BitVec.ofNat 32 j)) → busRead8 s (a + BitVec.ofNat 32 n) = .error f →
      (n < 1 → exec (.rdb a) s = .next (raiseFault s 0x00 f)) ∧
      (n < 2 → exec (.rdh a) s = .next (raiseFault s 0x01 f)) ∧
      (n < 4 → exec (.rdw a) s = .next (raiseFault s 0x02 f)))

/-- What a bus read of a byte answers in each region: the image, the array, or 0 at I/O offset 0x208 (20_memory R64,
R68). -/
def Obligations.ReadableBytesAreTheStoredBytes : Prop :=
  ∀ (s : State) (a : Word) (r : Region) (o : Nat), check s a false = .ok (r, o) →
    exec (.rdb a) s = .next { s with rsp := ⟨0,
      (match r with
        | .rom   => s.rom.getD o 0
        | .io    => if o = 0x208 then 0 else cellsRead s.io o
        | .iwram => cellsRead s.iwram o
        | .ewram => cellsRead s.ewram o
        | .pal   => cellsRead s.pal o
        | .vram  => cellsRead s.vram o
        | .oam   => cellsRead s.oam o).setWidth 32⟩ }

/-- WRB, WRH, WRW: where every byte is writable the low bytes of the value are stored ascending, the rest ignored; where
one is not, nothing is stored and the fault is the lowest failing byte's (R134, R135, R136). -/
def Obligations.PlainWritesStoreLittleEndian : Prop :=
  (∀ (s : State) (a v : Word), writableAt s a →
    exec (.wrb a v) s = .next (complete (busWrite8 s a (v.extractLsb' 0 8)) 0) ∧
    (writableAt s (a + 1) →
      exec (.wrh a v) s =
        .next (complete (busWrite8 (busWrite8 s a (v.extractLsb' 0 8)) (a + 1) (v.extractLsb' 8 8)) 0) ∧
      (writableAt s (a + 2) → writableAt s (a + 3) →
        exec (.wrw a v) s = .next (complete (busWrite8 (busWrite8 (busWrite8 (busWrite8 s a (v.extractLsb' 0 8))
          (a + 1) (v.extractLsb' 8 8)) (a + 2) (v.extractLsb' 16 8)) (a + 3) (v.extractLsb' 24 8)) 0)))) ∧
  (∀ (s : State) (a v : Word) (n : Nat) (f : BlockFault),
    (∀ j < n, writableAt s (a + BitVec.ofNat 32 j)) → check s (a + BitVec.ofNat 32 n) true = .error f →
      (n < 1 → exec (.wrb a v) s = .next (raiseFault s 0x04 f)) ∧
      (n < 2 → exec (.wrh a v) s = .next (raiseFault s 0x05 f)) ∧
      (n < 4 → exec (.wrw a v) s = .next (raiseFault s 0x06 f)))

/-- What a bus write of a byte does in each region: nothing to ROM and I/O offset 0x208, write-1-to-clear on the IF
bytes, a plain store elsewhere (20_memory R65, R69; the BGCNT bytes have statements of their own). -/
def Obligations.WritesActByRegion : Prop :=
  ∀ (s : State) (a : Word) (v : Byte) (o : Nat),
    (check s a true = .ok (.rom, o) → busWrite8 s a v = s) ∧
    (check s a true = .ok (.iwram, o) → busWrite8 s a v = { s with iwram := cellsWrite s.iwram o v }) ∧
    (check s a true = .ok (.ewram, o) → busWrite8 s a v = { s with ewram := cellsWrite s.ewram o v }) ∧
    (check s a true = .ok (.pal, o) → busWrite8 s a v = { s with pal := cellsWrite s.pal o v }) ∧
    (check s a true = .ok (.vram, o) → busWrite8 s a v = { s with vram := cellsWrite s.vram o v }) ∧
    (check s a true = .ok (.oam, o) → busWrite8 s a v = { s with oam := cellsWrite s.oam o v }) ∧
    (check s a true = .ok (.io, o) →
      (o = 0x208 → busWrite8 s a v = s) ∧
      (o ≠ 0x208 → o = s.cfg.ifOfs ∨ o = s.cfg.ifOfs + 1 →
        busWrite8 s a v = { s with io := cellsWrite s.io o (cellsRead s.io o &&& ~~~v) }) ∧
      (plainIo s.cfg o = true → busWrite8 s a v = { s with io := cellsWrite s.io o v }))

/-- Read after write: a byte written to RAM or to a plain I/O offset is the byte next read (R137 (1), R75). -/
def Obligations.ReadAfterWriteGivesTheByteWritten : Prop :=
  ∀ (s : State) (a v : Word) (r : Region) (o : Nat),
    check s a true = .ok (r, o) → r ≠ .rom → (r = .io → plainIo s.cfg o = true) →
      ∃ t, exec (.wrb a v) s = .next t ∧
        exec (.rdb a) t = .next { t with rsp := ⟨0, (v.extractLsb' 0 8).setWidth 32⟩ }

/-- A halfword or word write has the end state of its byte writes in ascending order, where none faults (R137 (3)). -/
def Obligations.WideWritesAreTheirByteWrites : Prop :=
  ∀ (s : State) (a v : Word), writableAt s a → writableAt s (a + 1) →
    (∃ t u, exec (.wrb a v) s = .next t ∧ exec (.wrb (a + 1) (v >>> 8)) t = .next u ∧ exec (.wrh a v) s = .next u) ∧
    (writableAt s (a + 2) → writableAt s (a + 3) →
      ∃ t u, exec (.wrh a v) s = .next t ∧ exec (.wrh (a + 2) (v >>> 16)) t = .next u ∧ exec (.wrw a v) s = .next u)

/-- The frame of memory, over all commands: a byte of any region changes only if a bus write is directed to it or, for
IRQREQ, if it is the request byte of the source (R130, R153, 44_irq R211). -/
def Obligations.OnlyAddressedBytesChange : Prop :=
  ∀ (i : Instr) (s t : State), exec i s = .next t → ∀ (r : Region) (o : Nat),
    (∀ p ∈ stores i, route p.1 ≠ some (r, o)) →
    (∀ n, i = .irqreq n → ¬(r = .io ∧ o = s.cfg.ifOfs + n.val / 8)) →
      byteAt t r o = byteAt s r o

/-- The frame of a bus write outside memory: WRB, WRH, WRW and STWC change no parameter, image, master-enable,
framebuffer, processor field, scroll register, affine flag or cached base, and no field of a background whose control
bytes they do not address (R130, R153). -/
def Obligations.BusWritesReachBackgroundsOnlyByControlBytes : Prop :=
  ∀ (i : Instr) (s t : State), stores i ≠ [] → exec i s = .next t →
    t.cfg = s.cfg ∧ t.rom = s.rom ∧ t.bios = s.bios ∧ t.ime = s.ime ∧ t.fb = s.fb ∧ t.cpu = s.cpu ∧ t.port = s.port ∧
    (∀ k : BgIndex,
      t.bgs[k].scrollX = s.bgs[k].scrollX ∧ t.bgs[k].scrollY = s.bgs[k].scrollY ∧ t.bgs[k].affine = s.bgs[k].affine ∧
      t.bgs[k].tmBase = s.bgs[k].tmBase ∧
      ((∀ p ∈ stores i, route p.1 ≠ some (.io, s.cfg.bgcntOfs[k]) ∧ route p.1 ≠ some (.io, s.cfg.bgcntOfs[k] + 1)) →
        t.bgs[k] = s.bgs[k]))

/-- No read has a side effect: after a plain read, a checked load or a leaf read only the response and, on a fault, the
latch differ (20_memory R75, 41_bus_checked R154 (5)). -/
def Obligations.ReadsHaveNoSideEffect : Prop :=
  ∀ (i : Instr) (s t : State), isRead i = true → exec i s = .next t → t = { s with flt := t.flt, rsp := t.rsp }

/-! ## The I/O block (10_state.md R29, R30; 20_memory.md R69) -/

/-- I/O address 0x04000208 reads 0 in every bus read, discards writes, and no command changes the byte stored there;
0x04000209 is a plain byte, stored and read back (R30). -/
def Obligations.MasterEnableAddressIsInert : Prop :=
  ∀ s : State,
    busRead8 s 0x04000208 = .ok 0 ∧
    (∀ v, busWrite8 s 0x04000208 v = s) ∧
    busRead8 s 0x04000209 = .ok (cellsRead s.io 0x209) ∧
    exec (.rdb 0x04000208) s = .next { s with rsp := ⟨0, 0⟩ } ∧
    (∀ v, exec (.wrb 0x04000208 v) s = .next { s with rsp := ⟨0, 0⟩ }) ∧
    (paramsOk s.cfg = true →
      (∀ i t, exec i s = .next t → cellsRead t.io 0x208 = cellsRead s.io 0x208) ∧
      (∀ v, exec (.wrb 0x04000209 v) s =
        .next { s with io := cellsWrite s.io 0x209 (v.extractLsb' 0 8), rsp := ⟨0, 0⟩ }))

/-- Writing the enable mask stores its two bytes; writing the request flags clears the bits written as 1 and can set none;
each leaves the other register, every other I/O byte and everything else as it was; reading them gives them back: the
pseudo-commands IEWR, IRQACK, IFRD (30_encoding R112; 44_irq R217 (4)). -/
def Obligations.InterruptRegistersThroughTheBus : Prop :=
  ∀ (s : State) (m : Half), paramsOk s.cfg = true →
    (∃ t, exec (.wrh (ioAddr s.cfg.ieOfs) (m.setWidth 32)) s = .next t ∧ ieReg t = m ∧ ifReg t = ifReg s ∧
      t = { s with
        io := cellsWrite (cellsWrite s.io s.cfg.ieOfs (m.extractLsb' 0 8)) (s.cfg.ieOfs + 1) (m.extractLsb' 8 8)
        rsp := ⟨0, 0⟩ }) ∧
    (∃ t, exec (.wrh (ioAddr s.cfg.ifOfs) (m.setWidth 32)) s = .next t ∧ ifReg t = ifReg s &&& ~~~m ∧
      ieReg t = ieReg s ∧ t = { s with
        io := cellsWrite (cellsWrite s.io s.cfg.ifOfs (cellsRead s.io s.cfg.ifOfs &&& ~~~m.extractLsb' 0 8))
          (s.cfg.ifOfs + 1) (cellsRead s.io (s.cfg.ifOfs + 1) &&& ~~~m.extractLsb' 8 8)
        rsp := ⟨0, 0⟩ }) ∧
    exec (.rdh (ioAddr s.cfg.ifOfs)) s = .next { s with rsp := ⟨0, (ifReg s).setWidth 32⟩ } ∧
    exec (.rdh (ioAddr s.cfg.ieOfs)) s = .next { s with rsp := ⟨0, (ieReg s).setWidth 32⟩ }

/-- A bus write of byte 0 of a background control register stores it, recomputes the background's tile-data base and
palette mode on every write, and touches nothing else, the tile-map cache included (42_bgcnt_tilemap R170). -/
def Obligations.ControlByteZeroRecaches : Prop :=
  ∀ (s : State) (k : BgIndex) (v : Word), paramsOk s.cfg = true →
    ∃ t, exec (.wrb (ioAddr s.cfg.bgcntOfs[k]) v) s = .next t ∧
      bgcnt t k = (bgcnt s k).extractLsb' 8 8 ++ v.extractLsb' 0 8 ∧
      t = { s with
        io := cellsWrite s.io s.cfg.bgcntOfs[k] (v.extractLsb' 0 8)
        bgs := s.bgs.set k { s.bgs[k] with tdb := tileDataBase (bgcnt t k), pal256 := paletteMode (bgcnt t k) }
        rsp := ⟨0, 0⟩ }

/-- A bus write of byte 1 of a background control register stores it, resets the tile map exactly if the tile-map base
changed, and recomputes the background's render parameters in any case (42_bgcnt_tilemap R171). -/
def Obligations.ControlByteOneResetsOnBaseChange : Prop :=
  ∀ (s : State) (k : BgIndex) (v : Word), paramsOk s.cfg = true →
    ∃ t, exec (.wrb (ioAddr (s.cfg.bgcntOfs[k] + 1)) v) s = .next t ∧
      bgcnt t k = v.extractLsb' 0 8 ++ (bgcnt s k).extractLsb' 0 8 ∧
      t = { s with
        io := cellsWrite s.io (s.cfg.bgcntOfs[k] + 1) (v.extractLsb' 0 8)
        bgs := s.bgs.set k { s.bgs[k] with
          tdb := tileDataBase (bgcnt t k)
          pal256 := paletteMode (bgcnt t k)
          tmValid := s.bgs[k].tmValid && decide (v.toNat % 32 = (bgcnt s k).toNat / 256 % 32) }
        rsp := ⟨0, 0⟩ }

/-- The two control bytes of a background may be written in either order with the same end state (42_bgcnt_tilemap
R173). -/
def Obligations.ControlByteWritesCommute : Prop :=
  ∀ (s : State) (k : BgIndex) (v0 v1 : Byte), paramsOk s.cfg = true → s.io.wf = true →
    busWrite8 (busWrite8 s (ioAddr s.cfg.bgcntOfs[k]) v0) (ioAddr (s.cfg.bgcntOfs[k] + 1)) v1 =
      busWrite8 (busWrite8 s (ioAddr (s.cfg.bgcntOfs[k] + 1)) v1) (ioAddr s.cfg.bgcntOfs[k]) v0

/-- Writing the two bytes of a background control register together (the pseudo-command BGCNTWR) stores both, leaves the
background's render cache computed from the new value, drops its tile-map cache exactly if the tile-map base changed, and
touches nothing else: no other field of the background, no other register and no other I/O byte; reading it gives the value
back (30_encoding R112; 42_bgcnt_tilemap R170, R171). -/
def Obligations.ControlRegisterReadsBackAsWritten : Prop :=
  ∀ (s : State) (k : BgIndex) (v : Half), paramsOk s.cfg = true →
    ∃ t, exec (.wrh (ioAddr s.cfg.bgcntOfs[k]) (v.setWidth 32)) s = .next t ∧
      t = { s with
        io := cellsWrite (cellsWrite s.io s.cfg.bgcntOfs[k] (v.extractLsb' 0 8)) (s.cfg.bgcntOfs[k] + 1)
          (v.extractLsb' 8 8)
        bgs := s.bgs.set k { s.bgs[k] with
          tdb := tileDataBase v
          pal256 := paletteMode v
          tmValid := s.bgs[k].tmValid && decide (v.toNat / 256 % 32 = (bgcnt s k).toNat / 256 % 32) }
        rsp := ⟨0, 0⟩ } ∧
      bgcnt t k = v ∧ (∀ j, j ≠ k → bgcnt t j = bgcnt s j) ∧ ieReg t = ieReg s ∧ ifReg t = ifReg s ∧
      exec (.rdh (ioAddr s.cfg.bgcntOfs[k])) t = .next { t with rsp := ⟨0, v.setWidth 32⟩ }

/-- The decoded fields of a background control register, as numbers (42_bgcnt_tilemap R162, R163, R165; R164 and R166
beside them). -/
def Obligations.ControlRegisterFieldsDecode : Prop :=
  ∀ c : Half,
    (priority c).toNat = c.toNat % 4 ∧
    (tileDataBase c).toNat = c.toNat / 4 % 4 * 0x4000 ∧
    mosaic c = decide (c.toNat / 64 % 2 = 1) ∧
    paletteMode c = decide (c.toNat / 128 % 2 = 1) ∧
    (tileMapBase c).toNat = c.toNat / 256 % 32 * 0x800 ∧
    overflowWrap c = decide (c.toNat / 8192 % 2 = 1) ∧
    (c.toNat / 16384 = 0 → bgSizeOf c false = (256, 256) ∧ bgSizeOf c true = (128, 128)) ∧
    (c.toNat / 16384 = 1 → bgSizeOf c false = (512, 256) ∧ bgSizeOf c true = (256, 256)) ∧
    (c.toNat / 16384 = 2 → bgSizeOf c false = (256, 512) ∧ bgSizeOf c true = (512, 512)) ∧
    (c.toNat / 16384 = 3 → bgSizeOf c false = (512, 512) ∧ bgSizeOf c true = (1024, 1024))

/-! ## Checked word accesses (41_bus_checked.md) -/

/-- LDWC, where the bytes of its case are readable: the aligned word rotated for a misaligned address, the opcode at the
processor's pc at or above 0x10000000 (the halfword twice in Thumb state), the upper halfword alone at a DMA-count
address, the word otherwise; nothing else changes (R152). -/
def Obligations.CheckedLoadCases : Prop :=
  ∀ (s : State) (a : Word) (b0 b1 b2 b3 : Byte),
    busRead8 s (checkedSource s a).1 = .ok b0 → busRead8 s ((checkedSource s a).1 + 1) = .ok b1 →
    (a.toNat % 4 = 0 → 0x10000000 ≤ a.toNat → s.cpu.cpsr.t = .thumb →
      exec (.ldwc a) s = .next { s with rsp := ⟨0, b1 ++ b0 ++ b1 ++ b0⟩ }) ∧
    (busRead8 s ((checkedSource s a).1 + 2) = .ok b2 → busRead8 s ((checkedSource s a).1 + 3) = .ok b3 →
      (a.toNat % 4 = 1 → exec (.ldwc a) s = .next { s with rsp := ⟨0, b0 ++ b3 ++ b2 ++ b1⟩ }) ∧
      (a.toNat % 4 = 2 → exec (.ldwc a) s = .next { s with rsp := ⟨0, b1 ++ b0 ++ b3 ++ b2⟩ }) ∧
      (a.toNat % 4 = 3 → exec (.ldwc a) s = .next { s with rsp := ⟨0, b2 ++ b1 ++ b0 ++ b3⟩ }) ∧
      (a.toNat % 4 = 0 → 0x10000000 ≤ a.toNat → s.cpu.cpsr.t = .arm →
        exec (.ldwc a) s = .next { s with rsp := ⟨0, b3 ++ b2 ++ b1 ++ b0⟩ }) ∧
      (a.toNat % 4 = 0 → a.toNat < 0x10000000 → a ∈ s.cfg.dmacntAddrs →
        exec (.ldwc a) s = .next { s with rsp := ⟨0, b3 ++ b2 ++ 0#16⟩ }) ∧
      (a.toNat % 4 = 0 → a.toNat < 0x10000000 → a ∉ s.cfg.dmacntAddrs →
        exec (.ldwc a) s = .next { s with rsp := ⟨0, b3 ++ b2 ++ b1 ++ b0⟩ }))

/-- LDWC, where a byte of its case is not readable: the fault of the lowest failing byte of the word or halfword it
reads, which in the open-bus case is an address at the processor's pc (R152, R151). -/
def Obligations.CheckedLoadFaults : Prop :=
  ∀ (s : State) (a : Word) (n : Nat) (f : BlockFault), n < (checkedSource s a).2 →
    (∀ j < n, readableAt s ((checkedSource s a).1 + BitVec.ofNat 32 j)) →
    busRead8 s ((checkedSource s a).1 + BitVec.ofNat 32 n) = .error f →
      exec (.ldwc a) s = .next (raiseFault s 0x0A f)

/-- STWC stores the whole word, unrotated, at the address aligned down, and nothing where a byte of it fails, whose
lowest one is reported (R153). -/
def Obligations.CheckedStoreAlignsDown : Prop :=
  (∀ s a v, let p : Word := BitVec.ofNat 32 (a.toNat / 4 * 4)
    writableAt s p → writableAt s (p + 1) → writableAt s (p + 2) → writableAt s (p + 3) →
      exec (.stwc a v) s = .next (complete (busWrite8 (busWrite8 (busWrite8 (busWrite8 s p (v.extractLsb' 0 8))
        (p + 1) (v.extractLsb' 8 8)) (p + 2) (v.extractLsb' 16 8)) (p + 3) (v.extractLsb' 24 8)) 0)) ∧
  (∀ (s : State) (a v : Word) (n : Nat) (f : BlockFault), let p : Word := BitVec.ofNat 32 (a.toNat / 4 * 4)
    n < 4 → (∀ j < n, writableAt s (p + BitVec.ofNat 32 j)) → check s (p + BitVec.ofNat 32 n) true = .error f →
      exec (.stwc a v) s = .next (raiseFault s 0x0E f))

/-- The asymmetry of the checked accesses, in every region: where each byte of the aligned word keeps what is written to it,
a checked load after a checked store at the same address gives the value rotated right by 8 times the low address bits, and
its upper halfword alone at a DMA-count address (R154 (3), R152). In internal work RAM every byte does. -/
def Obligations.CheckedStoreThenLoadRotates : Prop :=
  (∀ (s : State) (a v : Word), let p : Word := BitVec.ofNat 32 (a.toNat / 4 * 4)
    keepsByte s p → keepsByte s (p + 1) → keepsByte s (p + 2) → keepsByte s (p + 3) →
      ∃ t, exec (.stwc a v) s = .next t ∧
        (a.toNat % 4 ≠ 0 ∨ a ∉ s.cfg.dmacntAddrs →
          exec (.ldwc a) t = .next { t with rsp := ⟨0, v.rotateRight (8 * (a.toNat % 4))⟩ }) ∧
        (a.toNat % 4 = 0 → a ∈ s.cfg.dmacntAddrs →
          exec (.ldwc a) t = .next { t with rsp := ⟨0, v.extractLsb' 16 16 ++ 0#16⟩ })) ∧
  (∀ (s : State) (a v : Word), paramsOk s.cfg = true → 0x03000000 ≤ a.toNat → a.toNat ≤ 0x03007FFF →
    ∃ t, exec (.stwc a v) s = .next t ∧
      exec (.ldwc a) t = .next { t with rsp := ⟨0, v.rotateRight (8 * (a.toNat % 4))⟩ })

/-! ## BIOS leaf reads (40_bus_plain.md) -/

/-- BRDB, BRDH, BRDW: the bytes of the image from the offset on, composed little-endian, where they are inside the
image; BadAddress with the lowest offset outside it otherwise, the sum not wrapped (R139, R140, R141). That the offset is
recorded modulo 2^32 is the model's choice; it shows only for an image of 2^32 bytes or more (DESIGN CHOICE, log entry 11). -/
def Obligations.LeafReadsComposeTheImage : Prop :=
  ∀ (s : State) (ofs : Word), let o := ofs.toNat; let b := fun n => s.bios.getD (o + n) 0
    (o + 1 ≤ s.bios.length → exec (.brdb ofs) s = .next { s with rsp := ⟨0, (b 0).setWidth 32⟩ }) ∧
    (o + 2 ≤ s.bios.length → exec (.brdh ofs) s = .next { s with rsp := ⟨0, (b 1 ++ b 0).setWidth 32⟩ }) ∧
    (o + 4 ≤ s.bios.length → exec (.brdw ofs) s = .next { s with rsp := ⟨0, b 3 ++ b 2 ++ b 1 ++ b 0⟩ }) ∧
    (s.bios.length < o + 1 →
      exec (.brdb ofs) s = .next (raiseFault s 0x10 (.badAddress (BitVec.ofNat 32 (max o s.bios.length))))) ∧
    (s.bios.length < o + 2 →
      exec (.brdh ofs) s = .next (raiseFault s 0x11 (.badAddress (BitVec.ofNat 32 (max o s.bios.length))))) ∧
    (s.bios.length < o + 4 →
      exec (.brdw ofs) s = .next (raiseFault s 0x12 (.badAddress (BitVec.ofNat 32 (max o s.bios.length)))))

/-! ## Background commands (42_bgcnt_tilemap.md) -/

/-- TMLOOK on a regular background responds the tile-map entry of the pixel, wrapped at the background's size, at the
address the layout's formula gives from the cached base, or from the register's where none is cached; it caches the base,
and changes nothing else; on an affine background it faults UnimplementedMode (R172, R174, R175). -/
def Obligations.TileMapLookupRespondsTheEntry : Prop :=
  ∀ (s : State) (bg : BgIndex) (x y : Half),
    (s.bgs[bg].affine = false →
      let w := (bgSize s bg).1
      let tx := x.toNat % w / 8
      let ty := y.toNat % (bgSize s bg).2 / 8
      let base := if s.bgs[bg].tmValid then s.bgs[bg].tmBase.toNat else (bgcnt s bg).toNat / 256 % 32 * 0x800
      let ea := base + match s.cfg.tilemapLayout with
        | .screenblock => (ty / 32 * (w / 256) + tx / 32) * 0x800 + 2 * (ty % 32 * 32 + tx % 32)
        | .linear      => 2 * (ty * (w / 8) + tx)
      exec (.tmlook bg x y) s = .next { s with
        bgs := s.bgs.set bg { s.bgs[bg] with tmBase := BitVec.ofNat 32 base, tmValid := true }
        rsp := ⟨0, (cellsRead s.vram (ea + 1) ++ cellsRead s.vram ea).setWidth 32⟩ }) ∧
    (s.bgs[bg].affine = true →
      exec (.tmlook bg x y) s = .next (raiseFault s 0x21 (.unimplementedMode bg)))

/-- SCRLWR, AFFWR and BGRST: the one register written, or the caches recomputed and the tile map reset; nothing else
(R176, R177, R178). -/
def Obligations.BackgroundWritesChangeOnlyTheirRegister : Prop :=
  ∀ (s : State) (bg : BgIndex) (v : Half) (f : Bool),
    exec (.scrlwr bg .x v) s = .next { s with bgs := s.bgs.set bg { s.bgs[bg] with scrollX := v }, rsp := ⟨0, 0⟩ } ∧
    exec (.scrlwr bg .y v) s = .next { s with bgs := s.bgs.set bg { s.bgs[bg] with scrollY := v }, rsp := ⟨0, 0⟩ } ∧
    exec (.affwr bg f) s = .next { s with bgs := s.bgs.set bg { s.bgs[bg] with affine := f }, rsp := ⟨0, 0⟩ } ∧
    exec (.bgrst bg) s = .next { s with
      bgs := s.bgs.set bg { s.bgs[bg] with
        tdb := tileDataBase (bgcnt s bg), pal256 := paletteMode (bgcnt s bg), tmValid := false }
      rsp := ⟨0, 0⟩ }

/-- TMLOOK is periodic in the background's width and height (R179 (5)). -/
def Obligations.TileMapLookupIsPeriodic : Prop :=
  ∀ (s : State) (bg : BgIndex) (x y : Half),
    (x.toNat + (bgSize s bg).1 < 65536 →
      exec (.tmlook bg (x + BitVec.ofNat 16 (bgSize s bg).1) y) s = exec (.tmlook bg x y) s) ∧
    (y.toNat + (bgSize s bg).2 < 65536 →
      exec (.tmlook bg x (y + BitVec.ofNat 16 (bgSize s bg).2)) s = exec (.tmlook bg x y) s)

/-- In every state that meets the invariant a lookup uses the base the register holds now: no stale cached base
survives a write (R179 (2)). -/
def Obligations.LookupsUseTheCurrentBase : Prop :=
  ∀ (s : State) (bg : BgIndex) (x y : Half), Inv s → s.bgs[bg].affine = false →
    let w := (bgSize s bg).1
    let h := (bgSize s bg).2
    let ea := entryAddr s.cfg.tilemapLayout ((bgcnt s bg).toNat / 256 % 32 * 0x800) w (x.toNat % w / 8) (y.toNat % h / 8)
    ∃ t, exec (.tmlook bg x y) s = .next t ∧
      t.rsp = ⟨0, (cellsRead s.vram (ea + 1) ++ cellsRead s.vram ea).setWidth 32⟩

/-- The tile-map cache is unobservable: two states that meet the invariant and differ in it alone give every command the
same response and framebuffer (10_state R48). -/
def Obligations.TileMapCacheIsUnobservable : Prop :=
  ∀ (i : Instr) (s t t' : State) (k : BgIndex) (valid : Bool) (base : Word),
    Inv s → Inv (withTileMapCache s k valid base) →
    exec i s = .next t → exec i (withTileMapCache s k valid base) = .next t' → t'.rsp = t.rsp ∧ t'.fb = t.fb

/-! ## The renderer (43_render.md) -/

/-- RENDER of a regular 16-colour background completes: each of the 240 pixels of the line is the backdrop where its
pixel value is 0, else the entry of its sub-palette; every other pixel and everything but the tile-map cache and the
response stays (R190 to R193). -/
def Obligations.RenderDrawsSixteenColourRow : Prop :=
  ∀ (s : State) (bg : BgIndex) (line : BitVec 8), line.toNat < s.cfg.screenH → s.bgs[bg].affine = false →
    s.bgs[bg].pal256 = false →
    ∃ t, exec (.render bg line) s = .next t ∧
      t = { s with fb := t.fb, bgs := bgsAfterLookup s bg, rsp := ⟨0, 0⟩ } ∧
      (∀ x < 240, fbPixel t line.toNat x =
        paletteEntry s (if pixelValue4 s bg line.toNat x = 0 then 0
          else subPalette (entryAt s bg (bgColumn s bg x) (bgRow s bg line.toNat)) * 16 +
            pixelValue4 s bg line.toNat x)) ∧
      (∀ y x, x < 240 → y ≠ line.toNat → fbPixel t y x = fbPixel s y x)

/-- RENDER of a regular 256-colour background, by analogy (the spec's own flag: unverified): it completes where every
tile byte is inside video RAM, each pixel the entry its byte names; else it faults RenderOutOfRange with the offset of
the lowest failing column and writes nothing (R190, R194). -/
def Obligations.RenderDrawsTwoFiftySixColourRow : Prop :=
  ∀ (s : State) (bg : BgIndex) (line : BitVec 8), line.toNat < s.cfg.screenH → s.bgs[bg].affine = false →
    s.bgs[bg].pal256 = true → s.cfg.pal256Render = .byAnalogy →
    ((∀ x < 240, tileByte8 s bg line.toNat x < 0x18000) →
      ∃ t, exec (.render bg line) s = .next t ∧
        t = { s with fb := t.fb, bgs := bgsAfterLookup s bg, rsp := ⟨0, 0⟩ } ∧
        (∀ x < 240, fbPixel t line.toNat x =
          paletteEntry s (cellsRead s.vram (tileByte8 s bg line.toNat x)).toNat) ∧
        (∀ y x, x < 240 → y ≠ line.toNat → fbPixel t y x = fbPixel s y x)) ∧
    (∀ x < 240, (∀ z < x, tileByte8 s bg line.toNat z < 0x18000) → 0x18000 ≤ tileByte8 s bg line.toNat x →
      exec (.render bg line) s =
        .next (raiseFault s 0x20 (.renderOutOfRange (BitVec.ofNat 32 (tileByte8 s bg line.toNat x)))))

/-- RENDER refuses, in this order: a line at or above SCREEN_H, an affine background, a refused 256-colour mode (R190,
R244). -/
def Obligations.RenderRefusals : Prop :=
  ∀ (s : State) (bg : BgIndex) (line : BitVec 8),
    (s.cfg.screenH ≤ line.toNat →
      exec (.render bg line) s = .next (raiseFault s 0x20 (.reservedCommand (line.setWidth 32)))) ∧
    (line.toNat < s.cfg.screenH → s.bgs[bg].affine = true →
      exec (.render bg line) s = .next (raiseFault s 0x20 (.unimplementedMode bg))) ∧
    (line.toNat < s.cfg.screenH → s.bgs[bg].affine = false → s.bgs[bg].pal256 = true →
      s.cfg.pal256Render = .refuse →
      exec (.render bg line) s = .next (raiseFault s 0x20 (.unimplementedMode bg)))

/-- The tile-map and 16-colour fetches of a regular background stay inside video RAM in every state that meets the
invariant: the two bytes of every tile-map entry, and every 16-colour tile byte (R174, R192). A 256-colour tile fetch can
leave it, and then faults: RenderDrawsTwoFiftySixColourRow says so (R194). -/
def Obligations.TileMapAndSixteenColourFetchesStayInsideVideoRam : Prop :=
  ∀ (s : State) (k : BgIndex) (x y : Nat), Inv s → s.bgs[k].affine = false →
    entryAddr s.cfg.tilemapLayout (tmBaseOf s k).toNat (bgSize s k).1 (x % (bgSize s k).1 / 8) (y % (bgSize s k).2 / 8) + 1
      ≤ 0x117FF ∧
    tileByte4 s k y x ≤ 0x13FFF

/-- Adding the background's width or height to a scroll register, without overflow, does not change what RENDER answers
or draws (R197 (1)). -/
def Obligations.RenderIsPeriodicInScroll : Prop :=
  ∀ (s : State) (bg : BgIndex) (line : BitVec 8) (t t' : State) (dx dy : Half),
    (dx = 0 ∨ (dx.toNat = (bgSize s bg).1 ∧ s.bgs[bg].scrollX.toNat + dx.toNat < 65536)) →
    (dy = 0 ∨ (dy.toNat = (bgSize s bg).2 ∧ s.bgs[bg].scrollY.toNat + dy.toNat < 65536)) →
    exec (.render bg line) s = .next t →
    exec (.render bg line)
      (modifyBg s bg fun b => { b with scrollX := b.scrollX + dx, scrollY := b.scrollY + dy }) = .next t' →
      t'.fb = t.fb ∧ t'.rsp = t.rsp

/-! ## The interrupt controller (44_irq.md) -/

/-- IRQREQ sets the bit of its source in the request flags, in the one byte that holds it, whatever the mask and the enables
are, and changes nothing else: no other I/O byte and nothing outside them (R211). -/
def Obligations.RequestSetsItsFlag : Prop :=
  ∀ (s : State) (n : Fin 16), paramsOk s.cfg = true →
    ∃ t, exec (.irqreq n) s = .next t ∧ ifReg t = ifReg s ||| 1#16 <<< n.val ∧ ieReg t = ieReg s ∧
      (∀ k, bgcnt t k = bgcnt s k) ∧
      t = { s with
        io := cellsWrite s.io (s.cfg.ifOfs + n.val / 8)
          (cellsRead s.io (s.cfg.ifOfs + n.val / 8) ||| 1#8 <<< (n.val % 8))
        rsp := ⟨0, 0⟩ }

/-- IRQPROC: with the master-enable on, the processor's disable flag clear and the pending word of IRQ_GATE nonzero, the
entry is driven, seven fields as the rule lists them; otherwise nothing changes but the response; for both values of
IRQ_GATE (R212, R213, 60_exceptions R245). The link is computed from `CurInsnAddr` of the record before the entry: the pc by
default, or the function the processor supplies (R214; its forms are the model's, log entry 2). -/
def Obligations.PollTakesTheInterruptOrDoesNothing : Prop :=
  ∀ s : State,
    let taken := s.ime = true ∧ s.cpu.cpsr.i = false ∧
      (s.cfg.irqGate = .ifOnly → ifReg s ≠ 0) ∧ (s.cfg.irqGate = .ifAndIe → ifReg s &&& ieReg s ≠ 0)
    (taken →
      exec .irqproc s = .next { s with
        cpu := {
          pc := 0x18
          cpsr := { mode := .irq, i := true, t := .arm, rest := s.cpu.cpsr.rest }
          spsrIrq := s.cpu.cpsr
          lrIrq := curInsnAddr s.cfg s.cpu + (if s.cpu.cpsr.t = .arm then 4 else 2)
          flushReq := true }
        rsp := ⟨0, 1⟩ }) ∧
    (¬taken → exec .irqproc s = .next { s with rsp := ⟨0, 0⟩ }) ∧
    (s.cfg.curInsnAddr = .pc → curInsnAddr s.cfg s.cpu = s.cpu.pc) ∧
    (∀ arm thumb, s.cfg.curInsnAddr = .pcPlus arm thumb →
      curInsnAddr s.cfg s.cpu = s.cpu.pc + (if s.cpu.cpsr.t = .arm then arm else thumb)) ∧
    (∀ v more otherwise, s.cfg.curInsnAddr = .table ((s.cpu, v) :: more) otherwise → curInsnAddr s.cfg s.cpu = v) ∧
    (∀ n, s.cfg.curInsnAddr = .supplied n → curInsnAddr s.cfg s.cpu = Config.suppliedInsnAddr n s.cpu)

/-- IMEWR writes the master-enable and nothing else (R216). -/
def Obligations.MasterEnableWrite : Prop :=
  ∀ (s : State) (v : Bool), exec (.imewr v) s = .next { s with ime := v, rsp := ⟨0, 0⟩ }

/-- A poll right after a taken poll is not taken and changes nothing but the response (R217 (2)). -/
def Obligations.TakenPollIsNotTakenAgain : Prop :=
  ∀ s t : State, exec .irqproc s = .next t → t.rsp.data = 1 → exec .irqproc t = .next { t with rsp := ⟨0, 0⟩ }

/-- A request flag becomes set only by IRQREQ of its source, and becomes clear only by a bus write that carries a 1 for
it to its byte of IF: no command clears a request by itself (R210, R217 (1)). -/
def Obligations.RequestFlagsChangeOnlyByRequestAndAcknowledge : Prop :=
  ∀ (i : Instr) (s t : State) (n : Fin 16), paramsOk s.cfg = true → exec i s = .next t →
    ((ifReg s).getLsbD n.val = false → (ifReg t).getLsbD n.val = true → i = .irqreq n) ∧
    ((ifReg s).getLsbD n.val = true → (ifReg t).getLsbD n.val = false →
      ∃ p ∈ stores i, p.1 = ioAddr (s.cfg.ifOfs + n.val / 8) ∧ p.2.getLsbD (n.val % 8) = true)

/-- After a taken interrupt the processor's pc is the vector, which no bus read reaches: RDW there and an open-bus load
both fault BadAddress at 0x18 (70_reset_and_hazards R281). -/
def Obligations.InterruptVectorIsUnmapped : Prop :=
  ∀ (s t : State) (a : Word), exec .irqproc s = .next t → t.rsp.data = 1 →
    exec (.rdw 0x18) t = .next (raiseFault t 0x02 (.badAddress 0x18)) ∧
    (a.toNat % 4 = 0 → 0x10000000 ≤ a.toNat → exec (.ldwc a) t = .next (raiseFault t 0x0A (.badAddress 0x18)))

/-! ## Whole-machine rules -/

/-- No command changes a parameter, the ROM image or the BIOS image (10_state R20, 20_memory R65, R77). -/
def Obligations.ParametersAndImagesNeverChange : Prop :=
  ∀ s t : State, step s = .next t → t.cfg = s.cfg ∧ t.rom = s.rom ∧ t.bios = s.bios

/-- Only IRQPROC writes the processor record (10_state R40, R42). -/
def Obligations.OnlyThePollWritesTheProcessorRecord : Prop :=
  ∀ (i : Instr) (s t : State), i ≠ .irqproc → exec i s = .next t → t.cpu = s.cpu

/-- Each control and status register changes only by its writers: IME by IMEWR, the scroll registers by SCRLWR of their
background and axis, the affine flag by AFFWR, the framebuffer by RENDER; the render cache by a bus write of a control byte
or BGRST, the tile-map cache by these, TMLOOK and RENDER of its background; IF by IRQREQ or a bus write of its bytes; IE and
BGCNT, with legal parameters, by a bus write of their bytes; and no command touches the port (10_state R29, R31, R33 to
R37). -/
def Obligations.RegistersChangeOnlyByTheirWriters : Prop :=
  ∀ (i : Instr) (s t : State), exec i s = .next t →
    ((∀ v, i ≠ .imewr v) → t.ime = s.ime) ∧
    (∀ k : BgIndex,
      ((∀ v, i ≠ .scrlwr k .x v) → t.bgs[k].scrollX = s.bgs[k].scrollX) ∧
      ((∀ v, i ≠ .scrlwr k .y v) → t.bgs[k].scrollY = s.bgs[k].scrollY) ∧
      ((∀ v, i ≠ .affwr k v) → t.bgs[k].affine = s.bgs[k].affine) ∧
      (i ≠ .bgrst k → storesNotTo i s.cfg.bgcntOfs[k] →
        t.bgs[k].tdb = s.bgs[k].tdb ∧ t.bgs[k].pal256 = s.bgs[k].pal256 ∧
        ((∀ l, i ≠ .render k l) → (∀ x y, i ≠ .tmlook k x y) →
          t.bgs[k].tmValid = s.bgs[k].tmValid ∧ t.bgs[k].tmBase = s.bgs[k].tmBase)) ∧
      (paramsOk s.cfg = true → storesNotTo i s.cfg.bgcntOfs[k] → bgcnt t k = bgcnt s k)) ∧
    (paramsOk s.cfg = true → storesNotTo i s.cfg.ieOfs → ieReg t = ieReg s) ∧
    ((∀ n, i ≠ .irqreq n) → storesNotTo i s.cfg.ifOfs → ifReg t = ifReg s) ∧
    ((∀ k l, i ≠ .render k l) → t.fb = s.fb) ∧ t.port = s.port

/-- The block never tests the processor's mode: every command but IRQPROC does the same in every mode and keeps the mode;
IRQPROC answers the same in every mode, and a taken one saves the old mode and leaves IRQ (60_exceptions R255). -/
def Obligations.ModeIsNeverTested : Prop :=
  (∀ (i : Instr) (s t : State) (m : Mode), i ≠ .irqproc → exec i s = .next t →
    exec i (withMode s m) = .next (withMode t m)) ∧
  (∀ (s t : State) (m : Mode), exec .irqproc s = .next t →
    ∃ t', exec .irqproc (withMode s m) = .next t' ∧ t'.rsp = t.rsp ∧
      (t.rsp.data = 1 → t'.cpu.cpsr.mode = .irq ∧ t'.cpu.spsrIrq.mode = m) ∧
      (t.rsp.data = 0 → t'.cpu.cpsr.mode = m))

/-- The header views: the entry-point word is the first four bytes little-endian, the title is bytes 0xA0 to 0xAB without
their trailing zero bytes; an image too short for a field is ImageLoadError (20_memory R85). -/
def Obligations.HeaderViewsReadTheImage : Prop :=
  ∀ s : State, let b := fun n => s.rom.getD n 0
    (4 ≤ s.rom.length → romEntry s = .ok (b 3 ++ b 2 ++ b 1 ++ b 0)) ∧
    (s.rom.length < 4 → romEntry s = .error .imageLoadError) ∧
    (0xAC ≤ s.rom.length → ∃ title n, romTitle s = .ok title ∧
      title ++ List.replicate n 0 = (s.rom.drop 0xA0).take 12 ∧ title.getLast? ≠ some 0) ∧
    (s.rom.length < 0xAC → romTitle s = .error .imageLoadError)

/-- The fields of a tile-map entry, and the two entry address formulas, as numbers; the formulas agree for a background 256
pixels wide (42_bgcnt_tilemap R174; the flip bits' places are general knowledge, G8, and the formulas too, D21). -/
def Obligations.TileMapEntriesDecode : Prop :=
  (∀ e : Half,
    tileIndex e = e.toNat % 1024 ∧ hflip e = decide (e.toNat / 1024 % 2 = 1) ∧
    vflip e = decide (e.toNat / 2048 % 2 = 1) ∧ subPalette e = e.toNat / 4096) ∧
  (∀ base w tx ty : Nat,
    entryAddr .screenblock base w tx ty =
      base + (ty / 32 * (w / 256) + tx / 32) * 0x800 + 2 * (ty % 32 * 32 + tx % 32) ∧
    entryAddr .linear base w tx ty = base + 2 * (ty * (w / 8) + tx) ∧
    (w = 256 → tx < w / 8 → entryAddr .screenblock base w tx ty = entryAddr .linear base w tx ty))
end

