-- ==== Sys2Proof/Laws/Memory.lean ====
section
/-! SUPPORT. Laws of sparse arrays: a read after a write, that every operation keeps the canonical form and a bound on
the indices, and that canonical arrays with equal reads are equal. -/

namespace Sys2Proof.Machine

variable {w : Nat}

@[simp] theorem cellsRead_nil (a : Nat) : cellsRead ([] : Cells w) a = 0 := rfl

theorem cellsRead_erase (m : Cells w) (a b : Nat) :
    cellsRead (cellsErase m a) b = if a = b then 0 else cellsRead m b := by
  induction m with
  | nil => simp [cellsErase]
  | cons e m ih =>
    obtain ⟨k, v⟩ := e
    by_cases hk : k = a
    · subst hk
      simp only [cellsErase, if_true, ih, cellsRead]
      split <;> rfl
    · simp only [cellsErase, if_neg hk, cellsRead, ih]
      by_cases hb : k = b
      · subst hb
        simp [Ne.symm hk]
      · simp [hb]

theorem cellsRead_insert_other {a b : Nat} (h : a ≠ b) (m : Cells w) (v : BitVec w) :
    cellsRead (cellsInsert m a v) b = cellsRead m b := by
  induction m with
  | nil => simp [cellsInsert, cellsRead, h]
  | cons e m ih =>
    obtain ⟨k, x⟩ := e
    by_cases hk : a < k
    · simp only [cellsInsert, if_pos hk]
      rw [cellsRead, if_neg h]
    · simp only [cellsInsert, if_neg hk, cellsRead, ih]

theorem cellsRead_insert_erased (m : Cells w) (a : Nat) (v : BitVec w) :
    cellsRead (cellsInsert (cellsErase m a) a v) a = v := by
  induction m with
  | nil => simp [cellsErase, cellsInsert, cellsRead]
  | cons e m ih =>
    obtain ⟨k, x⟩ := e
    by_cases hk : k = a
    · simp only [cellsErase, if_pos hk, ih]
    · simp only [cellsErase, if_neg hk, cellsInsert]
      split
      · simp [cellsRead]
      · rw [cellsRead, if_neg hk, ih]

/-- A read after a write gives the value written at that index, and what was there at every other. -/
theorem cellsRead_write (m : Cells w) (a b : Nat) (v : BitVec w) :
    cellsRead (cellsWrite m a v) b = if a = b then v else cellsRead m b := by
  unfold cellsWrite
  by_cases hv : v = 0
  · simp [hv, cellsRead_erase]
  · simp only [if_neg hv]
    by_cases hab : a = b
    · subst hab
      simp [cellsRead_insert_erased]
    · rw [cellsRead_insert_other hab, cellsRead_erase, if_neg hab, if_neg hab]

@[simp] theorem cellsRead_write_same (m : Cells w) (a : Nat) (v : BitVec w) : cellsRead (cellsWrite m a v) a = v := by
  simp [cellsRead_write]

theorem cellsRead_write_other {a b : Nat} (h : a ≠ b) (m : Cells w) (v : BitVec w) :
    cellsRead (cellsWrite m a v) b = cellsRead m b := by
  simp [cellsRead_write, h]

/-! ## The canonical form -/

theorem cellsWfFrom_cons {lo k : Nat} {v : BitVec w} {m : Cells w} :
    cellsWfFrom lo ((k, v) :: m) = true ↔ lo ≤ k ∧ v ≠ 0 ∧ cellsWfFrom (k + 1) m = true := by
  simp [cellsWfFrom, and_assoc]

theorem cellsWfFrom_mono {lo lo' : Nat} (h : lo' ≤ lo) {m : Cells w} (hm : cellsWfFrom lo m = true) :
    cellsWfFrom lo' m = true := by
  cases m with
  | nil => rfl
  | cons e m =>
    obtain ⟨k, v⟩ := e
    rw [cellsWfFrom_cons] at hm ⊢
    exact ⟨h.trans hm.1, hm.2⟩

/-- An index below the bound of a canonical array is unlisted. -/
theorem cellsRead_below {lo a : Nat} (h : a < lo) {m : Cells w} (hm : cellsWfFrom lo m = true) : cellsRead m a = 0 := by
  induction m generalizing lo with
  | nil => rfl
  | cons e m ih =>
    obtain ⟨k, v⟩ := e
    rw [cellsWfFrom_cons] at hm
    rw [cellsRead, if_neg (by omega)]
    exact ih (by omega) hm.2.2

theorem cellsWfFrom_erase {lo : Nat} (a : Nat) {m : Cells w} (hm : cellsWfFrom lo m = true) :
    cellsWfFrom lo (cellsErase m a) = true := by
  induction m generalizing lo with
  | nil => rfl
  | cons e m ih =>
    obtain ⟨k, v⟩ := e
    rw [cellsWfFrom_cons] at hm
    by_cases hk : k = a
    · simp only [cellsErase, if_pos hk]
      exact cellsWfFrom_mono (by omega) (ih hm.2.2)
    · simp only [cellsErase, if_neg hk, cellsWfFrom_cons]
      exact ⟨hm.1, hm.2.1, ih hm.2.2⟩

theorem cellsErase_erase (m : Cells w) (a : Nat) : cellsErase (cellsErase m a) a = cellsErase m a := by
  induction m with
  | nil => rfl
  | cons e m ih =>
    obtain ⟨k, v⟩ := e
    by_cases hk : k = a <;> simp [cellsErase, hk, ih]

theorem cellsWfFrom_insert {lo a : Nat} (ha : lo ≤ a) {v : BitVec w} (hv : v ≠ 0) {m : Cells w}
    (hm : cellsWfFrom lo m = true) (hf : cellsErase m a = m) : cellsWfFrom lo (cellsInsert m a v) = true := by
  induction m generalizing lo with
  | nil => simpa [cellsInsert, cellsWfFrom, ha] using hv
  | cons e m ih =>
    obtain ⟨k, x⟩ := e
    rw [cellsWfFrom_cons] at hm
    have hk : k ≠ a := by
      rintro rfl
      rw [cellsErase, if_pos rfl] at hf
      have h1 : (cellsErase m k).length ≤ m.length := by
        clear hf hm ih ha
        induction m with
        | nil => simp [cellsErase]
        | cons e m ih => simp only [cellsErase]; split <;> simp <;> omega
      have h2 := congrArg List.length hf
      simp at h2
      omega
    have hf' : cellsErase m a = m := by
      rw [cellsErase, if_neg hk] at hf
      exact (List.cons.inj hf).2
    by_cases h : a < k
    · simp only [cellsInsert, if_pos h, cellsWfFrom_cons]
      exact ⟨ha, hv, by omega, hm.2.1, hm.2.2⟩
    · simp only [cellsInsert, if_neg h, cellsWfFrom_cons]
      exact ⟨hm.1, hm.2.1, ih (by omega) hm.2.2 hf'⟩

/-- A write keeps the canonical form. -/
theorem cellsWf_write {m : Cells w} (hm : cellsWf m = true) (a : Nat) (v : BitVec w) : cellsWf (cellsWrite m a v) = true := by
  unfold cellsWf at hm ⊢
  unfold cellsWrite
  split
  · exact cellsWfFrom_erase a hm
  · next hv => exact cellsWfFrom_insert (Nat.zero_le a) hv (cellsWfFrom_erase a hm) (cellsErase_erase m a)

/-- A write keeps the canonical form of a byte array. -/
theorem Memory.wf_write {m : Memory} (hm : m.wf = true) (a : Nat) (v : BitVec 8) : Memory.wf (cellsWrite m a v) = true :=
  cellsWf_write hm a v

theorem cellsBelow_erase {n : Nat} {m : Cells w} (hm : cellsBelow n m = true) (a : Nat) :
    cellsBelow n (cellsErase m a) = true := by
  induction m with
  | nil => rfl
  | cons e m ih =>
    obtain ⟨k, v⟩ := e
    simp only [cellsBelow, List.all_cons, Bool.and_eq_true] at hm
    by_cases hk : k = a
    · simpa only [cellsErase, if_pos hk] using ih hm.2
    · simp only [cellsErase, if_neg hk, cellsBelow, List.all_cons, Bool.and_eq_true]
      exact ⟨hm.1, ih hm.2⟩

theorem cellsBelow_insert {n : Nat} {m : Cells w} (hm : cellsBelow n m = true) {a : Nat} (ha : a < n) (v : BitVec w) :
    cellsBelow n (cellsInsert m a v) = true := by
  induction m with
  | nil => simp [cellsInsert, cellsBelow, ha]
  | cons e m ih =>
    obtain ⟨k, x⟩ := e
    have hm' := hm
    simp only [cellsBelow, List.all_cons, Bool.and_eq_true] at hm'
    simp only [cellsInsert]
    split
    · simp only [cellsBelow, List.all_cons, Bool.and_eq_true]
      exact ⟨by simpa using ha, hm'⟩
    · simp only [cellsBelow, List.all_cons, Bool.and_eq_true]
      exact ⟨hm'.1, ih hm'.2⟩

/-- A write below a length keeps every listed index below it. -/
theorem cellsBelow_write {n : Nat} {m : Cells w} (hm : cellsBelow n m = true) {a : Nat} (ha : a < n) (v : BitVec w) :
    cellsBelow n (cellsWrite m a v) = true := by
  unfold cellsWrite
  split
  · exact cellsBelow_erase hm a
  · exact cellsBelow_insert (cellsBelow_erase hm a) ha v

theorem cells_ext_from {lo : Nat} {m m' : Cells w} (hm : cellsWfFrom lo m = true) (hm' : cellsWfFrom lo m' = true)
    (h : ∀ a, cellsRead m a = cellsRead m' a) : m = m' := by
  induction m generalizing lo m' with
  | nil =>
    cases m' with
    | nil => rfl
    | cons e m' =>
      obtain ⟨k, v⟩ := e
      rw [cellsWfFrom_cons] at hm'
      have := h k
      simp only [cellsRead, if_true] at this
      exact absurd this.symm hm'.2.1
  | cons e m ih =>
    obtain ⟨k, v⟩ := e
    rw [cellsWfFrom_cons] at hm
    cases m' with
    | nil =>
      have := h k
      simp only [cellsRead, if_true] at this
      exact absurd this hm.2.1
    | cons e' m' =>
      obtain ⟨k', v'⟩ := e'
      rw [cellsWfFrom_cons] at hm'
      have hkk : k = k' := by
        rcases Nat.lt_trichotomy k k' with hlt | heq | hgt
        · have := h k
          rw [cellsRead, if_pos rfl, cellsRead, if_neg (by omega), cellsRead_below (by omega) hm'.2.2] at this
          exact absurd this hm.2.1
        · exact heq
        · have := h k'
          rw [cellsRead, if_neg (by omega), cellsRead_below (by omega) hm.2.2, cellsRead, if_pos rfl] at this
          exact absurd this.symm hm'.2.1
      subst hkk
      have hv : v = v' := by
        have := h k
        simpa only [cellsRead, if_true] using this
      subst hv
      rw [ih hm.2.2 hm'.2.2]
      intro a
      by_cases hka : k = a
      · subst hka
        rw [cellsRead_below (Nat.lt_succ_self k) hm.2.2, cellsRead_below (Nat.lt_succ_self k) hm'.2.2]
      · have := h a
        rwa [cellsRead, if_neg hka, cellsRead, if_neg hka] at this

/-- Canonical arrays with equal reads are equal: equal memories are equal data. -/
theorem cells_ext {m m' : Cells w} (hm : cellsWf m = true) (hm' : cellsWf m' = true)
    (h : ∀ a, cellsRead m a = cellsRead m' a) : m = m' :=
  cells_ext_from hm hm' h

/-- Writes at different indices of a canonical array commute. -/
theorem cellsWrite_comm {m : Cells w} (hm : cellsWf m = true) {a b : Nat} (h : a ≠ b) (v x : BitVec w) :
    cellsWrite (cellsWrite m a v) b x = cellsWrite (cellsWrite m b x) a v := by
  refine cells_ext (cellsWf_write (cellsWf_write hm _ _) _ _) (cellsWf_write (cellsWf_write hm _ _) _ _) fun c => ?_
  simp only [cellsRead_write]
  by_cases hb : b = c
  · subst hb; simp [h]
  · simp [hb]

end Sys2Proof.Machine
end

