-- ==== Sys2Proof/Laws/State.lean ====
section
/-! SUPPORT. What each named update of the state does to each field, so that no later proof unfolds a record update. -/

namespace Sys2Proof.Machine

/-! A completed command sets the response alone (30_encoding R103). -/

@[simp] theorem complete_cfg (s : State) (d : Word) : (complete s d).cfg = s.cfg := rfl
@[simp] theorem complete_rom (s : State) (d : Word) : (complete s d).rom = s.rom := rfl
@[simp] theorem complete_bios (s : State) (d : Word) : (complete s d).bios = s.bios := rfl
@[simp] theorem complete_ewram (s : State) (d : Word) : (complete s d).ewram = s.ewram := rfl
@[simp] theorem complete_iwram (s : State) (d : Word) : (complete s d).iwram = s.iwram := rfl
@[simp] theorem complete_pal (s : State) (d : Word) : (complete s d).pal = s.pal := rfl
@[simp] theorem complete_vram (s : State) (d : Word) : (complete s d).vram = s.vram := rfl
@[simp] theorem complete_oam (s : State) (d : Word) : (complete s d).oam = s.oam := rfl
@[simp] theorem complete_io (s : State) (d : Word) : (complete s d).io = s.io := rfl
@[simp] theorem complete_ime (s : State) (d : Word) : (complete s d).ime = s.ime := rfl
@[simp] theorem complete_bgs (s : State) (d : Word) : (complete s d).bgs = s.bgs := rfl
@[simp] theorem complete_fb (s : State) (d : Word) : (complete s d).fb = s.fb := rfl
@[simp] theorem complete_flt (s : State) (d : Word) : (complete s d).flt = s.flt := rfl
@[simp] theorem complete_cpu (s : State) (d : Word) : (complete s d).cpu = s.cpu := rfl
@[simp] theorem complete_port (s : State) (d : Word) : (complete s d).port = s.port := rfl
@[simp] theorem complete_rsp (s : State) (d : Word) : (complete s d).rsp = ⟨0, d⟩ := rfl

/-! A delivered fault sets the latch and the response alone (60_exceptions R231). -/

@[simp] theorem raiseFault_cfg (s : State) (op : Byte) (f : BlockFault) : (raiseFault s op f).cfg = s.cfg := rfl
@[simp] theorem raiseFault_rom (s : State) (op : Byte) (f : BlockFault) : (raiseFault s op f).rom = s.rom := rfl
@[simp] theorem raiseFault_bios (s : State) (op : Byte) (f : BlockFault) : (raiseFault s op f).bios = s.bios := rfl
@[simp] theorem raiseFault_ewram (s : State) (op : Byte) (f : BlockFault) : (raiseFault s op f).ewram = s.ewram := rfl
@[simp] theorem raiseFault_iwram (s : State) (op : Byte) (f : BlockFault) : (raiseFault s op f).iwram = s.iwram := rfl
@[simp] theorem raiseFault_pal (s : State) (op : Byte) (f : BlockFault) : (raiseFault s op f).pal = s.pal := rfl
@[simp] theorem raiseFault_vram (s : State) (op : Byte) (f : BlockFault) : (raiseFault s op f).vram = s.vram := rfl
@[simp] theorem raiseFault_oam (s : State) (op : Byte) (f : BlockFault) : (raiseFault s op f).oam = s.oam := rfl
@[simp] theorem raiseFault_io (s : State) (op : Byte) (f : BlockFault) : (raiseFault s op f).io = s.io := rfl
@[simp] theorem raiseFault_ime (s : State) (op : Byte) (f : BlockFault) : (raiseFault s op f).ime = s.ime := rfl
@[simp] theorem raiseFault_bgs (s : State) (op : Byte) (f : BlockFault) : (raiseFault s op f).bgs = s.bgs := rfl
@[simp] theorem raiseFault_fb (s : State) (op : Byte) (f : BlockFault) : (raiseFault s op f).fb = s.fb := rfl
@[simp] theorem raiseFault_flt (s : State) (op : Byte) (f : BlockFault) : (raiseFault s op f).flt = latchFault s.flt op f := rfl
@[simp] theorem raiseFault_cpu (s : State) (op : Byte) (f : BlockFault) : (raiseFault s op f).cpu = s.cpu := rfl
@[simp] theorem raiseFault_port (s : State) (op : Byte) (f : BlockFault) : (raiseFault s op f).port = s.port := rfl
@[simp] theorem raiseFault_rsp (s : State) (op : Byte) (f : BlockFault) : (raiseFault s op f).rsp = ⟨faultCode f, 0⟩ := rfl

/-! Changing one background. -/

@[simp] theorem modifyBg_cfg (s : State) (k : BgIndex) (g : Background → Background) : (modifyBg s k g).cfg = s.cfg := rfl
@[simp] theorem modifyBg_rom (s : State) (k : BgIndex) (g : Background → Background) : (modifyBg s k g).rom = s.rom := rfl
@[simp] theorem modifyBg_bios (s : State) (k : BgIndex) (g : Background → Background) : (modifyBg s k g).bios = s.bios := rfl
@[simp] theorem modifyBg_ewram (s : State) (k : BgIndex) (g : Background → Background) : (modifyBg s k g).ewram = s.ewram := rfl
@[simp] theorem modifyBg_iwram (s : State) (k : BgIndex) (g : Background → Background) : (modifyBg s k g).iwram = s.iwram := rfl
@[simp] theorem modifyBg_pal (s : State) (k : BgIndex) (g : Background → Background) : (modifyBg s k g).pal = s.pal := rfl
@[simp] theorem modifyBg_vram (s : State) (k : BgIndex) (g : Background → Background) : (modifyBg s k g).vram = s.vram := rfl
@[simp] theorem modifyBg_oam (s : State) (k : BgIndex) (g : Background → Background) : (modifyBg s k g).oam = s.oam := rfl
@[simp] theorem modifyBg_io (s : State) (k : BgIndex) (g : Background → Background) : (modifyBg s k g).io = s.io := rfl
@[simp] theorem modifyBg_ime (s : State) (k : BgIndex) (g : Background → Background) : (modifyBg s k g).ime = s.ime := rfl
@[simp] theorem modifyBg_bgs (s : State) (k : BgIndex) (g : Background → Background) : (modifyBg s k g).bgs = s.bgs.set k (g s.bgs[k]) := rfl
@[simp] theorem modifyBg_fb (s : State) (k : BgIndex) (g : Background → Background) : (modifyBg s k g).fb = s.fb := rfl
@[simp] theorem modifyBg_flt (s : State) (k : BgIndex) (g : Background → Background) : (modifyBg s k g).flt = s.flt := rfl
@[simp] theorem modifyBg_cpu (s : State) (k : BgIndex) (g : Background → Background) : (modifyBg s k g).cpu = s.cpu := rfl
@[simp] theorem modifyBg_port (s : State) (k : BgIndex) (g : Background → Background) : (modifyBg s k g).port = s.port := rfl
@[simp] theorem modifyBg_rsp (s : State) (k : BgIndex) (g : Background → Background) : (modifyBg s k g).rsp = s.rsp := rfl

/-! The plain store of an I/O byte. -/

@[simp] theorem setIo_cfg (s : State) (o : Nat) (v : Byte) : (setIo s o v).cfg = s.cfg := rfl
@[simp] theorem setIo_rom (s : State) (o : Nat) (v : Byte) : (setIo s o v).rom = s.rom := rfl
@[simp] theorem setIo_bios (s : State) (o : Nat) (v : Byte) : (setIo s o v).bios = s.bios := rfl
@[simp] theorem setIo_ewram (s : State) (o : Nat) (v : Byte) : (setIo s o v).ewram = s.ewram := rfl
@[simp] theorem setIo_iwram (s : State) (o : Nat) (v : Byte) : (setIo s o v).iwram = s.iwram := rfl
@[simp] theorem setIo_pal (s : State) (o : Nat) (v : Byte) : (setIo s o v).pal = s.pal := rfl
@[simp] theorem setIo_vram (s : State) (o : Nat) (v : Byte) : (setIo s o v).vram = s.vram := rfl
@[simp] theorem setIo_oam (s : State) (o : Nat) (v : Byte) : (setIo s o v).oam = s.oam := rfl
@[simp] theorem setIo_io (s : State) (o : Nat) (v : Byte) : (setIo s o v).io = cellsWrite s.io o v := rfl
@[simp] theorem setIo_ime (s : State) (o : Nat) (v : Byte) : (setIo s o v).ime = s.ime := rfl
@[simp] theorem setIo_bgs (s : State) (o : Nat) (v : Byte) : (setIo s o v).bgs = s.bgs := rfl
@[simp] theorem setIo_fb (s : State) (o : Nat) (v : Byte) : (setIo s o v).fb = s.fb := rfl
@[simp] theorem setIo_flt (s : State) (o : Nat) (v : Byte) : (setIo s o v).flt = s.flt := rfl
@[simp] theorem setIo_cpu (s : State) (o : Nat) (v : Byte) : (setIo s o v).cpu = s.cpu := rfl
@[simp] theorem setIo_port (s : State) (o : Nat) (v : Byte) : (setIo s o v).port = s.port := rfl
@[simp] theorem setIo_rsp (s : State) (o : Nat) (v : Byte) : (setIo s o v).rsp = s.rsp := rfl

/-! The interrupt entry writes the processor record alone (60_exceptions R245). -/

@[simp] theorem takeIrq_cfg (s : State) : (takeIrq s).cfg = s.cfg := rfl
@[simp] theorem takeIrq_rom (s : State) : (takeIrq s).rom = s.rom := rfl
@[simp] theorem takeIrq_bios (s : State) : (takeIrq s).bios = s.bios := rfl
@[simp] theorem takeIrq_ewram (s : State) : (takeIrq s).ewram = s.ewram := rfl
@[simp] theorem takeIrq_iwram (s : State) : (takeIrq s).iwram = s.iwram := rfl
@[simp] theorem takeIrq_pal (s : State) : (takeIrq s).pal = s.pal := rfl
@[simp] theorem takeIrq_vram (s : State) : (takeIrq s).vram = s.vram := rfl
@[simp] theorem takeIrq_oam (s : State) : (takeIrq s).oam = s.oam := rfl
@[simp] theorem takeIrq_io (s : State) : (takeIrq s).io = s.io := rfl
@[simp] theorem takeIrq_ime (s : State) : (takeIrq s).ime = s.ime := rfl
@[simp] theorem takeIrq_bgs (s : State) : (takeIrq s).bgs = s.bgs := rfl
@[simp] theorem takeIrq_fb (s : State) : (takeIrq s).fb = s.fb := rfl
@[simp] theorem takeIrq_flt (s : State) : (takeIrq s).flt = s.flt := rfl
@[simp] theorem takeIrq_cpu (s : State) : (takeIrq s).cpu = irqEntry s.cpu (curInsnAddr s.cfg s.cpu) := rfl
@[simp] theorem takeIrq_port (s : State) : (takeIrq s).port = s.port := rfl
@[simp] theorem takeIrq_rsp (s : State) : (takeIrq s).rsp = s.rsp := rfl

/-! Taking a command (30_encoding R100). -/

@[simp] theorem takeCommand_cfg (s : State) (p : Presented) (l : List Presented) : (takeCommand s p l).cfg = s.cfg := rfl
@[simp] theorem takeCommand_rom (s : State) (p : Presented) (l : List Presented) : (takeCommand s p l).rom = s.rom := rfl
@[simp] theorem takeCommand_bios (s : State) (p : Presented) (l : List Presented) : (takeCommand s p l).bios = s.bios := rfl
@[simp] theorem takeCommand_ewram (s : State) (p : Presented) (l : List Presented) : (takeCommand s p l).ewram = s.ewram := rfl
@[simp] theorem takeCommand_iwram (s : State) (p : Presented) (l : List Presented) : (takeCommand s p l).iwram = s.iwram := rfl
@[simp] theorem takeCommand_pal (s : State) (p : Presented) (l : List Presented) : (takeCommand s p l).pal = s.pal := rfl
@[simp] theorem takeCommand_vram (s : State) (p : Presented) (l : List Presented) : (takeCommand s p l).vram = s.vram := rfl
@[simp] theorem takeCommand_oam (s : State) (p : Presented) (l : List Presented) : (takeCommand s p l).oam = s.oam := rfl
@[simp] theorem takeCommand_io (s : State) (p : Presented) (l : List Presented) : (takeCommand s p l).io = s.io := rfl
@[simp] theorem takeCommand_ime (s : State) (p : Presented) (l : List Presented) : (takeCommand s p l).ime = s.ime := rfl
@[simp] theorem takeCommand_bgs (s : State) (p : Presented) (l : List Presented) : (takeCommand s p l).bgs = s.bgs := rfl
@[simp] theorem takeCommand_fb (s : State) (p : Presented) (l : List Presented) : (takeCommand s p l).fb = s.fb := rfl
@[simp] theorem takeCommand_flt (s : State) (p : Presented) (l : List Presented) : (takeCommand s p l).flt = s.flt := rfl
@[simp] theorem takeCommand_cpu (s : State) (p : Presented) (l : List Presented) : (takeCommand s p l).cpu = p.sideband.getD s.cpu := rfl
@[simp] theorem takeCommand_port (s : State) (p : Presented) (l : List Presented) : (takeCommand s p l).port = l := rfl
@[simp] theorem takeCommand_rsp (s : State) (p : Presented) (l : List Presented) : (takeCommand s p l).rsp = s.rsp := rfl

/-! Presenting a command word. -/

@[simp] theorem presentWord_cfg (s : State) (w : Cmd) : (presentWord s w).cfg = s.cfg := rfl
@[simp] theorem presentWord_rom (s : State) (w : Cmd) : (presentWord s w).rom = s.rom := rfl
@[simp] theorem presentWord_bios (s : State) (w : Cmd) : (presentWord s w).bios = s.bios := rfl
@[simp] theorem presentWord_ewram (s : State) (w : Cmd) : (presentWord s w).ewram = s.ewram := rfl
@[simp] theorem presentWord_iwram (s : State) (w : Cmd) : (presentWord s w).iwram = s.iwram := rfl
@[simp] theorem presentWord_pal (s : State) (w : Cmd) : (presentWord s w).pal = s.pal := rfl
@[simp] theorem presentWord_vram (s : State) (w : Cmd) : (presentWord s w).vram = s.vram := rfl
@[simp] theorem presentWord_oam (s : State) (w : Cmd) : (presentWord s w).oam = s.oam := rfl
@[simp] theorem presentWord_io (s : State) (w : Cmd) : (presentWord s w).io = s.io := rfl
@[simp] theorem presentWord_ime (s : State) (w : Cmd) : (presentWord s w).ime = s.ime := rfl
@[simp] theorem presentWord_bgs (s : State) (w : Cmd) : (presentWord s w).bgs = s.bgs := rfl
@[simp] theorem presentWord_fb (s : State) (w : Cmd) : (presentWord s w).fb = s.fb := rfl
@[simp] theorem presentWord_flt (s : State) (w : Cmd) : (presentWord s w).flt = s.flt := rfl
@[simp] theorem presentWord_cpu (s : State) (w : Cmd) : (presentWord s w).cpu = s.cpu := rfl
@[simp] theorem presentWord_port (s : State) (w : Cmd) : (presentWord s w).port = ⟨w, none⟩ :: s.port := rfl
@[simp] theorem presentWord_rsp (s : State) (w : Cmd) : (presentWord s w).rsp = s.rsp := rfl

/-! `Recache` (42_bgcnt_tilemap R169). -/

@[simp] theorem recache_cfg (s : State) (k : BgIndex) : (recache s k).cfg = s.cfg := rfl
@[simp] theorem recache_rom (s : State) (k : BgIndex) : (recache s k).rom = s.rom := rfl
@[simp] theorem recache_bios (s : State) (k : BgIndex) : (recache s k).bios = s.bios := rfl
@[simp] theorem recache_ewram (s : State) (k : BgIndex) : (recache s k).ewram = s.ewram := rfl
@[simp] theorem recache_iwram (s : State) (k : BgIndex) : (recache s k).iwram = s.iwram := rfl
@[simp] theorem recache_pal (s : State) (k : BgIndex) : (recache s k).pal = s.pal := rfl
@[simp] theorem recache_vram (s : State) (k : BgIndex) : (recache s k).vram = s.vram := rfl
@[simp] theorem recache_oam (s : State) (k : BgIndex) : (recache s k).oam = s.oam := rfl
@[simp] theorem recache_io (s : State) (k : BgIndex) : (recache s k).io = s.io := rfl
@[simp] theorem recache_ime (s : State) (k : BgIndex) : (recache s k).ime = s.ime := rfl
@[simp] theorem recache_bgs (s : State) (k : BgIndex) : (recache s k).bgs = s.bgs.set k { s.bgs[k] with tdb := tileDataBase (bgcnt s k), pal256 := paletteMode (bgcnt s k) } := rfl
@[simp] theorem recache_fb (s : State) (k : BgIndex) : (recache s k).fb = s.fb := rfl
@[simp] theorem recache_flt (s : State) (k : BgIndex) : (recache s k).flt = s.flt := rfl
@[simp] theorem recache_cpu (s : State) (k : BgIndex) : (recache s k).cpu = s.cpu := rfl
@[simp] theorem recache_port (s : State) (k : BgIndex) : (recache s k).port = s.port := rfl
@[simp] theorem recache_rsp (s : State) (k : BgIndex) : (recache s k).rsp = s.rsp := rfl

/-! The tile-map reset (10_state R36). -/

@[simp] theorem resetTileMap_cfg (s : State) (k : BgIndex) : (resetTileMap s k).cfg = s.cfg := rfl
@[simp] theorem resetTileMap_rom (s : State) (k : BgIndex) : (resetTileMap s k).rom = s.rom := rfl
@[simp] theorem resetTileMap_bios (s : State) (k : BgIndex) : (resetTileMap s k).bios = s.bios := rfl
@[simp] theorem resetTileMap_ewram (s : State) (k : BgIndex) : (resetTileMap s k).ewram = s.ewram := rfl
@[simp] theorem resetTileMap_iwram (s : State) (k : BgIndex) : (resetTileMap s k).iwram = s.iwram := rfl
@[simp] theorem resetTileMap_pal (s : State) (k : BgIndex) : (resetTileMap s k).pal = s.pal := rfl
@[simp] theorem resetTileMap_vram (s : State) (k : BgIndex) : (resetTileMap s k).vram = s.vram := rfl
@[simp] theorem resetTileMap_oam (s : State) (k : BgIndex) : (resetTileMap s k).oam = s.oam := rfl
@[simp] theorem resetTileMap_io (s : State) (k : BgIndex) : (resetTileMap s k).io = s.io := rfl
@[simp] theorem resetTileMap_ime (s : State) (k : BgIndex) : (resetTileMap s k).ime = s.ime := rfl
@[simp] theorem resetTileMap_bgs (s : State) (k : BgIndex) : (resetTileMap s k).bgs = s.bgs.set k { s.bgs[k] with tmValid := false } := rfl
@[simp] theorem resetTileMap_fb (s : State) (k : BgIndex) : (resetTileMap s k).fb = s.fb := rfl
@[simp] theorem resetTileMap_flt (s : State) (k : BgIndex) : (resetTileMap s k).flt = s.flt := rfl
@[simp] theorem resetTileMap_cpu (s : State) (k : BgIndex) : (resetTileMap s k).cpu = s.cpu := rfl
@[simp] theorem resetTileMap_port (s : State) (k : BgIndex) : (resetTileMap s k).port = s.port := rfl
@[simp] theorem resetTileMap_rsp (s : State) (k : BgIndex) : (resetTileMap s k).rsp = s.rsp := rfl

/-! The byte stored at an offset of a region depends on the images and arrays alone. -/

@[simp] theorem byteAt_complete (s : State) (d : Word) : byteAt (complete s d) = byteAt s := rfl
@[simp] theorem byteAt_raiseFault (s : State) (op : Byte) (f : BlockFault) : byteAt (raiseFault s op f) = byteAt s := rfl
@[simp] theorem byteAt_modifyBg (s : State) (k : BgIndex) (g : Background → Background) :
    byteAt (modifyBg s k g) = byteAt s := rfl
@[simp] theorem byteAt_takeIrq (s : State) : byteAt (takeIrq s) = byteAt s := rfl
@[simp] theorem byteAt_takeCommand (s : State) (p : Presented) (l : List Presented) :
    byteAt (takeCommand s p l) = byteAt s := rfl
@[simp] theorem byteAt_recache (s : State) (k : BgIndex) : byteAt (recache s k) = byteAt s := rfl
@[simp] theorem byteAt_resetTileMap (s : State) (k : BgIndex) : byteAt (resetTileMap s k) = byteAt s := rfl

/-! The control registers are views of the I/O bytes. -/

@[simp] theorem bgcnt_complete (s : State) (d : Word) : bgcnt (complete s d) = bgcnt s := rfl
@[simp] theorem bgcnt_modifyBg (s : State) (k : BgIndex) (g : Background → Background) :
    bgcnt (modifyBg s k g) = bgcnt s := rfl
@[simp] theorem bgcnt_recache (s : State) (k : BgIndex) : bgcnt (recache s k) = bgcnt s := rfl
@[simp] theorem bgcnt_resetTileMap (s : State) (k : BgIndex) : bgcnt (resetTileMap s k) = bgcnt s := rfl

/-- Changing a background twice is changing it once by both changes. -/
theorem modifyBg_modifyBg (s : State) (k : BgIndex) (f g : Background → Background) :
    modifyBg (modifyBg s k f) k g = modifyBg s k (fun b => g (f b)) := by
  simp [modifyBg]

/-- Changing a background by a function that leaves it as it is changes nothing. -/
theorem modifyBg_same (s : State) (k : BgIndex) (f : Background → Background) (h : f s.bgs[k] = s.bgs[k]) :
    modifyBg s k f = s := by
  have h' : f s.bgs[k.val] = s.bgs[k.val] := h
  simp [modifyBg, h']

/-- The background at an index after a change at another. -/
theorem bgs_set_get (l : Vector Background 4) (j k : BgIndex) (b : Background) :
    (l.set k b)[j] = if j = k then b else l[j] := by
  by_cases h : j = k
  · subst h; simp
  · have : (k : Nat) ≠ j := fun e => h (Fin.ext e.symm)
    simp [h, this]

theorem modifyBg_get (s : State) (j k : BgIndex) (f : Background → Background) :
    (modifyBg s k f).bgs[j] = if j = k then f s.bgs[k] else s.bgs[j] :=
  bgs_set_get _ _ _ _

end Sys2Proof.Machine
end

