-- ==== Sys2Proof/Laws/Ops.lean ====
section
/-! SUPPORT. One lemma for each shared operation that says everything it can do; later proofs cite these instead of
unfolding the operation. -/

namespace Sys2Proof.Machine

/-! ## The end of a command -/

/-- A reading command that answers a next state completes with its value or delivers its fault. -/
theorem finishRead_next {s t : State} {op : Byte} {e : Except BlockFault Word} (h : finishRead s op e = .next t) :
    (∃ v, e = .ok v ∧ t = complete s v) ∨ (∃ f, e = .error f ∧ t = raiseFault s op f) := by
  cases e with
  | ok v => exact .inl ⟨v, rfl, by simpa [finishRead] using h.symm⟩
  | error f => exact .inr ⟨f, rfl, by simpa [finishRead] using h.symm⟩

/-- A writing command that answers a next state completes in the new state or delivers its fault in the old one. -/
theorem finishWrite_next {s t : State} {op : Byte} {e : Except BlockFault State} (h : finishWrite s op e = .next t) :
    (∃ u, e = .ok u ∧ t = complete u 0) ∨ (∃ f, e = .error f ∧ t = raiseFault s op f) := by
  cases e with
  | ok u => exact .inl ⟨u, rfl, by simpa [finishWrite] using h.symm⟩
  | error f => exact .inr ⟨f, rfl, by simpa [finishWrite] using h.symm⟩

/-- No fault has the code of completion (60_exceptions R230). -/
theorem faultCode_ne_zero (f : BlockFault) : faultCode f ≠ 0 := by
  cases f <;> simp [faultCode]

/-! ## The I/O write -/

/-- What `IoWrite8` can do: nothing, a clearing store, one of the two mutators, a plain store (20_memory R69). -/
theorem ioWrite8_cases (s : State) (o : Nat) (v : Byte) :
    (o = 0x208 ∧ ioWrite8 s o v = s) ∨
    (o ≠ 0x208 ∧ (o = s.cfg.ifOfs ∨ o = s.cfg.ifOfs + 1) ∧ ioWrite8 s o v = setIo s o (cellsRead s.io o &&& ~~~v)) ∨
    (o ≠ 0x208 ∧ o ≠ s.cfg.ifOfs ∧ o ≠ s.cfg.ifOfs + 1 ∧
      ((∃ k : BgIndex, o = s.cfg.bgcntOfs[k] ∧ bgOfByte0 s.cfg o = some k ∧ ioWrite8 s o v = bgcntWriteByte0 s k v) ∨
       (bgOfByte0 s.cfg o = none ∧ ∃ k : BgIndex, o = s.cfg.bgcntOfs[k] + 1 ∧ bgOfByte1 s.cfg o = some k ∧
          ioWrite8 s o v = bgcntWriteByte1 s k v) ∨
       (bgOfByte0 s.cfg o = none ∧ bgOfByte1 s.cfg o = none ∧ ioWrite8 s o v = setIo s o v))) := by
  unfold ioWrite8
  split
  · next h => exact .inl ⟨h, rfl⟩
  · next h =>
    split
    · next h1 => exact .inr (.inl ⟨h, h1, rfl⟩)
    · next h1 =>
      rw [not_or] at h1
      refine .inr (.inr ⟨h, h1.1, h1.2, ?_⟩)
      split
      · next k hk =>
        refine .inl ⟨k, ?_, hk, rfl⟩
        have := List.find?_some hk
        simpa using this
      · next h0 =>
        split
        · next k hk =>
          refine .inr (.inl ⟨h0, k, ?_, hk, rfl⟩)
          have := List.find?_some hk
          simpa using this
        · next h2 => exact .inr (.inr ⟨h0, h2, rfl⟩)

/-- A control byte 1 write stores the byte and changes the background's cached parameters alone. -/
theorem bgcntWriteByte1_eq (s : State) (k : BgIndex) (v : Byte) :
    bgcntWriteByte1 s k v =
      modifyBg (setIo s (s.cfg.bgcntOfs[k] + 1) v) k fun b =>
        { b with
          tdb := tileDataBase (bgcnt (setIo s (s.cfg.bgcntOfs[k] + 1) v) k)
          pal256 := paletteMode (bgcnt (setIo s (s.cfg.bgcntOfs[k] + 1) v) k)
          tmValid := b.tmValid &&
            decide (tileMapBase (bgcnt s k) = tileMapBase (bgcnt (setIo s (s.cfg.bgcntOfs[k] + 1) v) k)) } := by
  unfold bgcntWriteByte1
  generalize setIo s (s.cfg.bgcntOfs[k] + 1) v = t
  by_cases h : tileMapBase (bgcnt s k) = tileMapBase (bgcnt t k)
  · simp only [h, if_true, decide_true, Bool.and_true]
    rfl
  · simp only [h, if_false, decide_false, Bool.and_false]
    rw [recache, resetTileMap, modifyBg_modifyBg]
    rfl

/-- A control byte 0 write stores the byte and changes the background's cached parameters alone. -/
theorem bgcntWriteByte0_eq (s : State) (k : BgIndex) (v : Byte) :
    bgcntWriteByte0 s k v =
      modifyBg (setIo s s.cfg.bgcntOfs[k] v) k fun b =>
        { b with
          tdb := tileDataBase (bgcnt (setIo s s.cfg.bgcntOfs[k] v) k)
          pal256 := paletteMode (bgcnt (setIo s s.cfg.bgcntOfs[k] v) k) } := rfl

/-- Everything an I/O write can change: one I/O byte, and the render cache and cached-geometry bit of backgrounds. -/
theorem ioWrite8_shape (s : State) (o : Nat) (v : Byte) :
    ∃ io bgs, ioWrite8 s o v = { s with io := io, bgs := bgs } ∧
      (∀ o', o' ≠ o → cellsRead io o' = cellsRead s.io o') ∧
      (∀ k : BgIndex, bgs[k].scrollX = s.bgs[k].scrollX ∧ bgs[k].scrollY = s.bgs[k].scrollY ∧
        bgs[k].affine = s.bgs[k].affine ∧ bgs[k].tmBase = s.bgs[k].tmBase ∧
        (o ≠ s.cfg.bgcntOfs[k] → o ≠ s.cfg.bgcntOfs[k] + 1 → bgs[k] = s.bgs[k])) := by
  have other : ∀ (w : Byte) (o' : Nat), o' ≠ o → cellsRead (cellsWrite s.io o w) o' = cellsRead s.io o' :=
    fun w o' h => cellsRead_write_other (Ne.symm h) _ _
  rcases ioWrite8_cases s o v with ⟨-, h⟩ | ⟨-, -, h⟩ | ⟨-, -, -, ⟨k, rfl, -, h⟩ | ⟨-, k, rfl, -, h⟩ | ⟨-, -, h⟩⟩
  · exact ⟨s.io, s.bgs, by simp [h], fun _ _ => rfl, fun k => ⟨rfl, rfl, rfl, rfl, fun _ _ => rfl⟩⟩
  · exact ⟨_, s.bgs, h, other _, fun k => ⟨rfl, rfl, rfl, rfl, fun _ _ => rfl⟩⟩
  · refine ⟨_, _, h, other _, fun j => ?_⟩
    simp only [bgs_set_get]
    by_cases hj : j = k
    · subst hj
      exact ⟨by simp, by simp, by simp, by simp, fun h1 => absurd rfl h1⟩
    · simp [hj]
  · rw [bgcntWriteByte1_eq] at h
    refine ⟨_, _, h, other _, fun j => ?_⟩
    simp only [bgs_set_get]
    by_cases hj : j = k
    · subst hj
      exact ⟨by simp, by simp, by simp, by simp, fun _ h1 => absurd rfl h1⟩
    · simp [hj]
  · exact ⟨_, s.bgs, h, other _, fun k => ⟨rfl, rfl, rfl, rfl, fun _ _ => rfl⟩⟩

/-! ## The frame of a bus write -/

/-- What no bus write changes, whatever it addresses. -/
structure BusFrame (s t : State) : Prop where
  cfg  : t.cfg = s.cfg
  rom  : t.rom = s.rom
  bios : t.bios = s.bios
  ime  : t.ime = s.ime
  fb   : t.fb = s.fb
  flt  : t.flt = s.flt
  cpu  : t.cpu = s.cpu
  port : t.port = s.port
  rsp  : t.rsp = s.rsp
  bgs  : ∀ k : BgIndex, t.bgs[k].scrollX = s.bgs[k].scrollX ∧ t.bgs[k].scrollY = s.bgs[k].scrollY ∧
    t.bgs[k].affine = s.bgs[k].affine ∧ t.bgs[k].tmBase = s.bgs[k].tmBase

theorem BusFrame.refl (s : State) : BusFrame s s :=
  ⟨rfl, rfl, rfl, rfl, rfl, rfl, rfl, rfl, rfl, fun _ => ⟨rfl, rfl, rfl, rfl⟩⟩

theorem BusFrame.trans {s t u : State} (h : BusFrame s t) (g : BusFrame t u) : BusFrame s u where
  cfg  := g.cfg.trans h.cfg
  rom  := g.rom.trans h.rom
  bios := g.bios.trans h.bios
  ime  := g.ime.trans h.ime
  fb   := g.fb.trans h.fb
  flt  := g.flt.trans h.flt
  cpu  := g.cpu.trans h.cpu
  port := g.port.trans h.port
  rsp  := g.rsp.trans h.rsp
  bgs  := fun k =>
    let ⟨a, b, c, d⟩ := g.bgs k
    let ⟨a', b', c', d'⟩ := h.bgs k
    ⟨a.trans a', b.trans b', c.trans c', d.trans d'⟩

theorem ioWrite8_frame (s : State) (o : Nat) (v : Byte) : BusFrame s (ioWrite8 s o v) := by
  obtain ⟨io, bgs, h, -, hb⟩ := ioWrite8_shape s o v
  rw [h]
  exact ⟨rfl, rfl, rfl, rfl, rfl, rfl, rfl, rfl, rfl, fun k => ⟨(hb k).1, (hb k).2.1, (hb k).2.2.1, (hb k).2.2.2.1⟩⟩

theorem storeByte_frame (s : State) (r : Region) (o : Nat) (v : Byte) : BusFrame s (storeByte s r o v) := by
  cases r with
  | io => exact ioWrite8_frame s o v
  | _ => exact ⟨rfl, rfl, rfl, rfl, rfl, rfl, rfl, rfl, rfl, fun _ => ⟨rfl, rfl, rfl, rfl⟩⟩

theorem busWrite8_frame (s : State) (a : Word) (v : Byte) : BusFrame s (busWrite8 s a v) := by
  unfold busWrite8
  split
  · exact BusFrame.refl s
  · exact storeByte_frame _ _ _ _

theorem writeBytes_frame (s : State) (a : Word) (bs : List Byte) : BusFrame s (writeBytes s a bs) := by
  induction bs generalizing s a with
  | nil => exact BusFrame.refl s
  | cons b bs ih => exact (busWrite8_frame s a b).trans (ih _ _)

/-- A store changes the byte it is directed to alone. -/
theorem storeByte_byteAt (s : State) (r r' : Region) (o o' : Nat) (v : Byte) (h : (r', o') ≠ (r, o)) :
    byteAt (storeByte s r o v) r' o' = byteAt s r' o' := by
  have ne : r' = r → o ≠ o' := fun hr ho => h (by rw [hr, ho])
  cases r with
  | io =>
    obtain ⟨io, bgs, he, hio, -⟩ := ioWrite8_shape s o v
    simp only [storeByte, he]
    cases r' <;> first | rfl | exact hio o' (fun e => ne rfl e.symm)
  | rom => rfl
  | _ =>
    cases r' <;> first | rfl | exact cellsRead_write_other (ne rfl) _ _

theorem busWrite8_byteAt (s : State) (a : Word) (v : Byte) (r : Region) (o : Nat) (h : route a ≠ some (r, o)) :
    byteAt (busWrite8 s a v) r o = byteAt s r o := by
  unfold busWrite8
  cases hr : route a with
  | none => rfl
  | some p =>
    obtain ⟨r', o'⟩ := p
    refine storeByte_byteAt _ _ _ _ _ _ fun e => h ?_
    rw [hr, e]

/-- A store changes a background only through its control bytes. -/
theorem busWrite8_bg (s : State) (a : Word) (v : Byte) (k : BgIndex) (h0 : route a ≠ some (.io, s.cfg.bgcntOfs[k]))
    (h1 : route a ≠ some (.io, s.cfg.bgcntOfs[k] + 1)) : (busWrite8 s a v).bgs[k] = s.bgs[k] := by
  unfold busWrite8
  cases hr : route a with
  | none => rfl
  | some p =>
    obtain ⟨r, o⟩ := p
    rw [hr] at h0 h1
    cases r with
    | io =>
      obtain ⟨io, bgs, he, -, hb⟩ := ioWrite8_shape s o v
      simp only [storeByte, he]
      exact (hb k).2.2.2.2 (fun e => h0 (by rw [e])) (fun e => h1 (by rw [e]))
    | _ => rfl

/-! ## Reading and writing several bytes -/

/-- A passed check answers where the address is routed. -/
theorem check_ok {s : State} {a : Word} {w : Bool} {p : Region × Nat} (h : check s a w = .ok p) : route a = some p := by
  unfold check at h
  split at h
  · cases h
  · next r o hr =>
    split at h
    · cases h; exact hr
    · cases h

/-- A check that fails names BadAddress or UnimplementedRegion. -/
theorem check_error {s : State} {a : Word} {w : Bool} {f : BlockFault} (h : check s a w = .error f) :
    f = .badAddress a ∨ f = .unimplementedRegion a := by
  unfold check at h
  split at h
  · cases h; exact .inl rfl
  · split at h
    · cases h
    · cases h; exact .inr rfl

/-- A check looks at the parameters and the length of the ROM image alone. -/
theorem check_congr {s t : State} (hc : t.cfg = s.cfg) (hr : t.rom = s.rom) : check t = check s := by
  have hb : backed t = backed s := by
    funext r o w
    simp only [backed, hc, hr]
  funext a w
  simp only [check, hb]

theorem busRead8_error {s : State} {a : Word} {f : BlockFault} (h : busRead8 s a = .error f) :
    f = .badAddress a ∨ f = .unimplementedRegion a := by
  unfold busRead8 at h
  split at h
  · next hf => cases h; exact check_error hf
  · cases h

/-- A read looks at the parameters, the ROM image and the arrays alone. -/
theorem busRead8_congr {s t : State} (hc : t.cfg = s.cfg) (hr : t.rom = s.rom) (hb : byteAt t = byteAt s) :
    busRead8 t = busRead8 s := by
  funext a
  unfold busRead8
  rw [check_congr hc hr]
  cases check s a false with
  | error f => rfl
  | ok p =>
    obtain ⟨r, o⟩ := p
    have := congrFun (congrFun hb r) o
    cases r with
    | io =>
      have h' : cellsRead t.io o = cellsRead s.io o := this
      simp only [loadByte, ioRead8, h']
    | _ => exact congrArg Except.ok this

theorem readBytes_congr {s t : State} (h : busRead8 t = busRead8 s) : readBytes t = readBytes s := by
  funext a n
  induction n generalizing a with
  | zero => rfl
  | succ n ih => simp only [readBytes, h, ih]

theorem memRead_congr {s t : State} (h : busRead8 t = busRead8 s) : memRead t = memRead s := by
  funext a n
  simp only [memRead, readBytes_congr h]

theorem memRead_error {s : State} {a : Word} {n : Nat} {f : BlockFault} (h : memRead s a n = .error f) :
    ∃ b, f = .badAddress b ∨ f = .unimplementedRegion b := by
  unfold memRead at h
  split at h
  · next g hg =>
    cases h
    induction n generalizing a with
    | zero => cases hg
    | succ n ih =>
      unfold readBytes at hg
      split at hg
      · next hb => cases hg; exact ⟨a, busRead8_error hb⟩
      · split at hg
        · next hr => cases hg; exact ih hr
        · cases hg
  · cases h

theorem checkBytes_ok {s : State} {w : Bool} {a : Word} {n : Nat} (h : checkBytes s w a n = .ok ()) :
    ∀ i < n, ∃ p, check s (a + BitVec.ofNat 32 i) w = .ok p := by
  induction n generalizing a with
  | zero => intro i hi; omega
  | succ n ih =>
    unfold checkBytes at h
    split at h
    · cases h
    · next p hp =>
      intro i hi
      cases i with
      | zero => exact ⟨p, by simpa using hp⟩
      | succ i =>
        have := ih h i (by omega)
        rwa [BitVec.add_assoc, show (1 : Word) + BitVec.ofNat 32 i = BitVec.ofNat 32 (i + 1) by
          rw [Nat.add_comm, BitVec.ofNat_add]; rfl] at this

theorem checkBytes_error {s : State} {w : Bool} {a : Word} {n : Nat} {f : BlockFault}
    (h : checkBytes s w a n = .error f) : ∃ b, f = .badAddress b ∨ f = .unimplementedRegion b := by
  induction n generalizing a with
  | zero => cases h
  | succ n ih =>
    unfold checkBytes at h
    split at h
    · next hc => cases h; exact ⟨a, check_error hc⟩
    · exact ih h

/-- A passed `MemWrite` stores the bytes of the value at addresses that all pass the check. -/
theorem memWrite_ok {s t : State} {a : Word} {n : Nat} {v : Word} (h : memWrite s a n v = .ok t) :
    checkBytes s true a n = .ok () ∧ t = writeBytes s a (bytesLE v n) := by
  unfold memWrite at h
  split at h
  · cases h
  · next hc => cases h; exact ⟨hc, rfl⟩

theorem memWrite_error {s : State} {a : Word} {n : Nat} {v : Word} {f : BlockFault} (h : memWrite s a n v = .error f) :
    ∃ b, f = .badAddress b ∨ f = .unimplementedRegion b := by
  unfold memWrite at h
  split at h
  · next hc => cases h; exact checkBytes_error hc
  · cases h

/-- A leaf read can only fault BadAddress (40_bus_plain R138). -/
theorem biosRead_error {s : State} {ofs : Word} {n : Nat} {f : BlockFault} (h : biosRead s ofs n = .error f) :
    ∃ b, f = .badAddress b := by
  unfold biosRead at h
  split at h
  · next g hg =>
    cases h
    generalize ofs.toNat = o at hg
    induction n generalizing o with
    | zero => cases hg
    | succ n ih =>
      unfold biosBytes at hg
      split at hg
      · cases hg; exact ⟨_, rfl⟩
      · split at hg
        · next hr => cases hg; exact ih _ hr
        · cases hg
  · cases h

/-! ## Lookups and rendering -/

/-- Getting the tile-map base caches it and changes nothing else (42_bgcnt_tilemap R172). -/
theorem tmBaseGet_eq (s : State) (k : BgIndex) :
    tmBaseGet s k = modifyBg s k fun b => { b with tmBase := tmBaseOf s k, tmValid := true } := by
  unfold tmBaseGet tmBaseOf
  split
  · next h =>
    rw [modifyBg_same]
    have h' : s.bgs[k].tmValid = true := h
    rw [← h']
  · rfl

/-- A checked load can only fault as its bus reads do (41_bus_checked R152). -/
theorem checkedLoad_error {s : State} {a : Word} {f : BlockFault} (h : checkedLoad s a = .error f) :
    ∃ b, f = .badAddress b ∨ f = .unimplementedRegion b := by
  unfold checkedLoad at h
  split at h
  · split at h
    · cases h
    · next hm => cases h; exact memRead_error hm
  · split at h
    · split at h
      · exact memRead_error h
      · split at h
        · cases h
        · next hm => cases h; exact memRead_error hm
    · split at h
      · split at h
        · cases h
        · next hm => cases h; exact memRead_error hm
      · exact memRead_error h

theorem pixelColor_error {s : State} {k : BgIndex} {line x : Nat} {f : BlockFault}
    (h : pixelColor s k line x = .error f) : ∃ o, f = .renderOutOfRange o := by
  unfold pixelColor at h
  simp only [] at h
  split at h
  · split at h
    · cases h
    · next hp =>
      cases h
      unfold pixel8 at hp
      simp only [] at hp
      split at hp
      · cases hp; exact ⟨_, rfl⟩
      · cases hp
  · cases h

/-- The colours of a row, one by one. -/
theorem rowColors_ok {s : State} {k : BgIndex} {line : Nat} {x n : Nat} {cs : List Half}
    (h : rowColors s k line x n = .ok cs) :
    cs.length = n ∧ ∀ i < n, pixelColor s k line (x + i) = .ok (cs.getD i 0) := by
  induction n generalizing x cs with
  | zero => cases h; exact ⟨rfl, fun i hi => by omega⟩
  | succ n ih =>
    unfold rowColors at h
    split at h
    · cases h
    · next c hc =>
      split at h
      · cases h
      · next cs' hcs =>
        cases h
        obtain ⟨hl, hp⟩ := ih hcs
        refine ⟨by simp [hl], fun i hi => ?_⟩
        cases i with
        | zero => simpa using hc
        | succ i =>
          have := hp i (by omega)
          rw [show x + (i + 1) = x + 1 + i by omega, this]
          simp

theorem rowColors_error {s : State} {k : BgIndex} {line x n : Nat} {f : BlockFault}
    (h : rowColors s k line x n = .error f) : ∃ o, f = .renderOutOfRange o := by
  induction n generalizing x with
  | zero => cases h
  | succ n ih =>
    unfold rowColors at h
    split at h
    · next hc => cases h; exact pixelColor_error hc
    · split at h
      · next hr => cases h; exact ih hr
      · cases h

/-- The pixels written are those of the list, from the index on. -/
theorem writePixels_read (fb : FrameBuffer) (i j : Nat) (cs : List Half) :
    cellsRead (writePixels fb i cs) j = if i ≤ j ∧ j < i + cs.length then cs.getD (j - i) 0 else cellsRead fb j := by
  induction cs generalizing fb i with
  | nil =>
    rw [writePixels, if_neg]
    simp
  | cons c cs ih =>
    rw [writePixels, ih, cellsRead_write]
    simp only [List.length_cons]
    rcases Nat.lt_trichotomy j i with h | h | h
    · rw [if_neg (by omega), if_neg (by omega), if_neg (by omega)]
    · subst h
      simp
    · by_cases hl : j < i + (cs.length + 1)
      · rw [if_pos (by omega), if_pos (by omega), show j - i = j - (i + 1) + 1 by omega]
        simp
      · rw [if_neg (by omega), if_neg (by omega), if_neg (by omega)]

theorem writePixels_wf {fb : FrameBuffer} (h : cellsWf fb = true) (i : Nat) (cs : List Half) :
    cellsWf (writePixels fb i cs) = true := by
  induction cs generalizing fb i with
  | nil => exact h
  | cons c cs ih => exact ih (cellsWf_write h i c) (i + 1)

theorem writePixels_below {n : Nat} {fb : FrameBuffer} (h : cellsBelow n fb = true) (i : Nat) (cs : List Half)
    (hi : i + cs.length ≤ n) : cellsBelow n (writePixels fb i cs) = true := by
  induction cs generalizing fb i with
  | nil => exact h
  | cons c cs ih =>
    simp only [List.length_cons] at hi
    exact ih (cellsBelow_write h (by omega) c) (i + 1) (by omega)

/-- A row that is rendered is written into the framebuffer with the base cached; nothing else changes. -/
theorem renderRow_ok {s t : State} {bg : BgIndex} {line : Nat} (h : renderRow s bg line = .ok t) :
    ∃ row, rowColors (tmBaseGet s bg) bg line 0 screenW = .ok row ∧
      t = { tmBaseGet s bg with fb := writePixels s.fb (line * screenW) row } := by
  unfold renderRow at h
  simp only [] at h
  split at h
  · cases h
  · next row hr =>
    cases h
    refine ⟨row, hr, ?_⟩
    rw [tmBaseGet_eq]
    rfl

theorem renderRow_error {s : State} {bg : BgIndex} {line : Nat} {f : BlockFault} (h : renderRow s bg line = .error f) :
    ∃ o, f = .renderOutOfRange o := by
  unfold renderRow at h
  simp only [] at h
  split at h
  · next hr => cases h; exact rowColors_error hr
  · cases h

end Sys2Proof.Machine
end

