-- ==== Sys2Proof/Laws/Access.lean ====
section
/-! SUPPORT. What accesses of one, two and four bytes do, in terms of the single-byte operations: composition, the
lowest failing byte and its report, alignment, and the frame a response leaves (spec/20_memory.md R66, R67, R70, R84). -/

namespace Sys2Proof.Machine

/-! ## Addresses -/

theorem add_ofNat_succ (a : Word) (n : Nat) : a + BitVec.ofNat 32 (n + 1) = a + 1 + BitVec.ofNat 32 n := by
  rw [BitVec.add_assoc, show (1 : Word) + BitVec.ofNat 32 n = BitVec.ofNat 32 (n + 1) by
    rw [Nat.add_comm, BitVec.ofNat_add]; rfl]

theorem add_one_one (a : Word) : a + 1 + 1 = a + 2 := by
  rw [BitVec.add_assoc]; rfl

theorem add_two_one (a : Word) : a + 2 + 1 = a + 3 := by
  rw [BitVec.add_assoc]; rfl

/-- Clearing the two low bits rounds down to a multiple of 4 (20_memory R84). -/
theorem alignDown_eq (a : Word) : alignDown a = BitVec.ofNat 32 (a.toNat / 4 * 4) := by
  have h3 : ∀ i, (0x3#32).getLsbD i = decide (i < 2) := fun i => by
    by_cases h : i < 2
    · interval_cases i <;> rfl
    · rw [BitVec.getLsbD_ofNat]
      simp only [h, decide_false, Bool.and_eq_false_iff]
      exact .inr (Nat.testBit_lt_two_pow (lt_of_lt_of_le (by norm_num : 3 < 2 ^ 2) (Nat.pow_le_pow_right (by omega) (by omega))))
  unfold alignDown
  ext i hi
  rw [← BitVec.getLsbD_eq_getElem, ← BitVec.getLsbD_eq_getElem,
    show a.toNat / 4 * 4 = (a.toNat >>> 2) <<< 2 by rw [Nat.shiftRight_eq_div_pow, Nat.shiftLeft_eq],
    BitVec.getLsbD_ofNat, Nat.testBit_shiftLeft, Nat.testBit_shiftRight, BitVec.getLsbD_and, BitVec.getLsbD_not, h3]
  by_cases h : i < 2
  · simp [h, hi]
  · simp [h, hi, show 2 + (i - 2) = i by omega, show 2 ≤ i by omega]; rfl

/-- The low two bits of an address are its remainder by 4. -/
theorem lowBits_eq (a : Word) : lowBits a = a.toNat % 4 := by
  simp [lowBits]

/-! ## Composition -/

theorem compose_append {n : Nat} (x : BitVec n) (b : Byte) :
    b.setWidth 32 ||| x.setWidth 32 <<< 8 = (x ++ b).setWidth 32 := by
  ext i hi
  rw [BitVec.getElem_or, BitVec.getElem_setWidth, BitVec.getElem_shiftLeft, BitVec.getElem_setWidth,
    BitVec.getElem_setWidth, BitVec.getLsbD_append]
  by_cases c : i < 8
  · simp [c]
  · rw [if_neg c, BitVec.getLsbD_of_ge b i (by omega)]
    simp [c]

theorem composeLE_one (b0 : Byte) : composeLE [b0] = b0.setWidth 32 := by
  simp [composeLE]

theorem composeLE_two (b0 b1 : Byte) : composeLE [b0, b1] = (b1 ++ b0).setWidth 32 := by
  rw [composeLE, composeLE_one]
  exact compose_append b1 b0

theorem composeLE_three (b0 b1 b2 : Byte) : composeLE [b0, b1, b2] = (b2 ++ b1 ++ b0).setWidth 32 := by
  rw [composeLE, composeLE_two]
  exact compose_append (b2 ++ b1) b0

theorem composeLE_four (b0 b1 b2 b3 : Byte) : composeLE [b0, b1, b2, b3] = b3 ++ b2 ++ b1 ++ b0 := by
  rw [composeLE, composeLE_three, compose_append (b3 ++ b2 ++ b1) b0]
  exact BitVec.setWidth_eq _

theorem bytesLE_one (v : Word) : bytesLE v 1 = [v.extractLsb' 0 8] := rfl

theorem bytesLE_two (v : Word) : bytesLE v 2 = [v.extractLsb' 0 8, v.extractLsb' 8 8] := rfl

theorem bytesLE_four (v : Word) :
    bytesLE v 4 = [v.extractLsb' 0 8, v.extractLsb' 8 8, v.extractLsb' 16 8, v.extractLsb' 24 8] := rfl

/-- A byte of a value shifted right by whole bytes is a higher byte of the value. -/
theorem extract_shift (v : Word) (n k : Nat) : (v >>> n).extractLsb' k 8 = v.extractLsb' (n + k) 8 := by
  ext i hi
  simp [BitVec.getElem_extractLsb', Nat.add_assoc]

/-! ## Reads -/

theorem memRead_one {s : State} {a : Word} {b0 : Byte} (h0 : busRead8 s a = .ok b0) :
    memRead s a 1 = .ok (b0.setWidth 32) := by
  simp only [memRead, readBytes, h0, composeLE_one]

theorem memRead_two {s : State} {a : Word} {b0 b1 : Byte} (h0 : busRead8 s a = .ok b0)
    (h1 : busRead8 s (a + 1) = .ok b1) : memRead s a 2 = .ok ((b1 ++ b0).setWidth 32) := by
  simp only [memRead, readBytes, h0, h1, composeLE_two]

theorem memRead_four {s : State} {a : Word} {b0 b1 b2 b3 : Byte} (h0 : busRead8 s a = .ok b0)
    (h1 : busRead8 s (a + 1) = .ok b1) (h2 : busRead8 s (a + 2) = .ok b2) (h3 : busRead8 s (a + 3) = .ok b3) :
    memRead s a 4 = .ok (b3 ++ b2 ++ b1 ++ b0) := by
  simp only [memRead, readBytes, h0, h1, h2, h3, add_one_one, add_two_one, composeLE_four]

/-- A read whose byte `n` is the lowest that fails answers that byte's fault (20_memory R66). -/
theorem memRead_lowest {s : State} {a : Word} {n m : Nat} {f : BlockFault} (hn : n < m)
    (h : ∀ j < n, readableAt s (a + BitVec.ofNat 32 j)) (hf : busRead8 s (a + BitVec.ofNat 32 n) = .error f) :
    memRead s a m = .error f := by
  suffices hr : readBytes s a m = .error f by rw [memRead, hr]
  induction n generalizing a m with
  | zero =>
    obtain ⟨m, rfl⟩ : ∃ k, m = k + 1 := ⟨m - 1, by omega⟩
    rw [readBytes, show busRead8 s a = .error f by simpa using hf]
  | succ n ih =>
    obtain ⟨m, rfl⟩ : ∃ k, m = k + 1 := ⟨m - 1, by omega⟩
    obtain ⟨p, hp⟩ := h 0 (by omega)
    rw [readBytes, show busRead8 s a = .ok p by simpa using hp]
    simp only []
    rw [ih (by omega) (fun j hj => by rw [← add_ofNat_succ]; exact h _ (by omega)) (by rw [← add_ofNat_succ]; exact hf)]

/-! ## Writes -/

theorem checkBytes_of_writable {s : State} {a : Word} {n : Nat} (h : ∀ j < n, writableAt s (a + BitVec.ofNat 32 j)) :
    checkBytes s true a n = .ok () := by
  induction n generalizing a with
  | zero => rfl
  | succ n ih =>
    obtain ⟨p, hp⟩ := h 0 (by omega)
    rw [checkBytes, show check s a true = .ok p by simpa using hp]
    exact ih fun j hj => by rw [← add_ofNat_succ]; exact h _ (by omega)

theorem checkBytes_one {s : State} {a : Word} (h0 : writableAt s a) : checkBytes s true a 1 = .ok () :=
  checkBytes_of_writable fun j hj => by
    obtain rfl : j = 0 := by omega
    simpa using h0

theorem checkBytes_two {s : State} {a : Word} (h0 : writableAt s a) (h1 : writableAt s (a + 1)) :
    checkBytes s true a 2 = .ok () :=
  checkBytes_of_writable fun j hj => by
    obtain rfl | rfl : j = 0 ∨ j = 1 := by omega
    · simpa using h0
    · simpa using h1

theorem checkBytes_four {s : State} {a : Word} (h0 : writableAt s a) (h1 : writableAt s (a + 1))
    (h2 : writableAt s (a + 2)) (h3 : writableAt s (a + 3)) : checkBytes s true a 4 = .ok () :=
  checkBytes_of_writable fun j hj => by
    obtain rfl | rfl | rfl | rfl : j = 0 ∨ j = 1 ∨ j = 2 ∨ j = 3 := by omega
    · simpa using h0
    · simpa using h1
    · simpa using h2
    · simpa using h3

/-- A write whose byte `n` is the lowest that fails answers that byte's fault (20_memory R67). -/
theorem memWrite_lowest {s : State} {a v : Word} {n m : Nat} {f : BlockFault} (hn : n < m)
    (h : ∀ j < n, writableAt s (a + BitVec.ofNat 32 j)) (hf : check s (a + BitVec.ofNat 32 n) true = .error f) :
    memWrite s a m v = .error f := by
  suffices hr : checkBytes s true a m = .error f by rw [memWrite, hr]
  induction n generalizing a m with
  | zero =>
    obtain ⟨m, rfl⟩ : ∃ k, m = k + 1 := ⟨m - 1, by omega⟩
    rw [checkBytes, show check s a true = .error f by simpa using hf]
  | succ n ih =>
    obtain ⟨m, rfl⟩ : ∃ k, m = k + 1 := ⟨m - 1, by omega⟩
    obtain ⟨p, hp⟩ := h 0 (by omega)
    rw [checkBytes, show check s a true = .ok p by simpa using hp]
    exact ih (by omega) (fun j hj => by rw [← add_ofNat_succ]; exact h _ (by omega)) (by rw [← add_ofNat_succ]; exact hf)

/-- What may be written is decided by the parameters and the ROM image alone. -/
theorem writableAt_congr {s t : State} (hc : t.cfg = s.cfg) (hr : t.rom = s.rom) : writableAt t = writableAt s := by
  funext a
  simp only [writableAt, check_congr hc hr]

/-- A bus write neither reads nor writes the response. -/
theorem busWrite8_complete (s : State) (a d : Word) (v : Byte) :
    busWrite8 (complete s d) a v = complete (busWrite8 s a v) d := by
  unfold busWrite8
  cases route a with
  | none => rfl
  | some p =>
    obtain ⟨r, o⟩ := p
    cases r with
    | io =>
      simp only [storeByte]
      rcases ioWrite8_cases s o v with ⟨h0, h⟩ | ⟨h0, h1, h⟩ | ⟨h0, h1, h2, ⟨k, rfl, h3, h⟩ | ⟨h3, k, rfl, h4, h⟩ | ⟨h3, h4, h⟩⟩
      all_goals rw [h]
      · simp [ioWrite8, h0]
      · simp only [ioWrite8, h0, complete_cfg, h1, if_true, if_false]; rfl
      · simp only [ioWrite8, h0, complete_cfg, h1, h2, or_self, h3, if_false]; rfl
      · simp only [ioWrite8, h0, complete_cfg, h1, h2, or_self, h3, h4, if_false, bgcntWriteByte1_eq]; rfl
      · simp only [ioWrite8, h0, complete_cfg, h1, h2, or_self, h3, h4, if_false]; rfl
    | _ => rfl

/-! ## The byte a fault reports (60_exceptions R230) -/

/-- A byte that fails a check fails with its own address. -/
theorem check_report {s : State} {a : Word} {w : Bool} {f : BlockFault} (h : check s a w = .error f) :
    (faultCode f = 0x01 ∧ check s (faultInfo f) w = .error (.badAddress (faultInfo f)) ∨
      faultCode f = 0x02 ∧ check s (faultInfo f) w = .error (.unimplementedRegion (faultInfo f))) ∧ faultInfo f = a := by
  rcases check_error h with rfl | rfl
  · exact ⟨.inl ⟨rfl, h⟩, rfl⟩
  · exact ⟨.inr ⟨rfl, h⟩, rfl⟩

theorem lowestFails_first {s : State} {w : Bool} {a : Word} {n : Nat} {f : BlockFault} (h : check s a w = .error f) :
    lowestFails s w a (n + 1) (faultCode f) (faultInfo f) :=
  ⟨0, by omega, by simpa using (check_report h).2, fun _ hl => by omega, (check_report h).1⟩

theorem lowestFails_later {s : State} {w : Bool} {a : Word} {n : Nat} {c : Byte} {info : Word} {p : Region × Nat}
    (h0 : check s a w = .ok p) (h : lowestFails s w (a + 1) n c info) : lowestFails s w a (n + 1) c info := by
  obtain ⟨j, hj, hi, hl, hc⟩ := h
  refine ⟨j + 1, by omega, by rw [add_ofNat_succ]; exact hi, fun l hlt => ?_, hc⟩
  cases l with
  | zero => exact ⟨p, by simpa using h0⟩
  | succ l => rw [add_ofNat_succ]; exact hl l (by omega)

/-- A failing read reports its lowest failing byte (20_memory R66). -/
theorem memRead_reports {s : State} {a : Word} {n : Nat} {f : BlockFault} (h : memRead s a n = .error f) :
    lowestFails s false a n (faultCode f) (faultInfo f) := by
  suffices hr : readBytes s a n = .error f by
    clear h
    induction n generalizing a with
    | zero => cases hr
    | succ n ih =>
      unfold readBytes busRead8 at hr
      cases hc : check s a false with
      | error g =>
        rw [hc] at hr
        cases hr
        exact lowestFails_first hc
      | ok p =>
        rw [hc] at hr
        refine lowestFails_later hc (ih ?_)
        cases hb : readBytes s (a + 1) n with
        | error g => rw [hb] at hr; exact hr
        | ok bs => rw [hb] at hr; cases hr
  unfold memRead at h
  cases hb : readBytes s a n with
  | error g => rw [hb] at h; cases h; rfl
  | ok bs => rw [hb] at h; cases h

/-- A failing write reports its lowest failing byte (20_memory R67). -/
theorem memWrite_reports {s : State} {a v : Word} {n : Nat} {f : BlockFault} (h : memWrite s a n v = .error f) :
    lowestFails s true a n (faultCode f) (faultInfo f) := by
  suffices hr : checkBytes s true a n = .error f by
    clear h
    induction n generalizing a with
    | zero => cases hr
    | succ n ih =>
      unfold checkBytes at hr
      cases hc : check s a true with
      | error g =>
        rw [hc] at hr
        cases hr
        exact lowestFails_first hc
      | ok p => rw [hc] at hr; exact lowestFails_later hc (ih hr)
  unfold memWrite at h
  cases hb : checkBytes s true a n with
  | error g => rw [hb] at h; cases h; rfl
  | ok bs => rw [hb] at h; cases h

/-- A failing leaf read reports the lowest offset outside the image, modulo 2^32 (40_bus_plain R138, log entry 11). -/
theorem biosRead_reports {s : State} {ofs : Word} {n : Nat} {f : BlockFault} (h : biosRead s ofs n = .error f) :
    f = .badAddress (BitVec.ofNat 32 (max ofs.toNat s.bios.length)) := by
  suffices hr : ∀ o, biosBytes s o n = .error f → f = .badAddress (BitVec.ofNat 32 (max o s.bios.length)) by
    unfold biosRead at h
    cases hb : biosBytes s ofs.toNat n with
    | error g => rw [hb] at h; cases h; exact hr _ hb
    | ok bs => rw [hb] at h; cases h
  clear h
  induction n with
  | zero => intro o h; cases h
  | succ n ih =>
    intro o h
    unfold biosBytes at h
    split at h
    · next hl => cases h; rw [Nat.max_eq_left hl]
    · next hl =>
      cases hb : biosBytes s (o + 1) n with
      | error g =>
        rw [hb] at h
        cases h
        rw [ih _ hb, Nat.max_eq_right (by omega), Nat.max_eq_right (by omega)]
      | ok bs => rw [hb] at h; cases h

/-- A failing checked load reports the lowest failing byte of what its case reads (41_bus_checked R152). -/
theorem checkedLoad_reports {s : State} {a : Word} {f : BlockFault} (h : checkedLoad s a = .error f) :
    lowestFails s false (checkedSource s a).1 (checkedSource s a).2 (faultCode f) (faultInfo f) := by
  unfold checkedLoad at h
  unfold checkedSource
  rw [lowBits_eq] at h
  split at h
  · next c =>
    rw [if_pos c]
    split at h
    · cases h
    · next hm => cases h; exact memRead_reports hm
  · next c =>
    rw [if_neg c]
    split at h
    · next c' =>
      rw [if_pos c']
      cases ht : s.cpu.cpsr.t with
      | arm => rw [ht] at h; exact memRead_reports h
      | thumb =>
        rw [ht] at h
        simp only [] at h
        split at h
        · cases h
        · next hm => cases h; exact memRead_reports hm
    · next c' =>
      rw [if_neg c']
      split at h
      · split at h
        · cases h
        · next hm => cases h; exact memRead_reports hm
      · exact memRead_reports h

end Sys2Proof.Machine
end

