-- ==== Sys2Proof/Laws/Encoding.lean ====
section
/-! SUPPORT. The fields of a composed command word are its parts, and a word is composed of its fields
(spec/30_encoding.md R101). -/

namespace Sys2Proof

@[simp] theorem opOf_cmdWord (op : Byte) (a d : Word) : opOf (cmdWord op a d) = op := by
  ext i hi
  have h1 : ¬(64 + i < 32) := by omega
  have h2 : ¬(64 + i - 32 < 32) := by omega
  simp only [opOf, cmdWord, BitVec.getElem_extractLsb', BitVec.getLsbD_append, if_neg h1, if_neg h2]
  rw [show 64 + i - 32 - 32 = i by omega, BitVec.getLsbD_eq_getElem hi]

@[simp] theorem argA_cmdWord (op : Byte) (a d : Word) : argA (cmdWord op a d) = a := by
  ext i hi
  have h1 : ¬(32 + i < 32) := by omega
  have h2 : 32 + i - 32 < 32 := by omega
  simp only [argA, cmdWord, BitVec.getElem_extractLsb', BitVec.getLsbD_append, if_neg h1, if_pos h2]
  rw [show 32 + i - 32 = i by omega, BitVec.getLsbD_eq_getElem hi]

@[simp] theorem argD_cmdWord (op : Byte) (a d : Word) : argD (cmdWord op a d) = d := by
  ext i hi
  have h1 : 0 + i < 32 := by omega
  simp only [argD, cmdWord, BitVec.getElem_extractLsb', BitVec.getLsbD_append, if_pos h1]
  rw [show 0 + i = i by omega, BitVec.getLsbD_eq_getElem hi]

/-- A command word is composed of its three fields. -/
theorem cmdWord_fields (w : Cmd) : cmdWord (opOf w) (argA w) (argD w) = w := by
  ext i hi
  simp only [cmdWord, opOf, argA, argD]
  rw [BitVec.getElem_append]
  split
  · simp only [BitVec.getElem_extractLsb']
    rw [show 0 + i = i by omega, BitVec.getLsbD_eq_getElem hi]
  · rw [BitVec.getElem_append]
    split
    · simp only [BitVec.getElem_extractLsb']
      rw [show 32 + (i - 32) = i by omega, BitVec.getLsbD_eq_getElem hi]
    · simp only [BitVec.getElem_extractLsb']
      rw [show 64 + (i - 32 - 32) = i by omega, BitVec.getLsbD_eq_getElem hi]

/-- A word with the same three fields is the same word. -/
theorem cmd_ext {w x : Cmd} (ho : opOf w = opOf x) (ha : argA w = argA x) (hd : argD w = argD x) : w = x := by
  rw [← cmdWord_fields w, ← cmdWord_fields x, ho, ha, hd]

@[simp] theorem opOf_encode (i : Instr) : opOf (encode i) = opcodeOf i := opOf_cmdWord _ _ _
@[simp] theorem argA_encode (i : Instr) : argA (encode i) = encodeA i := argA_cmdWord _ _ _
@[simp] theorem argD_encode (i : Instr) : argD (encode i) = encodeD i := argD_cmdWord _ _ _

/-! ## Fields of the composed arguments -/

/-- The upper part of a concatenation. -/
theorem extract_append_hi {n m : Nat} (x : BitVec n) (y : BitVec m) : (x ++ y).extractLsb' m n = x := by
  ext i hi
  rw [BitVec.getElem_extractLsb', BitVec.getLsbD_append, if_neg (by omega), show m + i - m = i by omega,
    BitVec.getLsbD_eq_getElem hi]

/-- The lower part of a concatenation. -/
theorem extract_append_lo {n m : Nat} (x : BitVec n) (y : BitVec m) : (x ++ y).extractLsb' 0 m = y := by
  ext i hi
  rw [BitVec.getElem_extractLsb', BitVec.getLsbD_append, if_pos (by omega), Nat.zero_add, BitVec.getLsbD_eq_getElem hi]

/-- The background index of an argument whose low bits are a background's (R102). -/
theorem bgField_append (x : BitVec 30) (k : BgIndex) : bgField (x ++ bgBits k) = k := by
  have h : (x ++ bgBits k).extractLsb' 0 2 = bgBits k := extract_append_lo x (bgBits k)
  refine Fin.ext ?_
  show ((x ++ bgBits k).extractLsb' 0 2).toNat = k.val
  rw [h]
  exact Nat.mod_eq_of_lt k.isLt

/-- The source of an argument whose low bits are a source's (R102). -/
theorem sourceField_append (x : BitVec 28) (n : Fin 16) : sourceField (x ++ BitVec.ofNat 4 n.val) = n := by
  have h : (x ++ BitVec.ofNat 4 n.val).extractLsb' 0 4 = BitVec.ofNat 4 n.val := extract_append_lo _ _
  refine Fin.ext ?_
  show ((x ++ BitVec.ofNat 4 n.val).extractLsb' 0 4).toNat = n.val
  rw [h]
  exact Nat.mod_eq_of_lt n.isLt

/-- The two bits of the background index an argument holds are the argument's low bits (R102). -/
theorem bgBits_bgField (a : Word) : bgBits (bgField a) = a.extractLsb' 0 2 :=
  BitVec.eq_of_toNat_eq (Nat.mod_eq_of_lt (a.extractLsb' 0 2).isLt)

/-- A word with a known top part and bottom part. -/
theorem append_extract {n m : Nat} (v : BitVec (n + m)) : v.extractLsb' m n ++ v.extractLsb' 0 m = v := by
  ext i hi
  rw [BitVec.getElem_append]
  split
  · rw [BitVec.getElem_extractLsb', Nat.zero_add, BitVec.getLsbD_eq_getElem hi]
  · rw [BitVec.getElem_extractLsb', show m + (i - m) = i by omega, BitVec.getLsbD_eq_getElem hi]

end Sys2Proof
end

