-- ==== Sys2Proof/Laws/Offsets.lean ====
section
/-! SUPPORT. The thirteen special I/O offsets of a parameter set that meets its constraints are distinct, below
`IO_LEN`, and the register offsets among them even (spec/00_scope.md R8). -/

namespace Sys2Proof.Machine

theorem special_length (c : Config) : (specialOffsets c).length = 13 := by
  simp [specialOffsets]

/-- Offsets at different places of the list are different. -/
theorem special_ne {c : Config} (h : paramsOk c = true) {i j : Nat} (hi : i < 13) (hj : j < 13) (hij : i ≠ j) :
    (specialOffsets c).getD i 0 ≠ (specialOffsets c).getD j 0 := by
  simp only [paramsOk, offsetsOk, Bool.and_eq_true, decide_eq_true_eq] at h
  intro e
  have l := special_length c
  simp only [List.getD_eq_getElem?_getD, List.getElem?_eq_getElem (l ▸ hi : i < (specialOffsets c).length),
    List.getElem?_eq_getElem (l ▸ hj : j < (specialOffsets c).length), Option.getD_some] at e
  exact hij ((List.Nodup.getElem_inj_iff h.1.1.1.1).1 e)

theorem special_lt {c : Config} (h : paramsOk c = true) {i : Nat} (hi : i < 13) : (specialOffsets c).getD i 0 < 0x3FF := by
  simp only [paramsOk, offsetsOk, Bool.and_eq_true, List.all_eq_true, decide_eq_true_eq] at h
  have hi' : i < (specialOffsets c).length := (special_length c).symm ▸ hi
  rw [List.getD_eq_getElem?_getD, List.getElem?_eq_getElem hi', Option.getD_some]
  exact h.1.1.1.2 _ (List.getElem_mem hi')

theorem special_bg0 (c : Config) (k : BgIndex) : (specialOffsets c).getD (5 + k.val) 0 = c.bgcntOfs[k] := by
  have := k.isLt
  rw [List.getD_eq_getElem?_getD]
  simp only [specialOffsets]
  rw [List.getElem?_append_left (by simp; omega), List.getElem?_append_right (by simp)]
  simp

theorem special_bg1 (c : Config) (k : BgIndex) : (specialOffsets c).getD (9 + k.val) 0 = c.bgcntOfs[k] + 1 := by
  have := k.isLt
  rw [List.getD_eq_getElem?_getD]
  simp only [specialOffsets]
  rw [List.getElem?_append_right (by simp)]
  simp

/-- What the constraints say about the registers' offsets (R8). -/
structure OffsetFacts (c : Config) : Prop where
  ie      : c.ieOfs ≠ 0x208 ∧ c.ieOfs + 1 ≠ 0x208 ∧ c.ieOfs + 1 < 0x3FF
  if_     : c.ifOfs ≠ 0x208 ∧ c.ifOfs + 1 ≠ 0x208 ∧ c.ifOfs + 1 < 0x3FF
  ieIf    : c.ieOfs ≠ c.ifOfs ∧ c.ieOfs ≠ c.ifOfs + 1 ∧ c.ieOfs + 1 ≠ c.ifOfs
  bg      : ∀ k : BgIndex, c.bgcntOfs[k] ≠ 0x208 ∧ c.bgcntOfs[k] + 1 ≠ 0x208 ∧ c.bgcntOfs[k] + 1 < 0x3FF
  bgIf    : ∀ k : BgIndex, c.bgcntOfs[k] ≠ c.ifOfs ∧ c.bgcntOfs[k] ≠ c.ifOfs + 1 ∧ c.bgcntOfs[k] + 1 ≠ c.ifOfs
  bgIe    : ∀ k : BgIndex, c.bgcntOfs[k] ≠ c.ieOfs ∧ c.bgcntOfs[k] ≠ c.ieOfs + 1 ∧ c.bgcntOfs[k] + 1 ≠ c.ieOfs
  bgs     : ∀ j k : BgIndex, j ≠ k → c.bgcntOfs[j] ≠ c.bgcntOfs[k]
  bgs1    : ∀ j k : BgIndex, c.bgcntOfs[j] + 1 ≠ c.bgcntOfs[k]
  even    : c.ieOfs % 2 = 0 ∧ c.ifOfs % 2 = 0 ∧ ∀ k : BgIndex, c.bgcntOfs[k] % 2 = 0

theorem offsetFacts {c : Config} (h : paramsOk c = true) : OffsetFacts c := by
  have ne := @special_ne c h
  have lt := @special_lt c h
  have b0 := special_bg0 c
  have b1 := special_bg1 c
  have even : c.ieOfs % 2 = 0 ∧ c.ifOfs % 2 = 0 ∧ ∀ k : BgIndex, c.bgcntOfs[k] % 2 = 0 := by
    simp only [paramsOk, offsetsEven, Bool.and_eq_true, List.all_eq_true, decide_eq_true_eq, List.mem_cons] at h
    exact ⟨h.1.1.2 _ (.inl rfl), h.1.1.2 _ (.inr (.inl rfl)), fun k => h.1.1.2 _ (.inr (.inr (by simp)))⟩
  constructor
  · exact ⟨ne (i := 0) (j := 4) (by omega) (by omega) (by omega), ne (i := 1) (j := 4) (by omega) (by omega) (by omega),
      lt (i := 1) (by omega)⟩
  · exact ⟨ne (i := 2) (j := 4) (by omega) (by omega) (by omega), ne (i := 3) (j := 4) (by omega) (by omega) (by omega),
      lt (i := 3) (by omega)⟩
  · exact ⟨ne (i := 0) (j := 2) (by omega) (by omega) (by omega), ne (i := 0) (j := 3) (by omega) (by omega) (by omega),
      ne (i := 1) (j := 2) (by omega) (by omega) (by omega)⟩
  · intro k
    rw [← b1, ← b0]
    exact ⟨ne (j := 4) (by omega) (by omega) (by omega), ne (j := 4) (by omega) (by omega) (by omega), lt (by omega)⟩
  · intro k
    rw [← b1, ← b0]
    exact ⟨ne (j := 2) (by omega) (by omega) (by omega), ne (j := 3) (by omega) (by omega) (by omega),
      ne (j := 2) (by omega) (by omega) (by omega)⟩
  · intro k
    rw [← b1, ← b0]
    exact ⟨ne (j := 0) (by omega) (by omega) (by omega), ne (j := 1) (by omega) (by omega) (by omega),
      ne (j := 0) (by omega) (by omega) (by omega)⟩
  · intro j k hjk
    rw [← b0, ← b0]
    exact ne (by omega) (by omega) (fun e => hjk (Fin.ext (by omega)))
  · intro j k
    rw [← b1, ← b0]
    exact ne (by omega) (by omega) (by omega)
  · exact even

theorem mem_allBgs (k : BgIndex) : k ∈ allBgs := by
  revert k; decide

/-- The background a control byte belongs to. -/
theorem bgOfByte0_bgcnt {c : Config} (h : paramsOk c = true) (k : BgIndex) : bgOfByte0 c c.bgcntOfs[k] = some k := by
  have f := offsetFacts h
  cases hf : bgOfByte0 c c.bgcntOfs[k] with
  | none =>
    rw [bgOfByte0, List.find?_eq_none] at hf
    exact absurd (by simp) (hf k (mem_allBgs k))
  | some j =>
    have e := List.find?_some hf
    simp only [beq_iff_eq] at e
    by_contra hj
    exact f.bgs k j (fun e => hj (by rw [e])) e

theorem bgOfByte0_none {c : Config} {o : Nat} (h : ∀ k : BgIndex, o ≠ c.bgcntOfs[k]) : bgOfByte0 c o = none := by
  rw [bgOfByte0, List.find?_eq_none]
  intro k _
  simpa using h k

theorem bgOfByte1_none {c : Config} {o : Nat} (h : ∀ k : BgIndex, o ≠ c.bgcntOfs[k] + 1) : bgOfByte1 c o = none := by
  rw [bgOfByte1, List.find?_eq_none]
  intro k _
  simpa using h k

theorem bgOfByte1_bgcnt {c : Config} (h : paramsOk c = true) (k : BgIndex) : bgOfByte1 c (c.bgcntOfs[k] + 1) = some k := by
  have f := offsetFacts h
  cases hf : bgOfByte1 c (c.bgcntOfs[k] + 1) with
  | none =>
    rw [bgOfByte1, List.find?_eq_none] at hf
    exact absurd (by simp) (hf k (mem_allBgs k))
  | some j =>
    have e := List.find?_some hf
    simp only [beq_iff_eq, Nat.add_right_cancel_iff] at e
    by_contra hj
    exact f.bgs k j (fun e => hj (by rw [e])) e

/-! ## What an I/O write does at each kind of offset (20_memory R69) -/

theorem ioWrite8_bg0 {s : State} (h : paramsOk s.cfg = true) (k : BgIndex) (v : Byte) :
    ioWrite8 s s.cfg.bgcntOfs[k] v = bgcntWriteByte0 s k v := by
  have f := offsetFacts h
  simp only [ioWrite8, (f.bg k).1, (f.bgIf k).1, (f.bgIf k).2.1, or_self, if_false, bgOfByte0_bgcnt h]

theorem ioWrite8_bg1 {s : State} (h : paramsOk s.cfg = true) (k : BgIndex) (v : Byte) :
    ioWrite8 s (s.cfg.bgcntOfs[k] + 1) v = bgcntWriteByte1 s k v := by
  have f := offsetFacts h
  have hi : ¬(s.cfg.bgcntOfs[k] + 1 = s.cfg.ifOfs ∨ s.cfg.bgcntOfs[k] + 1 = s.cfg.ifOfs + 1) := by
    have := f.bgIf k
    omega
  simp only [ioWrite8, (f.bg k).2.1, hi, if_false, bgOfByte0_none (f.bgs1 k), bgOfByte1_bgcnt h]

theorem ioWrite8_ack {s : State} (h : paramsOk s.cfg = true) {o : Nat} (ho : o = s.cfg.ifOfs ∨ o = s.cfg.ifOfs + 1)
    (v : Byte) : ioWrite8 s o v = setIo s o (cellsRead s.io o &&& ~~~v) := by
  have hn : o ≠ 0x208 := by
    have := (offsetFacts h).if_
    omega
  simp only [ioWrite8, hn, ho, if_true, if_false]

theorem ioWrite8_plain {s : State} {o : Nat} (h : plainIo s.cfg o = true) (v : Byte) : ioWrite8 s o v = setIo s o v := by
  simp only [plainIo, Bool.and_eq_true, decide_eq_true_eq, List.all_eq_true] at h
  simp only [ioWrite8, h.1.1, h.1.2.1, h.1.2.2, or_self, if_false, bgOfByte0_none fun k => (h.2 k (mem_allBgs k)).1,
    bgOfByte1_none fun k => (h.2 k (mem_allBgs k)).2]

theorem plainIo_ie {c : Config} (h : paramsOk c = true) : plainIo c c.ieOfs = true ∧ plainIo c (c.ieOfs + 1) = true := by
  have f := offsetFacts h
  have := f.ie
  have := f.ieIf
  simp only [plainIo, Bool.and_eq_true, decide_eq_true_eq, List.all_eq_true]
  refine ⟨⟨by omega, fun k _ => ?_⟩, ⟨by omega, fun k _ => ?_⟩⟩ <;>
  · have := f.bgIe k
    omega

/-! ## Addresses of I/O bytes -/

theorem ioAddr_toNat {o : Nat} (h : o < 0x3FF) : (ioAddr o).toNat = 0x04000000 + o := by
  simp only [ioAddr, BitVec.toNat_ofNat]
  exact Nat.mod_eq_of_lt (by omega)

theorem ioAddr_succ (o : Nat) : ioAddr o + 1 = ioAddr (o + 1) := by
  simp only [ioAddr, ← Nat.add_assoc, BitVec.ofNat_add]
  rfl

theorem route_ioAddr {o : Nat} (h : o < 0x3FF) : route (ioAddr o) = some (.io, o) := by
  simp only [route, ioAddr_toNat h]
  rw [if_neg (by omega), if_pos (by omega), Nat.add_sub_cancel_left]

theorem check_ioAddr {s : State} {o : Nat} (h : o < 0x3FF) (w : Bool) : check s (ioAddr o) w = .ok (.io, o) := by
  simp only [check, route_ioAddr h, backed, if_true]

theorem busWrite8_ioAddr {s : State} {o : Nat} (h : o < 0x3FF) (v : Byte) : busWrite8 s (ioAddr o) v = ioWrite8 s o v := by
  simp only [busWrite8, route_ioAddr h, storeByte]

theorem busRead8_ioAddr {s : State} {o : Nat} (h : o < 0x3FF) : busRead8 s (ioAddr o) = .ok (ioRead8 s o) := by
  simp only [busRead8, check_ioAddr h, loadByte]

end Sys2Proof.Machine
end

