-- ==== Sys2Proof/Laws/PerInstr.lean ====
section
/-! SUPPORT. Per-instruction law: the encoding of every instruction matches its row of the opcode table
(spec/30_encoding.md R102, R104, opcode_table.json), so the encoder sets no bit the format requires to be 0. -/

namespace Sys2Proof.Laws.TableRow

-- The many small decisions of this file one after another: in parallel they need a thread each.
set_option Elab.async false

/-- The instruction's word matches its row. -/
def Statement (i : Instr) : Prop := (rowOf i).covers (encode i) = true

/-- A word matches a row whose fields it matches one by one. -/
theorem covers_of_fields {r : Row} {w : Cmd} (ho : opOf w &&& opOf r.care = opOf r.bits)
    (ha : argA w &&& argA r.care = argA r.bits) (hd : argD w &&& argD r.care = argD r.bits) : r.covers w = true := by
  have h : w &&& r.care = r.bits := by
    refine cmd_ext ?_ ?_ ?_
    · rw [← ho]; simp [opOf, BitVec.extractLsb'_and]
    · rw [← ha]; simp [argA, BitVec.extractLsb'_and]
    · rw [← hd]; simp [argD, BitVec.extractLsb'_and]
  simp [Row.covers, h]

/-- A field the format leaves free matches whatever it holds. -/
theorem free {care bits : Word} (hc : care = 0) (hb : bits = 0) (x : Word) : x &&& care = bits := by
  subst hc hb
  exact BitVec.and_zero

/-- The care bits of RENDER's first argument leave the line and the background free. -/
theorem lineField (line : BitVec 8) (x : BitVec 2) :
    (0#16 ++ line ++ 0#6 ++ x) &&& (0xFFFF#16 ++ 0#8 ++ 0x3F#6 ++ 0#2) = 0#16 ++ 0#8 ++ 0#6 ++ 0#2 := by
  simp only [BitVec.and_append, BitVec.zero_and, BitVec.and_zero]

/-- The care bits of SCRLWR's second argument leave the low half free. -/
theorem lowHalf (value : Half) : (0#16 ++ value) &&& (0xFFFF#16 ++ 0#16) = 0#16 ++ 0#16 := by
  simp only [BitVec.and_append, BitVec.zero_and, BitVec.and_zero]

theorem rdb (addr : Word) : Statement (.rdb addr) :=
  covers_of_fields (by rw [opOf_encode]; simp only [rowOf, opcodeOf]; decide)
    (free (by simp only [rowOf]; decide) (by simp only [rowOf]; decide) _)
    (by rw [argD_encode]; simp only [rowOf, encodeD]; decide)

theorem rdh (addr : Word) : Statement (.rdh addr) :=
  covers_of_fields (by rw [opOf_encode]; simp only [rowOf, opcodeOf]; decide)
    (free (by simp only [rowOf]; decide) (by simp only [rowOf]; decide) _)
    (by rw [argD_encode]; simp only [rowOf, encodeD]; decide)

theorem rdw (addr : Word) : Statement (.rdw addr) :=
  covers_of_fields (by rw [opOf_encode]; simp only [rowOf, opcodeOf]; decide)
    (free (by simp only [rowOf]; decide) (by simp only [rowOf]; decide) _)
    (by rw [argD_encode]; simp only [rowOf, encodeD]; decide)

theorem wrb (addr value : Word) : Statement (.wrb addr value) :=
  covers_of_fields (by rw [opOf_encode]; simp only [rowOf, opcodeOf]; decide)
    (free (by simp only [rowOf]; decide) (by simp only [rowOf]; decide) _)
    (free (by simp only [rowOf]; decide) (by simp only [rowOf]; decide) _)

theorem wrh (addr value : Word) : Statement (.wrh addr value) :=
  covers_of_fields (by rw [opOf_encode]; simp only [rowOf, opcodeOf]; decide)
    (free (by simp only [rowOf]; decide) (by simp only [rowOf]; decide) _)
    (free (by simp only [rowOf]; decide) (by simp only [rowOf]; decide) _)

theorem wrw (addr value : Word) : Statement (.wrw addr value) :=
  covers_of_fields (by rw [opOf_encode]; simp only [rowOf, opcodeOf]; decide)
    (free (by simp only [rowOf]; decide) (by simp only [rowOf]; decide) _)
    (free (by simp only [rowOf]; decide) (by simp only [rowOf]; decide) _)

theorem ldwc (addr : Word) : Statement (.ldwc addr) :=
  covers_of_fields (by rw [opOf_encode]; simp only [rowOf, opcodeOf]; decide)
    (free (by simp only [rowOf]; decide) (by simp only [rowOf]; decide) _)
    (by rw [argD_encode]; simp only [rowOf, encodeD]; decide)

theorem stwc (addr value : Word) : Statement (.stwc addr value) :=
  covers_of_fields (by rw [opOf_encode]; simp only [rowOf, opcodeOf]; decide)
    (free (by simp only [rowOf]; decide) (by simp only [rowOf]; decide) _)
    (free (by simp only [rowOf]; decide) (by simp only [rowOf]; decide) _)

theorem brdb (ofs : Word) : Statement (.brdb ofs) :=
  covers_of_fields (by rw [opOf_encode]; simp only [rowOf, opcodeOf]; decide)
    (free (by simp only [rowOf]; decide) (by simp only [rowOf]; decide) _)
    (by rw [argD_encode]; simp only [rowOf, encodeD]; decide)

theorem brdh (ofs : Word) : Statement (.brdh ofs) :=
  covers_of_fields (by rw [opOf_encode]; simp only [rowOf, opcodeOf]; decide)
    (free (by simp only [rowOf]; decide) (by simp only [rowOf]; decide) _)
    (by rw [argD_encode]; simp only [rowOf, encodeD]; decide)

theorem brdw (ofs : Word) : Statement (.brdw ofs) :=
  covers_of_fields (by rw [opOf_encode]; simp only [rowOf, opcodeOf]; decide)
    (free (by simp only [rowOf]; decide) (by simp only [rowOf]; decide) _)
    (by rw [argD_encode]; simp only [rowOf, encodeD]; decide)

theorem render (bg : BgIndex) (line : BitVec 8) : Statement (.render bg line) := by
  refine covers_of_fields (by rw [opOf_encode]; simp only [rowOf, opcodeOf]; decide) ?_ (by rw [argD_encode]; simp only [rowOf, encodeD]; decide)
  rw [argA_encode]
  show (0#16 ++ line ++ 0#6 ++ bgBits bg : Word) &&& argA 0xFF_FFFF00FC_FFFFFFFF = argA 0x20_00000000_00000000
  rw [show argA 0xFF_FFFF00FC_FFFFFFFF = 0xFFFF#16 ++ 0#8 ++ 0x3F#6 ++ 0#2 by decide,
    show argA 0x20_00000000_00000000 = 0#16 ++ 0#8 ++ 0#6 ++ 0#2 by decide]
  exact lineField _ _

theorem tmlook (bg : BgIndex) (bgX bgY : Half) : Statement (.tmlook bg bgX bgY) :=
  covers_of_fields (by rw [opOf_encode]; simp only [rowOf, opcodeOf]; decide) (by rw [argA_encode]; simp only [rowOf, encodeA]; revert bg; decide)
    (free (by simp only [rowOf]; decide) (by simp only [rowOf]; decide) _)

theorem scrlwr (bg : BgIndex) (axis : Axis) (value : Half) : Statement (.scrlwr bg axis value) := by
  refine covers_of_fields (by rw [opOf_encode]; simp only [rowOf, opcodeOf]; decide) ?_ ?_
  · rw [argA_encode]
    simp only [encodeA, rowOf]
    cases axis <;> (revert bg; decide)
  · rw [argD_encode]
    simp only [encodeD, rowOf]
    rw [show argD 0xFF_FFFFFFF8_FFFF0000 = 0xFFFF#16 ++ 0#16 by decide,
      show argD 0x22_00000000_00000000 = 0#16 ++ 0#16 by decide]
    exact lowHalf _

theorem affwr (bg : BgIndex) (flag : Bool) : Statement (.affwr bg flag) :=
  covers_of_fields (by rw [opOf_encode]; simp only [rowOf, opcodeOf]; decide) (by rw [argA_encode]; simp only [rowOf, encodeA]; revert bg; decide)
    (by rw [argD_encode]; simp only [rowOf, encodeD]; revert flag; decide)

theorem bgrst (bg : BgIndex) : Statement (.bgrst bg) :=
  covers_of_fields (by rw [opOf_encode]; simp only [rowOf, opcodeOf]; decide) (by rw [argA_encode]; simp only [rowOf, encodeA]; revert bg; decide)
    (by rw [argD_encode]; simp only [rowOf, encodeD]; decide)

theorem irqreq (source : Fin 16) : Statement (.irqreq source) :=
  covers_of_fields (by rw [opOf_encode]; simp only [rowOf, opcodeOf]; decide)
    (by rw [argA_encode]; simp only [rowOf, encodeA]; revert source; decide)
    (by rw [argD_encode]; simp only [rowOf, encodeD]; decide)

theorem irqproc : Statement .irqproc :=
  covers_of_fields (by rw [opOf_encode]; simp only [rowOf, opcodeOf]; decide)
    (by rw [argA_encode]; simp only [rowOf, encodeA]; decide)
    (by rw [argD_encode]; simp only [rowOf, encodeD]; decide)

theorem imewr (value : Bool) : Statement (.imewr value) :=
  covers_of_fields (by rw [opOf_encode]; simp only [rowOf, opcodeOf]; decide)
    (by rw [argA_encode]; simp only [rowOf, encodeA]; decide)
    (by rw [argD_encode]; simp only [rowOf, encodeD]; revert value; decide)

end Sys2Proof.Laws.TableRow
end

