-- ==== Sys2Proof/Tests/Slice0.lean ====
section
/-! SUPPORT. The model's own tests. Expected values are the spec's (spec/95_test_vectors.md, or worked out by hand from the
rules cited); each test runs one command on a small state. The witnesses at the end show, for each statement with
hypotheses, a state and operands that meet all of them together. -/

namespace Sys2Proof.Tests

open Sys2Proof.Machine

-- The many small decisions of this file one after another: in parallel they need a thread each.
set_option Elab.async false

/-! ## Helpers -/

/-- The state one command leads to. -/
def one (i : Instr) (s : State) : State :=
  match exec i s with
  | .next t => t
  | _       => s

/-- The state one step leads to. -/
def stepped (s : State) : State :=
  match step s with
  | .next t => t
  | _       => s

/-- The command answers a next state, as a test the kernel evaluates. -/
def answers (i : Instr) (s : State) : Bool :=
  match exec i s with
  | .next _ => true
  | _       => false

theorem exec_one {i : Instr} {s : State} (h : answers i s = true) : exec i s = .next (one i s) := by
  unfold answers at h
  unfold one
  split at h
  · next t ht => rw [ht]
  · cases h

/-- What holds of each member of a list, as a test the kernel evaluates. -/
theorem each {α : Type} {l : List α} {P : α → Prop} [DecidablePred P] (h : (l.all fun x => decide (P x)) = true) :
    ∀ x ∈ l, P x := by
  simpa using h

/-- The step answers a next state, as a test the kernel evaluates. -/
def stepAnswers (s : State) : Bool :=
  match step s with
  | .next _ => true
  | _       => false

theorem step_stepped {s : State} (h : stepAnswers s = true) : step s = .next (stepped s) := by
  unfold stepAnswers at h
  unfold stepped
  split at h
  · next t ht => rw [ht]
  · cases h

/-- A processor record of supervisor mode with interrupts enabled. -/
def cpuAt (pc : Word) (t : InsnState) : Cpu :=
  { Cpu.reset with pc := pc, cpsr := { Psr.reset with t := t } }

/-- Internal work RAM as program P1 leaves it after its first command: the word 0x11223344 at 0x03000000. -/
def ramState : State := { State.reset with iwram := [(0, 0x44), (1, 0x33), (2, 0x22), (3, 0x11)] }

/-- Two bytes of ROM and five of BIOS (vectors S9, V3). -/
def imageState : State := State.resetOf Config.default [0x00, 0x08] [1, 2, 3, 4, 5]

/-- A background 0 as program P2 sets it up: control 0x0104, entry (0, 0) 0x2001, tile 1 row 0, sub-palette 2, the
backdrop, and the decoy entry 32. -/
def videoState : State :=
  { State.reset with
    io   := [(8, 0x04), (9, 0x01)]
    vram := [(0x800, 0x01), (0x801, 0x20), (0x4020, 0x21), (0x4021, 0x43), (0x4023, 0x65)]
    pal  := [(0, 0xFF), (1, 0x7F), (0x40, 0x11), (0x41, 0x11), (0x42, 0x1F), (0x44, 0xE0), (0x45, 0x03), (0x47, 0x7C)]
    bgs  := State.reset.bgs.set 0 { Background.reset with tdb := 0x4000 } }

/-- A 256-colour background 1 (vector V7 rows 5 to 9): control 0x008C, entry (0, 0) as given. -/
def palette256State (lo hi : Byte) : State :=
  { State.reset with
    io   := [(10, 0x8C)]
    vram := [(0, lo), (1, hi)]
    bgs  := State.reset.bgs.set 1 { Background.reset with tdb := 0xC000, pal256 := true } }

/-- An affine background 2. -/
def affineState : State := { State.reset with bgs := State.reset.bgs.set 2 { Background.reset with affine := true } }

/-- A block whose latch holds a fault (program P4 row 4). -/
def faultedState : State := { imageState with flt := ⟨true, 0x02, 0x08000002, 0x02⟩ }

/-- Master-enable on, requests 0 and 1 pending, source 0 enabled, the processor in Thumb state (vector V8 row 5). -/
def irqState : State :=
  { State.reset with io := [(0x200, 0x01), (0x202, 0x03)], ime := true, cpu := cpuAt 0x03000100 .thumb }

/-! ## Well-formed command words: one ill-formed word a row and check (vector V9) -/

theorem wf_smoke_good : wellFormedWord 0x04_02000010_FFFFFFAB = true ∧ wellFormedWord 0x21_00000003_FFFFFFFF = true := by
  decide +kernel

/-- An `op` that is not in the table: the size code 3, a checked byte or halfword access, a BIOS write, the gaps. -/
theorem wf_smoke_unknown_op :
    ([0x03_00000000_00000000, 0x07_03000000_00000000, 0x08_03000000_00000000, 0x09_03000000_00000000,
      0x0C_03000000_00000000, 0x13_00000000_00000000, 0x14_00000000_00000000, 0x25_00000000_00000000,
      0x33_00000000_00000000, 0x40_00000000_00000000, 0xFF_FFFFFFFF_FFFFFFFF].all fun w => !wellFormedWord w) = true := by
  decide +kernel

/-- A bit that the format requires to be 0, in each format: `d` of the reads, then each field of the others. -/
theorem wf_smoke_must_be_zero :
    ([0x00_03000000_00000001, 0x01_03000000_80000000, 0x02_03000000_00000001, 0x0A_03000000_80000000,
      0x10_00000000_00000001, 0x11_00000000_00000001, 0x12_00000000_00000001, 0x20_00000004_00000000,
      0x20_00010000_00000000, 0x20_00000000_00000001, 0x21_00000004_00000000, 0x22_00000008_00000000,
      0x22_00000000_00010000, 0x23_00000004_00000000, 0x23_00000000_00000002, 0x24_00000001_00000001,
      0x24_00000004_00000000, 0x30_00000010_00000000, 0x30_00000000_00000001, 0x31_00000000_00000001,
      0x31_00000001_00000000, 0x32_00000001_00000001, 0x32_00000000_00000002].all fun w => !wellFormedWord w) = true := by
  decide +kernel

/-- The decoder refuses by name. -/
theorem decode_refuses_by_name :
    decode 0x03_00000000_00000000 = .error (.unknownOp 0x03) ∧
    decode 0x30_00000010_00000000 = .error (.mustBeZero 0x30) := by
  decide +kernel

/-- The word type has no smaller ill-formed terms; a parameter set does: one for each constraint (vector V10, R8). -/
theorem params_smoke :
    paramsOk Config.default = true ∧
    paramsOk { Config.default with ieOfs := 0x208 } = false ∧
    paramsOk { Config.default with bgcntOfs := #v[0x3FE, 0x00A, 0x00C, 0x00E] } = false ∧
    paramsOk { Config.default with ifOfs := 0x205 } = false ∧
    paramsOk { Config.default with dmacntAddrs := [0x040000B9, 0x040000C4, 0x040000D0, 0x040000DC] } = false ∧
    paramsOk { Config.default with dmacntAddrs := [0x03000000, 0x040000C4, 0x040000D0, 0x040000DC] } = false ∧
    paramsOk { Config.default with dmacntAddrs := [0x040000B8] } = false ∧
    paramsOk { Config.default with oamLen := 0x01000001 } = false ∧
    paramsOk { Config.default with screenH := 257 } = false := by
  decide +kernel

/-! ## Decoding: one word a constructor, written out from R101 and R102 -/

theorem decode_rdb : decode 0x00_03000003_00000000 = .ok (.rdb 0x03000003) := by decide +kernel
theorem decode_rdh : decode 0x01_03000002_00000000 = .ok (.rdh 0x03000002) := by decide +kernel
theorem decode_rdw : decode 0x02_03000004_00000000 = .ok (.rdw 0x03000004) := by decide +kernel
theorem decode_wrb : decode 0x04_02000000_000001FF = .ok (.wrb 0x02000000 0x1FF) := by decide +kernel
theorem decode_wrh : decode 0x05_04000008_00000104 = .ok (.wrh 0x04000008 0x104) := by decide +kernel
theorem decode_wrw : decode 0x06_06004020_65004321 = .ok (.wrw 0x06004020 0x65004321) := by decide +kernel
theorem decode_ldwc : decode 0x0A_FFFFFFFC_00000000 = .ok (.ldwc 0xFFFFFFFC) := by decide +kernel
theorem decode_stwc : decode 0x0E_03000006_AABBCCDD = .ok (.stwc 0x03000006 0xAABBCCDD) := by decide +kernel
theorem decode_brdb : decode 0x10_00000004_00000000 = .ok (.brdb 4) := by decide +kernel
theorem decode_brdh : decode 0x11_00000003_00000000 = .ok (.brdh 3) := by decide +kernel
theorem decode_brdw : decode 0x12_00000001_00000000 = .ok (.brdw 1) := by decide +kernel
theorem decode_render : decode 0x20_00009F03_00000000 = .ok (.render 3 159) := by decide +kernel
theorem decode_tmlook : decode 0x21_00000002_00080007 = .ok (.tmlook 2 7 8) := by decide +kernel
theorem decode_scrlwr_x : decode 0x22_00000002_0000FFFF = .ok (.scrlwr 2 .x 0xFFFF) := by decide +kernel
theorem decode_scrlwr_y : decode 0x22_00000004_000000FF = .ok (.scrlwr 0 .y 255) := by decide +kernel
theorem decode_affwr : decode 0x23_00000002_00000001 = .ok (.affwr 2 true) := by decide +kernel
theorem decode_bgrst : decode 0x24_00000003_00000000 = .ok (.bgrst 3) := by decide +kernel
theorem decode_irqreq : decode 0x30_0000000F_00000000 = .ok (.irqreq 15) := by decide +kernel
theorem decode_irqproc : decode 0x31_00000000_00000000 = .ok .irqproc := by decide +kernel
theorem decode_imewr : decode 0x32_00000000_00000001 = .ok (.imewr true) := by decide +kernel

/-- Bit 0 of a table word is bit 0 of the command word; a reserved word is none. -/
theorem decode_table_word :
    decodeTableWord 72 0x20_00009F03_00000000 = some (.render 3 159) ∧
    decodeTableWord 72 0x03_00000000_00000000 = none := by
  decide +kernel

/-- A word placed in the port runs as the first command after reset. -/
theorem placed_word_runs_after_reset :
    (stepped (State.reset.withFetchWord 72 0x30_0000000C_00000000)).io = [(0x203, 0x10)] ∧
    (stepped (State.reset.withFetchWord 72 0x30_0000000C_00000000)).port = [] := by
  decide +kernel

/-! ## Plain bus accesses -/

/-- P1 row 3: the last byte of a word is its highest. -/
theorem test_rdb_last_byte : (one (.rdb 0x03000003) ramState).rsp = ⟨0, 0x11⟩ := by decide +kernel

/-- P4 row 5: the BIOS has no window. -/
theorem test_rdb_unmapped : (one (.rdb 0) imageState).flt = ⟨true, 0x01, 0, 0x00⟩ := by decide +kernel

/-- P1 row 5: no alignment rule. -/
theorem test_rdh_odd : (one (.rdh 0x03000001) ramState).rsp = ⟨0, 0x2233⟩ := by decide +kernel

/-- S9: the second byte is above the image. -/
theorem test_rdh_end_of_image : (one (.rdh 0x08000001) imageState).flt = ⟨true, 0x02, 0x08000002, 0x01⟩ := by
  decide +kernel

/-- P1 row 12, with the bytes above still 0. -/
theorem test_rdw_unaligned : (one (.rdw 0x03000001) ramState).rsp = ⟨0, 0x00112233⟩ := by decide +kernel

/-- P4 row 4: the third byte is the lowest that fails. -/
theorem test_rdw_lowest_failing : (one (.rdw 0x08000000) imageState).flt = ⟨true, 0x02, 0x08000002, 0x02⟩ := by
  decide +kernel

/-- R107: the upper data bits of WRB are ignored. -/
theorem test_wrb_low_byte : (one (.wrb 0x02000010 0x1AB) State.reset).ewram = [(0x10, 0xAB)] := by decide +kernel

/-- V2: a 1 written to a request flag clears it, a 0 leaves it. -/
theorem test_wrb_acknowledges :
    (one (.wrb 0x04000203 0x30) { State.reset with io := [(0x203, 0x3F)] }).io = [(0x203, 0x0F)] := by
  decide +kernel

/-- R107: the upper data bits of WRH are ignored; little-endian. -/
theorem test_wrh_low_half : (one (.wrh 0x05000002 0xABCD1234) State.reset).pal = [(2, 0x34), (3, 0x12)] := by
  decide +kernel

/-- V1: the second byte is outside the window, so nothing is stored. -/
theorem test_wrh_all_or_nothing :
    (one (.wrh 0x0203FFFF 0x1234) State.reset).ewram = [] ∧
    (one (.wrh 0x0203FFFF 0x1234) State.reset).flt = ⟨true, 0x01, 0x02040000, 0x05⟩ := by
  decide +kernel

/-- V2: the low half stores the enable mask, the high half acknowledges. -/
theorem test_wrw_enable_and_acknowledge :
    (one (.wrw 0x04000200 0x00030005) { State.reset with io := [(0x202, 0xFF), (0x203, 0x3F)] }).io =
      [(0x200, 0x05), (0x202, 0xFC), (0x203, 0x3F)] := by
  decide +kernel

/-- P4 row 6: nothing is stored, the third byte is reported. -/
theorem test_wrw_end_of_ram :
    one (.wrw 0x03007FFE 0xDEADBEEF) State.reset =
      { State.reset with flt := ⟨true, 0x01, 0x03008000, 0x06⟩, rsp := ⟨0x01, 0⟩ } := by
  decide +kernel

/-! ## Checked accesses -/

/-- P1 row 6: a misaligned load rotates the aligned word. -/
theorem test_ldwc_rotates : (one (.ldwc 0x03000001) ramState).rsp = ⟨0, 0x44112233⟩ := by decide +kernel

/-- V4: open bus in Thumb state reads the halfword at pc twice. -/
theorem test_ldwc_open_bus :
    (one (.ldwc 0x10000000) { ramState with cpu := cpuAt 0x03000000 .thumb }).rsp = ⟨0, 0x33443344⟩ := by
  decide +kernel

/-- P1 row 9: the store aligns down and does not rotate. -/
theorem test_stwc_aligns :
    (one (.stwc 0x03000006 0xAABBCCDD) State.reset).iwram = [(4, 0xDD), (5, 0xCC), (6, 0xBB), (7, 0xAA)] := by
  decide +kernel

/-- V4: the last byte of the word at 0x040003FC is above the I/O block, so nothing is stored. -/
theorem test_stwc_faults : (one (.stwc 0x040003FE 0xFFFFFFFF) State.reset).flt = ⟨true, 0x01, 0x040003FF, 0x0E⟩ := by
  decide +kernel

/-! ## BIOS leaf reads (vector V3) -/

theorem test_brdb_last : (one (.brdb 4) imageState).rsp = ⟨0, 5⟩ := by decide +kernel
theorem test_brdb_beyond : (one (.brdb 5) imageState).flt = ⟨true, 0x01, 5, 0x10⟩ := by decide +kernel
theorem test_brdh_last : (one (.brdh 3) imageState).rsp = ⟨0, 0x0504⟩ := by decide +kernel
theorem test_brdh_beyond : (one (.brdh 4) imageState).flt = ⟨true, 0x01, 5, 0x11⟩ := by decide +kernel
theorem test_brdw_order : (one (.brdw 1) imageState).rsp = ⟨0, 0x05040302⟩ := by decide +kernel
theorem test_brdw_no_wrap : (one (.brdw 0xFFFFFFFF) imageState).flt = ⟨true, 0x01, 0xFFFFFFFF, 0x12⟩ := by decide +kernel

/-! ## Backgrounds -/

/-- P2 row 11: pixels 0 to 4 of line 0; a pixel value of 0 shows the backdrop, not the decoy. -/
theorem test_render_row :
    (List.range 5).map (fbPixel (one (.render 0 0) videoState) 0) = [0x001F, 0x03E0, 0x7C00, 0x0000, 0x7FFF] ∧
    fbPixel (one (.render 0 0) videoState) 0 239 = 0x7FFF ∧ fbPixel (one (.render 0 0) videoState) 1 0 = 0 := by
  decide +kernel

/-- V7: line 160 is refused with the line as info. -/
theorem test_render_line_160 : (one (.render 0 160) State.reset).flt = ⟨true, 0x04, 160, 0x20⟩ := by decide +kernel

/-- P2 row 10: the entry, and the base cached. -/
theorem test_tmlook_entry :
    (one (.tmlook 0 7 7) videoState).rsp = ⟨0, 0x2001⟩ ∧ (one (.tmlook 0 7 7) videoState).bgs[0].tmBase = 0x800 ∧
    (one (.tmlook 0 7 7) videoState).bgs[0].tmValid = true := by
  decide +kernel

/-- V6: an affine background is refused with its index as info. -/
theorem test_tmlook_affine : (one (.tmlook 2 0 0) affineState).flt = ⟨true, 0x06, 2, 0x21⟩ := by decide +kernel

theorem test_scrlwr_x :
    (one (.scrlwr 0 .x 250) State.reset).bgs[0].scrollX = 250 ∧ (one (.scrlwr 0 .x 250) State.reset).bgs[0].scrollY = 0 := by
  decide +kernel

theorem test_scrlwr_y :
    (one (.scrlwr 3 .y 0xFFFF) State.reset).bgs[3].scrollY = 0xFFFF ∧
    (one (.scrlwr 3 .y 0xFFFF) State.reset).bgs[0].scrollY = 0 := by
  decide +kernel

theorem test_affwr_sets : (one (.affwr 2 true) State.reset).bgs[2].affine = true := by decide +kernel
theorem test_affwr_clears : (one (.affwr 2 false) affineState).bgs[2].affine = false := by decide +kernel

/-- V5 last row: the caches are recomputed from the register, the tile map reset. -/
theorem test_bgrst_recomputes :
    (one (.bgrst 3) { State.reset with
      io  := [(0x0E, 0x04), (0x0F, 0xE1)]
      bgs := State.reset.bgs.set 3 { Background.reset with tmValid := true, tdb := 0xC000, pal256 := true } }).bgs[3] =
      { Background.reset with tdb := 0x4000 } := by
  decide +kernel

/-! ## Interrupts (vector V8, program P3) -/

theorem test_irqreq_high_byte : (one (.irqreq 12) State.reset).io = [(0x203, 0x10)] := by decide +kernel

/-- Row 9: already pending. -/
theorem test_irqreq_pending : (one (.irqreq 0) irqState).io = irqState.io := by decide +kernel

/-- Row 5: the entry from Thumb state. -/
theorem test_irqproc_entry :
    (one .irqproc irqState).cpu =
      { pc := 0x18, cpsr := ⟨.irq, true, .arm, 0⟩, spsrIrq := ⟨.supervisor, false, .thumb, 0⟩, lrIrq := 0x03000102,
        flushReq := true } ∧
    (one .irqproc irqState).rsp = ⟨0, 1⟩ := by
  decide +kernel

/-- Row 4: pending but not enabled is where the parameter IRQ_GATE shows. -/
theorem test_irqproc_gate :
    (one .irqproc { irqState with io := [(0x200, 0x01), (0x202, 0x02)] }).rsp = ⟨0, 1⟩ ∧
    (one .irqproc { irqState with
      io := [(0x200, 0x01), (0x202, 0x02)], cfg := { Config.default with irqGate := .ifAndIe } }).rsp = ⟨0, 0⟩ := by
  decide +kernel

theorem test_imewr_sets : (one (.imewr true) State.reset).ime = true := by decide +kernel

/-- Row 16: the master-enable is not readable through the bus. -/
theorem test_imewr_not_readable : (one (.rdb 0x04000208) { State.reset with ime := true }).rsp = ⟨0, 0⟩ := by decide +kernel

/-! ## Witnesses: states and operands that meet the hypotheses of each statement -/

/-- EncodeInvertsDecode, DecoderAcceptsExactlyTheTable: an accepted word with every field in use, and a row. -/
theorem witness_decoded_word :
    decode 0x22_00000007_0000FFFF = .ok (.scrlwr 3 .y 0xFFFF) ∧ rowOf (.scrlwr 3 .y 0xFFFF) ∈ opcodeTable := by
  decide +kernel

/-- A state with two commands presented, the first with a processor record. -/
def presentedState : State :=
  { ramState with port := [⟨0x0A_10000000_00000000, some (cpuAt 0x03000000 .thumb)⟩, ⟨0x31_00000000_00000000, none⟩] }

/-- StepRunsTheDecodedCommand. -/
theorem witness_step_decoded :
    presentedState.port = ⟨0x0A_10000000_00000000, some (cpuAt 0x03000000 .thumb)⟩ :: [⟨0x31_00000000_00000000, none⟩] ∧
    decode 0x0A_10000000_00000000 = .ok (.ldwc 0x10000000) ∧ (stepped presentedState).rsp = ⟨0, 0x33443344⟩ := by
  decide +kernel

/-- ReservedWordsOnlyLatchAFault, with the latch clear and with a fault latched. -/
theorem witness_reserved_word :
    (State.reset.withFetchWord 72 0x32_00000000_00000002).port = [⟨0x32_00000000_00000002, none⟩] ∧
    wellFormedWord 0x32_00000000_00000002 = false ∧ State.reset.flt.valid = false ∧ faultedState.flt.valid = true := by
  decide +kernel

/-- IdlePortChangesNothing, in a state that is not the reset state. -/
theorem witness_idle_port : faultedState.port = [] := rfl

/-- ConstructionBuildsTheResetStateOrNothing: images of the bounds, one byte short of a declared length, one byte above
the window, and a parameter set that breaks a constraint. -/
theorem witness_construction :
    paramsOk Config.default = true ∧ [0x00, 0x08].length ≤ 0x02000000 ∧ 2 ≤ [0x00, 0x08].length ∧
    [0x00, 0x08].length < 3 ∧ paramsOk { Config.default with ieOfs := 0x208 } = false ∧
    5 ≤ imageState.bios.length ∧ imageState.bios.length < 6 := by
  decide +kernel

theorem witness_construction_bounds :
    (List.replicate 0x02000000 (0 : Byte)).length ≤ 0x02000000 ∧
    0x02000000 < (List.replicate 0x02000001 (0 : Byte)).length := by
  rw [List.length_replicate, List.length_replicate]
  decide

/-- A block with a cached tile-map base and cached render parameters. -/
theorem videoState_inv : Inv (one (.tmlook 0 0 0) videoState) where
  params       := by decide +kernel
  romLength    := by decide +kernel
  canonical    := by decide +kernel
  bounded      := by decide +kernel
  inert        := by decide +kernel
  renderCache  := by decide +kernel
  tileMapCache := by decide +kernel

/-- The same with a command presented that changes the base. -/
def cachedState : State :=
  { one (.tmlook 0 0 0) videoState with port := [⟨0x04_04000009_00000002, none⟩] }

/-- StepKeepsTheInvariant: the cached base 0x800 becomes stale and is dropped. -/
theorem witness_step_keeps_invariant : Inv cachedState ∧ step cachedState = .next (stepped cachedState) :=
  ⟨⟨videoState_inv.params, videoState_inv.romLength, videoState_inv.canonical, videoState_inv.bounded,
    videoState_inv.inert, videoState_inv.renderCache, videoState_inv.tileMapCache⟩, step_stepped (by decide +kernel)⟩

theorem witness_step_drops_the_base :
    cachedState.bgs[0].tmValid = true ∧ (stepped cachedState).bgs[0].tmValid = false := by
  decide +kernel

/-- ConstructedBlocksMeetTheInvariant. -/
theorem witness_constructed :
    construct Config.default (some 1) none (some [0x00, 0x08]) (some []) =
      .next (State.resetOf Config.default [0x00] []) := rfl

/-- FaultsAreLatchedAndChangeNothingElse, EachCommandRaisesOnlyItsFaults: a completion and a fault. -/
theorem witness_both_ends :
    (one (.rdb 0x08000001) imageState).rsp = ⟨0, 0x08⟩ ∧ (one (.rdb 0x08000002) imageState).rsp = ⟨0x02, 0⟩ ∧
    exec (.rdb 0x08000001) imageState = .next (one (.rdb 0x08000001) imageState) ∧
    exec (.rdb 0x08000002) imageState = .next (one (.rdb 0x08000002) imageState) :=
  ⟨by decide +kernel, by decide +kernel, exec_one (by decide +kernel), exec_one (by decide +kernel)⟩

/-- FaultsAreLatchedAndChangeNothingElse: the latch of each fault, its `info` by hand from the rule: the fourth byte of a
word at the end of RAM, the lowest byte of a write to no storage, a BIOS offset, a line, a background, a VRAM offset. -/
theorem witness_fault_records :
    (one (.rdw 0x03007FFD) imageState).flt = ⟨true, 0x01, 0x03008000, 0x02⟩ ∧
    (one (.wrh 0x07000000 0) imageState).flt = ⟨true, 0x02, 0x07000000, 0x05⟩ ∧
    (one (.brdw 3) imageState).flt = ⟨true, 0x01, 5, 0x12⟩ ∧
    (one (.render 3 160) imageState).flt = ⟨true, 0x04, 160, 0x20⟩ ∧
    (one (.tmlook 2 0 0) affineState).flt = ⟨true, 0x06, 2, 0x21⟩ ∧
    (one (.render 1 0) (palette256State 0x00 0x03)).flt = ⟨true, 0x05, 0x18000, 0x20⟩ := by
  decide +kernel

/-- LatchedFaultIsSticky: another fault follows. -/
theorem witness_sticky :
    (faultedState.withFetchWord 72 0x03_00000000_00000000).flt.valid = true ∧
    step (faultedState.withFetchWord 72 0x03_00000000_00000000) =
      .next (stepped (faultedState.withFetchWord 72 0x03_00000000_00000000)) :=
  ⟨rfl, step_stepped (by decide +kernel)⟩

/-- ChecksFollowTheAddressMap: both ends of every window, the addresses beside them, and the address space's ends. -/
theorem witness_routes :
    route 0x02000000 = some (.ewram, 0) ∧ route 0x0203FFFF = some (.ewram, 0x3FFFF) ∧ route 0x02040000 = none ∧
    route 0x03007FFF = some (.iwram, 0x7FFF) ∧ route 0x03008000 = none ∧ route 0x040003FE = some (.io, 0x3FE) ∧
    route 0x040003FF = none ∧ route 0x050003FF = some (.pal, 0x3FF) ∧ route 0x05000400 = none ∧
    route 0x06017FFF = some (.vram, 0x17FFF) ∧ route 0x06018000 = none ∧ route 0x06FFFFFF = none ∧
    route 0x07FFFFFF = some (.oam, 0xFFFFFF) ∧ route 0x08000000 = some (.rom, 0) ∧
    route 0x09FFFFFF = some (.rom, 0x1FFFFFF) ∧ route 0x0A000000 = none ∧ route 0 = none ∧ route 0xFFFFFFFF = none := by
  decide +kernel

/-- ChecksFollowTheAddressMap: each unbacked case at its boundary, and the backed byte beside it. -/
theorem witness_checks :
    check imageState 0x08000001 false = .ok (.rom, 1) ∧
    check imageState 0x08000002 false = .error (.unimplementedRegion 0x08000002) ∧
    check imageState 0x08000002 true = .ok (.rom, 2) ∧
    check { imageState with cfg := { Config.default with romWritePolicy := .fault } } 0x08000000 true =
      .error (.unimplementedRegion 0x08000000) ∧
    check { imageState with cfg := { Config.default with vramWired := false } } 0x06000000 false =
      .error (.unimplementedRegion 0x06000000) ∧
    check imageState 0x07000000 true = .error (.unimplementedRegion 0x07000000) ∧
    check { imageState with cfg := { Config.default with oamWired := true } } 0x070003FF false = .ok (.oam, 0x3FF) ∧
    check { imageState with cfg := { Config.default with oamWired := true } } 0x07000400 false =
      .error (.unimplementedRegion 0x07000400) := by
  decide +kernel

/-- PlainReadsComposeLittleEndian: four readable bytes. -/
theorem witness_reads :
    busRead8 ramState 0x03000000 = .ok 0x44 ∧ busRead8 ramState (0x03000000 + 1) = .ok 0x33 ∧
    busRead8 ramState (0x03000000 + 2) = .ok 0x22 ∧ busRead8 ramState (0x03000000 + 3) = .ok 0x11 := by
  decide +kernel

/-- PlainReadsComposeLittleEndian: the lowest failing byte is the first, second and fourth. -/
theorem witness_reads_fault :
    busRead8 imageState (0x08000002 + BitVec.ofNat 32 0) = .error (.unimplementedRegion 0x08000002) ∧
    (∀ j < 1, readableAt imageState (0x08000001 + BitVec.ofNat 32 j)) ∧
    busRead8 imageState (0x08000001 + BitVec.ofNat 32 1) = .error (.unimplementedRegion 0x08000002) ∧
    (∀ j < 3, readableAt imageState (0x03007FFD + BitVec.ofNat 32 j)) ∧
    busRead8 imageState (0x03007FFD + BitVec.ofNat 32 3) = .error (.badAddress 0x03008000) := by
  refine ⟨by decide +kernel, fun j hj => ?_, by decide +kernel, fun j hj => ?_, by decide +kernel⟩
  · obtain rfl : j = 0 := by omega
    exact ⟨0x08, by decide +kernel⟩
  · obtain rfl | rfl | rfl : j = 0 ∨ j = 1 ∨ j = 2 := by omega
    all_goals exact ⟨0, by decide +kernel⟩

/-- ReadableBytesAreTheStoredBytes: a byte of each region, I/O offset 0x208 among them. -/
theorem witness_readable_regions :
    check imageState 0x08000001 false = .ok (.rom, 1) ∧ check imageState 0x04000208 false = .ok (.io, 0x208) ∧
    check imageState 0x040003FE false = .ok (.io, 0x3FE) ∧ check imageState 0x03007FFF false = .ok (.iwram, 0x7FFF) ∧
    check imageState 0x0203FFFF false = .ok (.ewram, 0x3FFFF) ∧ check imageState 0x050003FF false = .ok (.pal, 0x3FF) ∧
    check imageState 0x06017FFF false = .ok (.vram, 0x17FFF) ∧
    check { imageState with cfg := { Config.default with oamWired := true } } 0x070003FF false = .ok (.oam, 0x3FF) := by
  decide +kernel

/-- PlainWritesStoreLittleEndian, WideWritesAreTheirByteWrites: four writable bytes at the end of a window. -/
theorem witness_writes :
    writableAt State.reset 0x03007FFC ∧ writableAt State.reset (0x03007FFC + 1) ∧
    writableAt State.reset (0x03007FFC + 2) ∧ writableAt State.reset (0x03007FFC + 3) :=
  ⟨⟨(.iwram, 0x7FFC), by decide +kernel⟩, ⟨(.iwram, 0x7FFD), by decide +kernel⟩, ⟨(.iwram, 0x7FFE), by decide +kernel⟩,
    ⟨(.iwram, 0x7FFF), by decide +kernel⟩⟩

/-- PlainWritesStoreLittleEndian: the lowest failing byte is the first, second and fourth. -/
theorem witness_writes_fault :
    check State.reset (0x03008000 + BitVec.ofNat 32 0) true = .error (.badAddress 0x03008000) ∧
    (∀ j < 1, writableAt State.reset (0x0203FFFF + BitVec.ofNat 32 j)) ∧
    check State.reset (0x0203FFFF + BitVec.ofNat 32 1) true = .error (.badAddress 0x02040000) ∧
    (∀ j < 3, writableAt State.reset (0x040003FC + BitVec.ofNat 32 j)) ∧
    check State.reset (0x040003FC + BitVec.ofNat 32 3) true = .error (.badAddress 0x040003FF) := by
  refine ⟨by decide +kernel, fun j hj => ?_, by decide +kernel, fun j hj => ?_, by decide +kernel⟩
  · obtain rfl : j = 0 := by omega
    exact ⟨(.ewram, 0x3FFFF), by decide +kernel⟩
  · obtain rfl | rfl | rfl : j = 0 ∨ j = 1 ∨ j = 2 := by omega
    · exact ⟨(.io, 0x3FC), by decide +kernel⟩
    · exact ⟨(.io, 0x3FD), by decide +kernel⟩
    · exact ⟨(.io, 0x3FE), by decide +kernel⟩

/-- WritesActByRegion: a writable byte of each region and of each kind of I/O offset. -/
theorem witness_write_regions :
    check imageState 0x08000000 true = .ok (.rom, 0) ∧ check imageState 0x03000000 true = .ok (.iwram, 0) ∧
    check imageState 0x02000000 true = .ok (.ewram, 0) ∧ check imageState 0x05000000 true = .ok (.pal, 0) ∧
    check imageState 0x06000000 true = .ok (.vram, 0) ∧
    check { imageState with cfg := { Config.default with oamWired := true } } 0x070003FF true = .ok (.oam, 0x3FF) ∧
    check imageState 0x04000208 true = .ok (.io, 0x208) ∧ check imageState 0x04000202 true = .ok (.io, 0x202) ∧
    check imageState 0x04000203 true = .ok (.io, 0x203) ∧ check imageState 0x04000209 true = .ok (.io, 0x209) ∧
    Config.default.ifOfs = 0x202 ∧ plainIo Config.default 0x209 = true ∧ plainIo Config.default 0x3FE = true ∧
    plainIo Config.default 0 = true ∧ plainIo Config.default 0x200 = true := by
  decide +kernel

/-- ReadAfterWriteGivesTheByteWritten: a RAM byte and a plain I/O byte. -/
theorem witness_read_after_write :
    check State.reset 0x03007FFF true = .ok (.iwram, 0x7FFF) ∧ check State.reset 0x04000010 true = .ok (.io, 0x10) ∧
    plainIo State.reset.cfg 0x10 = true := by
  decide +kernel

/-- OnlyAddressedBytesChange: a word write with a byte beside it, and a request with its other byte. -/
theorem witness_addressed_bytes :
    (∀ p ∈ stores (.wrw 0x03000000 0x11223344), route p.1 ≠ some (.iwram, 4)) ∧
    (∀ p ∈ stores (.irqreq 15), route p.1 ≠ some (.io, 0x202)) ∧ 0x202 ≠ Config.default.ifOfs + 15 / 8 ∧
    exec (.wrw 0x03000000 0x11223344) State.reset = .next (one (.wrw 0x03000000 0x11223344) State.reset) ∧
    exec (.irqreq 15) State.reset = .next (one (.irqreq 15) State.reset) :=
  ⟨each (by decide +kernel), each (by decide +kernel), by decide +kernel, exec_one (by decide +kernel),
    exec_one (by decide +kernel)⟩

/-- BusWritesReachBackgroundsOnlyByControlBytes: a word write of the control bytes of backgrounds 0 and 1 does not
address those of background 2. -/
theorem witness_control_bytes :
    stores (.wrw 0x04000008 0xFFFFFFFF) ≠ [] ∧
    (∀ p ∈ stores (.wrw 0x04000008 0xFFFFFFFF), route p.1 ≠ some (.io, State.reset.cfg.bgcntOfs[2]) ∧
      route p.1 ≠ some (.io, State.reset.cfg.bgcntOfs[2] + 1)) ∧
    exec (.wrw 0x04000008 0xFFFFFFFF) State.reset = .next (one (.wrw 0x04000008 0xFFFFFFFF) State.reset) :=
  ⟨by decide +kernel, each (by decide +kernel), exec_one (by decide +kernel)⟩

/-- ReadsHaveNoSideEffect. -/
theorem witness_read_only :
    isRead (.ldwc 0x03000001) = true ∧ exec (.ldwc 0x03000001) ramState = .next (one (.ldwc 0x03000001) ramState) :=
  ⟨rfl, exec_one (by decide +kernel)⟩

/-- The parameter premise of MasterEnableAddressIsInert, InterruptRegistersThroughTheBus, the Control statements,
RequestSetsItsFlag and RequestFlagsChangeOnlyByRequestAndAcknowledge, in a block with other offsets than the defaults. -/
theorem witness_params :
    paramsOk { Config.default with ieOfs := 0x3FC, ifOfs := 0x20A, bgcntOfs := #v[0x20C, 0, 0x206, 0x3FA] } = true := by
  decide +kernel

/-- ControlByteWritesCommute: parameters and canonical I/O bytes. -/
theorem witness_control_commute : paramsOk videoState.cfg = true ∧ videoState.io.wf = true := by decide +kernel

/-- ControlRegisterFieldsDecode: a register value of each size code. -/
theorem witness_size_codes :
    (0x3FFF : Half).toNat / 16384 = 0 ∧ (0x4000 : Half).toNat / 16384 = 1 ∧ (0xBFFF : Half).toNat / 16384 = 2 ∧
    (0xC000 : Half).toNat / 16384 = 3 := by
  decide

/-- RAM with an opcode at pc, and the words of the DMA-count addresses. -/
def loadState (t : InsnState) : State :=
  { ramState with cpu := cpuAt 0x03000000 t, io := [(0xB8, 0x78), (0xB9, 0x56), (0xBA, 0x34), (0xBB, 0x12)] }

/-- CheckedLoadCases: the source of each case, at the ends of its range. -/
theorem witness_checked_sources :
    checkedSource (loadState .arm) 0x03000001 = (0x03000000, 4) ∧
    checkedSource (loadState .arm) 0x03000003 = (0x03000000, 4) ∧
    checkedSource (loadState .thumb) 0x10000000 = (0x03000000, 2) ∧
    checkedSource (loadState .arm) 0x10000000 = (0x03000000, 4) ∧
    checkedSource (loadState .arm) 0xFFFFFFFC = (0x03000000, 4) ∧
    checkedSource (loadState .arm) 0x0FFFFFFC = (0x0FFFFFFC, 4) ∧
    checkedSource (loadState .arm) 0x040000B8 = (0x040000B8, 4) ∧ (0x040000B8 : Word) ∈ (loadState .arm).cfg.dmacntAddrs ∧
    (0x03000000 : Word) ∉ (loadState .arm).cfg.dmacntAddrs := by
  decide +kernel

theorem witness_checked_bytes :
    busRead8 (loadState .arm) 0x03000000 = .ok 0x44 ∧ busRead8 (loadState .arm) (0x03000000 + 1) = .ok 0x33 ∧
    busRead8 (loadState .arm) (0x03000000 + 2) = .ok 0x22 ∧ busRead8 (loadState .arm) (0x03000000 + 3) = .ok 0x11 ∧
    busRead8 (loadState .arm) 0x040000B8 = .ok 0x78 ∧ busRead8 (loadState .arm) (0x040000B8 + 1) = .ok 0x56 ∧
    busRead8 (loadState .arm) (0x040000B8 + 2) = .ok 0x34 ∧ busRead8 (loadState .arm) (0x040000B8 + 3) = .ok 0x12 := by
  decide +kernel

/-- CheckedLoadFaults: the third byte of the open-bus word at the end of RAM fails (vector V4). -/
theorem witness_checked_load_fault :
    2 < (checkedSource { State.reset with cpu := cpuAt 0x03007FFE .arm } 0x10000000).2 ∧
    (∀ j < 2, readableAt { State.reset with cpu := cpuAt 0x03007FFE .arm }
      ((checkedSource { State.reset with cpu := cpuAt 0x03007FFE .arm } 0x10000000).1 + BitVec.ofNat 32 j)) ∧
    busRead8 { State.reset with cpu := cpuAt 0x03007FFE .arm }
      ((checkedSource { State.reset with cpu := cpuAt 0x03007FFE .arm } 0x10000000).1 + BitVec.ofNat 32 2) =
      .error (.badAddress 0x03008000) := by
  refine ⟨by decide +kernel, fun j hj => ?_, by decide +kernel⟩
  obtain rfl | rfl : j = 0 ∨ j = 1 := by omega
  all_goals exact ⟨0, by decide +kernel⟩

/-- CheckedStoreAlignsDown: the last word of RAM by its last byte, and the last word of the I/O block, of which the
fourth byte fails. -/
theorem witness_checked_store :
    writableAt State.reset (BitVec.ofNat 32 ((0x03007FFF : Word).toNat / 4 * 4)) ∧
    writableAt State.reset (BitVec.ofNat 32 ((0x03007FFF : Word).toNat / 4 * 4) + 1) ∧
    writableAt State.reset (BitVec.ofNat 32 ((0x03007FFF : Word).toNat / 4 * 4) + 2) ∧
    writableAt State.reset (BitVec.ofNat 32 ((0x03007FFF : Word).toNat / 4 * 4) + 3) ∧
    (∀ j < 3, writableAt State.reset (BitVec.ofNat 32 ((0x040003FE : Word).toNat / 4 * 4) + BitVec.ofNat 32 j)) ∧
    check State.reset (BitVec.ofNat 32 ((0x040003FE : Word).toNat / 4 * 4) + BitVec.ofNat 32 3) true =
      .error (.badAddress 0x040003FF) := by
  refine ⟨⟨(.iwram, 0x7FFC), by decide +kernel⟩, ⟨(.iwram, 0x7FFD), by decide +kernel⟩,
    ⟨(.iwram, 0x7FFE), by decide +kernel⟩, ⟨(.iwram, 0x7FFF), by decide +kernel⟩, fun j hj => ?_, by decide +kernel⟩
  obtain rfl | rfl | rfl : j = 0 ∨ j = 1 ∨ j = 2 := by omega
  · exact ⟨(.io, 0x3FC), by decide +kernel⟩
  · exact ⟨(.io, 0x3FD), by decide +kernel⟩
  · exact ⟨(.io, 0x3FE), by decide +kernel⟩

/-- CheckedStoreThenLoadRotates: the ends of the window. -/
theorem witness_store_then_load :
    paramsOk State.reset.cfg = true ∧ 0x03000000 ≤ (0x03000000 : Word).toNat ∧ (0x03007FFF : Word).toNat ≤ 0x03007FFF := by
  decide +kernel

/-- CheckedStoreThenLoadRotates: the four bytes of a word of a background's control registers, of a DMA-count word, and of
the last word of external work RAM, the palette, video RAM and wired OAM keep what is written to them. -/
theorem witness_keeps_bytes :
    (∀ a ∈ [0x04000008, 0x04000009, 0x0400000A, 0x0400000B, 0x040000B8, 0x040000B9, 0x040000BA, 0x040000BB, 0x0203FFFC,
      0x0203FFFD, 0x0203FFFE, 0x0203FFFF, 0x050003FC, 0x050003FD, 0x050003FE, 0x050003FF, 0x06017FFC, 0x06017FFD,
      0x06017FFE, 0x06017FFF, (0x070003FC : Word), 0x070003FD, 0x070003FE, 0x070003FF],
      keepsByte { State.reset with cfg := { Config.default with oamWired := true } } a) := by
  have h : ∀ {s : State} {a : Word}, (match check s a true with
      | .ok (r, o) => decide (r ≠ .rom ∧ (r = .io → o ≠ 0x208 ∧ o ≠ s.cfg.ifOfs ∧ o ≠ s.cfg.ifOfs + 1))
      | .error _ => false) = true → keepsByte s a := by
    intro s a h
    split at h
    · next r o hc =>
      obtain ⟨h1, h2⟩ := of_decide_eq_true h
      exact ⟨r, o, hc, h1, h2⟩
    · cases h
  intro a ha
  exact h (each (P := fun a => (match check { State.reset with cfg := { Config.default with oamWired := true } } a true with
      | .ok (r, o) => decide (r ≠ .rom ∧ (r = .io → o ≠ 0x208 ∧ o ≠ Config.default.ifOfs ∧ o ≠ Config.default.ifOfs + 1))
      | .error _ => false) = true) (by decide +kernel) a ha)

/-- LeafReadsComposeTheImage: the last offset that passes and the first that fails, for each width, and the largest. -/
theorem witness_leaf_reads :
    (4 : Word).toNat + 1 ≤ imageState.bios.length ∧ (3 : Word).toNat + 2 ≤ imageState.bios.length ∧
    (1 : Word).toNat + 4 ≤ imageState.bios.length ∧ imageState.bios.length < (5 : Word).toNat + 1 ∧
    imageState.bios.length < (4 : Word).toNat + 2 ∧ imageState.bios.length < (2 : Word).toNat + 4 ∧
    imageState.bios.length < (0xFFFFFFFF : Word).toNat + 4 := by
  decide +kernel

/-- TileMapLookupRespondsTheEntry, RenderRefusals: a regular and an affine background. -/
theorem witness_affine : videoState.bgs[0].affine = false ∧ affineState.bgs[2].affine = true := by decide +kernel

/-- TileMapLookupIsPeriodic, RenderIsPeriodicInScroll: no overflow up to the last column and row. -/
theorem witness_periodic :
    bgSize videoState 0 = (256, 256) ∧ (0xFEFF : Half).toNat + 256 < 65536 ∧ (256 : Half).toNat = (bgSize videoState 0).1 ∧
    videoState.bgs[0].scrollX.toNat + (256 : Half).toNat < 65536 ∧
    videoState.bgs[0].scrollY.toNat + (256 : Half).toNat < 65536 := by
  decide +kernel

/-- RenderIsPeriodicInScroll: both renders answer. -/
theorem witness_render_answers :
    exec (.render 0 0) videoState = .next (one (.render 0 0) videoState) ∧
    exec (.render 0 0) (modifyBg videoState 0 fun b => { b with scrollX := b.scrollX + 256, scrollY := b.scrollY + 0 }) =
      .next (one (.render 0 0)
        (modifyBg videoState 0 fun b => { b with scrollX := b.scrollX + 256, scrollY := b.scrollY + 0 })) :=
  ⟨exec_one (by decide +kernel), exec_one (by decide +kernel)⟩

/-- LookupsUseTheCurrentBase, TileMapAndSixteenColourFetchesStayInsideVideoRam: the invariant, a regular background, a base cached. -/
theorem witness_lookup :
    Inv (one (.tmlook 0 0 0) videoState) ∧ (one (.tmlook 0 0 0) videoState).bgs[0].affine = false ∧
    (one (.tmlook 0 0 0) videoState).bgs[0].tmValid = true :=
  ⟨videoState_inv, by decide +kernel, by decide +kernel⟩

/-- TileMapCacheIsUnobservable: the cached state with the cache dropped meets the invariant too. -/
theorem witness_cache :
    Inv (one (.tmlook 0 0 0) videoState) ∧ Inv (withTileMapCache (one (.tmlook 0 0 0) videoState) 0 false 0x1234) :=
  ⟨videoState_inv,
    { params := by decide +kernel, romLength := by decide +kernel, canonical := by decide +kernel,
      bounded := by decide +kernel, inert := by decide +kernel, renderCache := by decide +kernel,
      tileMapCache := by decide +kernel }⟩

/-- RenderDrawsSixteenColourRow, RenderRefusals: the last line, and the first that is refused. -/
theorem witness_render_lines :
    (159 : BitVec 8).toNat < videoState.cfg.screenH ∧ videoState.bgs[0].pal256 = false ∧
    videoState.cfg.screenH ≤ (160 : BitVec 8).toNat := by
  decide +kernel

/-- RenderDrawsTwoFiftySixColourRow: tile 767 is the last inside video RAM, tile 768 the first outside (vector V7). -/
theorem witness_render_256 :
    (palette256State 0xFF 0x02).bgs[1].pal256 = true ∧ (palette256State 0xFF 0x02).bgs[1].affine = false ∧
    (palette256State 0xFF 0x02).cfg.pal256Render = .byAnalogy ∧
    (∀ x < 240, tileByte8 (palette256State 0xFF 0x02) 1 7 x < 0x18000) ∧
    0x18000 ≤ tileByte8 (palette256State 0x00 0x03) 1 0 0 := by
  decide +kernel

/-- RenderRefusals: a 256-colour background where the parameter refuses it. -/
theorem witness_render_refused :
    (State.resetOf { Config.default with pal256Render := .refuse } [] []).cfg.pal256Render = .refuse := rfl

/-- PollTakesTheInterruptOrDoesNothing, TakenPollIsNotTakenAgain, InterruptVectorIsUnmapped: a poll that is taken under
both values of the parameter, and one that is not. -/
theorem witness_poll :
    irqState.ime = true ∧ irqState.cpu.cpsr.i = false ∧ ifReg irqState ≠ 0 ∧ ifReg irqState &&& ieReg irqState ≠ 0 ∧
    (one .irqproc irqState).rsp.data = 1 ∧ State.reset.ime = false ∧
    exec .irqproc irqState = .next (one .irqproc irqState) ∧ (0x10000000 : Word).toNat % 4 = 0 :=
  ⟨rfl, rfl, by decide +kernel, by decide +kernel, by decide +kernel, rfl, exec_one (by decide +kernel), by decide⟩

/-- PollTakesTheInterruptOrDoesNothing: the link of a processor whose pc is 8 ahead in ARM and 4 ahead in Thumb state, of one
whose value is given for the record, and of any other (44_irq R214). -/
theorem witness_link :
    (one .irqproc { irqState with cfg := { Config.default with
      curInsnAddr := .pcPlus 0xFFFFFFF8 0xFFFFFFFC } }).cpu.lrIrq = 0x030000FE ∧
    (one .irqproc { irqState with cpu := cpuAt 0x03000108 .arm, cfg := { Config.default with
      curInsnAddr := .pcPlus 0xFFFFFFF8 0xFFFFFFFC } }).cpu.lrIrq = 0x03000104 ∧
    (one .irqproc { irqState with cfg := { Config.default with
      curInsnAddr := .table [(cpuAt 0x03000100 .thumb, 0x1234)] .pc } }).cpu.lrIrq = 0x1236 ∧
    ({ Config.default with curInsnAddr := .supplied 7 } : Config).curInsnAddr = .supplied 7 := by
  decide +kernel

/-- RequestFlagsChangeOnlyByRequestAndAcknowledge: a flag that becomes set and one that becomes clear. -/
theorem witness_request_flags :
    (ifReg irqState).getLsbD 15 = false ∧ (ifReg (one (.irqreq 15) irqState)).getLsbD 15 = true ∧
    (ifReg irqState).getLsbD 1 = true ∧ (ifReg (one (.wrb 0x04000202 0x02) irqState)).getLsbD 1 = false ∧
    exec (.irqreq 15) irqState = .next (one (.irqreq 15) irqState) ∧
    exec (.wrb 0x04000202 0x02) irqState = .next (one (.wrb 0x04000202 0x02) irqState) :=
  ⟨by decide +kernel, by decide +kernel, by decide +kernel, by decide +kernel, exec_one (by decide +kernel),
    exec_one (by decide +kernel)⟩

/-- ParametersAndImagesNeverChange, OnlyThePollWritesTheProcessorRecord, RegistersChangeOnlyByTheirWriters: a command that
changes background registers and answers a next state. -/
theorem witness_writers :
    exec (.scrlwr 1 .x 7) videoState = .next (one (.scrlwr 1 .x 7) videoState) ∧
    (∀ v, (Instr.scrlwr 1 .x 7) ≠ .imewr v) ∧ (∀ v, (Instr.scrlwr 1 .x 7) ≠ .scrlwr 1 .y v) ∧
    (∀ v, (Instr.scrlwr 1 .x 7) ≠ .affwr 1 v) ∧ (∀ k l, (Instr.scrlwr 1 .x 7) ≠ .render k l) ∧
    (∀ v, (Instr.imewr true) ≠ .scrlwr 1 .x v) ∧ (Instr.scrlwr 1 .x 7) ≠ .irqproc ∧ step cachedState = .next (stepped cachedState) :=
  ⟨exec_one (by decide +kernel), nofun, nofun, nofun, nofun, nofun, nofun,
    step_stepped (by decide +kernel)⟩

/-- RegistersChangeOnlyByTheirWriters: word writes beside a control register, the enable mask and the request flags. -/
theorem witness_stores_not_to :
    (∀ p ∈ stores (.wrw 0x0400000A 0xFFFFFFFF), route p.1 ≠ some (.io, 8) ∧ route p.1 ≠ some (.io, 8 + 1)) ∧
    (∀ p ∈ stores (.wrh 0x04000202 0xFFFF), route p.1 ≠ some (.io, 0x200) ∧ route p.1 ≠ some (.io, 0x200 + 1)) ∧
    (∀ p ∈ stores (.wrh 0x04000204 0xFFFF), route p.1 ≠ some (.io, 0x202) ∧ route p.1 ≠ some (.io, 0x202 + 1)) ∧
    exec (.wrw 0x0400000A 0xFFFFFFFF) videoState = .next (one (.wrw 0x0400000A 0xFFFFFFFF) videoState) :=
  ⟨each (by decide +kernel), each (by decide +kernel), each (by decide +kernel), exec_one (by decide +kernel)⟩

/-- ModeIsNeverTested: a command that looks at the processor's record, and a poll. -/
theorem witness_mode :
    (Instr.ldwc 0x10000000) ≠ .irqproc ∧ exec (.ldwc 0x10000000) irqState = .next (one (.ldwc 0x10000000) irqState) ∧
    exec .irqproc irqState = .next (one .irqproc irqState) ∧ (one .irqproc irqState).rsp.data = 1 ∧
    (one .irqproc State.reset).rsp.data = 0 :=
  ⟨nofun, exec_one (by decide +kernel), exec_one (by decide +kernel), by decide +kernel, by decide +kernel⟩

/-- HeaderViewsReadTheImage: images of the smallest length that passes and the largest that fails, for each view. -/
theorem witness_header :
    4 ≤ (List.replicate 4 (0 : Byte)).length ∧ (List.replicate 3 (0 : Byte)).length < 4 ∧
    0xAC ≤ (List.replicate 0xAC (0 : Byte)).length ∧ (List.replicate 0xAB (0 : Byte)).length < 0xAC := by
  decide +kernel

end Sys2Proof.Tests
end

section
/-! SUPPORT. What a command can do to the state, said once (`exec_next`, `Effect`), and what a sequence of bus stores
leaves unchanged; the statements about the state follow from these. -/

namespace Sys2Proof.Machine

/-! ## Bus stores one after another -/

/-- Bytes stored through the bus one after another, in the form in which `stores` lists those of a command. -/
def storeAll (s : State) (l : List (Word × Byte)) : State := l.foldl (fun u p => busWrite8 u p.1 p.2) s

/-- The bytes of an access paired with their ascending addresses. -/
def bytesAt : Word → List Byte → List (Word × Byte)
  | _, [] => []
  | a, b :: bs => (a, b) :: bytesAt (a + 1) bs

theorem writeBytes_eq_storeAll (s : State) (a : Word) (bs : List Byte) :
    writeBytes s a bs = storeAll s (bytesAt a bs) := by
  induction bs generalizing s a with
  | nil => rfl
  | cons b bs ih => exact ih _ _

theorem checkBytes_writable {s : State} {a : Word} {bs : List Byte} (h : checkBytes s true a bs.length = .ok ()) :
    ∀ p ∈ bytesAt a bs, writableAt s p.1 := by
  induction bs generalizing a with
  | nil => nofun
  | cons b bs ih =>
    rw [List.length_cons, checkBytes] at h
    split at h
    · cases h
    · next p hp => exact List.forall_mem_cons.2 ⟨⟨p, hp⟩, ih h⟩

/-- A passed `MemWrite` stores the bytes of the value one after another, each at a writable address. -/
theorem memWrite_storeAll {s t : State} {a v : Word} {n : Nat} (h : memWrite s a n v = .ok t) :
    (∀ p ∈ bytesAt a (bytesLE v n), writableAt s p.1) ∧ t = storeAll s (bytesAt a (bytesLE v n)) := by
  obtain ⟨hc, rfl⟩ := memWrite_ok h
  refine ⟨checkBytes_writable ?_, writeBytes_eq_storeAll _ _ _⟩
  rwa [bytesLE, List.length_map, List.length_range]

theorem stores_wrw (a v : Word) : stores (.wrw a v) = bytesAt a (bytesLE v 4) := by
  simp only [stores, ← add_two_one, ← add_one_one]
  rfl

/-- A checked store stores as WRW does at the aligned address (41_bus_checked R153). -/
theorem stores_stwc (a v : Word) : stores (.stwc a v) = bytesAt (alignDown a) (bytesLE v 4) :=
  stores_wrw (alignDown a) v

theorem storeAll_frame (s : State) (l : List (Word × Byte)) : BusFrame s (storeAll s l) := by
  induction l generalizing s with
  | nil => exact BusFrame.refl s
  | cons p l ih => exact (busWrite8_frame s p.1 p.2).trans (ih _)

/-- Stores change no byte that none of them is directed to. -/
theorem storeAll_byteAt {s : State} {l : List (Word × Byte)} {r : Region} {o : Nat}
    (h : ∀ p ∈ l, route p.1 ≠ some (r, o)) : byteAt (storeAll s l) r o = byteAt s r o := by
  induction l generalizing s with
  | nil => rfl
  | cons p l ih =>
    obtain ⟨hp, hl⟩ := List.forall_mem_cons.1 h
    exact (ih hl).trans (busWrite8_byteAt s p.1 p.2 r o hp)

/-- Stores beside a 16-bit register of the I/O bytes leave it (10_state R29). -/
theorem storeAll_halfView {s : State} {i : Instr} {o : Nat} (h : storesNotTo i o) :
    halfView (storeAll s (stores i)).io o = halfView s.io o := by
  have hlo := storeAll_byteAt (s := s) fun p hp => (h p hp).1
  have hhi := storeAll_byteAt (s := s) fun p hp => (h p hp).2
  exact congrArg₂ (· ++ ·) hhi hlo

/-- Stores beside a background's control bytes leave the background. -/
theorem storeAll_bg {s : State} {l : List (Word × Byte)} {k : BgIndex}
    (h : ∀ p ∈ l, route p.1 ≠ some (.io, s.cfg.bgcntOfs[k]) ∧ route p.1 ≠ some (.io, s.cfg.bgcntOfs[k] + 1)) :
    (storeAll s l).bgs[k] = s.bgs[k] := by
  induction l generalizing s with
  | nil => rfl
  | cons p l ih =>
    obtain ⟨⟨hp0, hp1⟩, hl⟩ := List.forall_mem_cons.1 h
    rw [← (busWrite8_frame s p.1 p.2).cfg] at hl
    exact (ih hl).trans (busWrite8_bg s p.1 p.2 k hp0 hp1)

/-- No bus write changes the byte stored at I/O offset 0x208 (10_state R30). -/
theorem busWrite8_inert (s : State) (a : Word) (v : Byte) :
    cellsRead (busWrite8 s a v).io 0x208 = cellsRead s.io 0x208 := by
  by_cases h : route a = some (.io, 0x208)
  · simp [busWrite8, h, storeByte, ioWrite8]
  · exact busWrite8_byteAt s a v .io 0x208 h

theorem storeAll_inert (s : State) (l : List (Word × Byte)) :
    cellsRead (storeAll s l).io 0x208 = cellsRead s.io 0x208 := by
  induction l generalizing s with
  | nil => rfl
  | cons p l ih => exact (ih _).trans (busWrite8_inert s p.1 p.2)

/-! ## What a command can do -/

/-- What a command that completes does to the state before its response is set: the state `u` it leads to from `s`. -/
inductive Effect (s : State) : Instr → State → Prop
  | read {i : Instr} (hr : isRead i = true) : Effect s i s
  | write {i : Instr} (hs : stores i ≠ []) (hw : ∀ p ∈ stores i, writableAt s p.1) :
      Effect s i (storeAll s (stores i))
  | render (bg : BgIndex) (line : BitVec 8) (row : List Half) (hl : line.toNat < s.cfg.screenH)
      (hr : row.length = screenW) :
      Effect s (.render bg line)
        { s with bgs := bgsAfterLookup s bg, fb := writePixels s.fb (line.toNat * screenW) row }
  | tmlook (bg : BgIndex) (bgX bgY : Half) : Effect s (.tmlook bg bgX bgY) { s with bgs := bgsAfterLookup s bg }
  | scrollX (bg : BgIndex) (v : Half) : Effect s (.scrlwr bg .x v) (modifyBg s bg fun b => { b with scrollX := v })
  | scrollY (bg : BgIndex) (v : Half) : Effect s (.scrlwr bg .y v) (modifyBg s bg fun b => { b with scrollY := v })
  | affwr (bg : BgIndex) (flag : Bool) : Effect s (.affwr bg flag) (modifyBg s bg fun b => { b with affine := flag })
  | bgrst (bg : BgIndex) : Effect s (.bgrst bg) (resetTileMap (recache s bg) bg)
  | irqreq (source : Fin 16) : Effect s (.irqreq source) (requestIrq s source)
  | pollTaken : Effect s .irqproc (takeIrq s)
  | pollIdle : Effect s .irqproc s
  | imewr (v : Bool) : Effect s (.imewr v) { s with ime := v }

/-- The ways a command can end: a fault delivered in the old state, or its effect completed with a data word. -/
def Ends (s : State) (i : Instr) (t : State) : Prop :=
  (∃ op f, t = raiseFault s op f) ∨ ∃ u d, Effect s i u ∧ t = complete u d

theorem Ends.of_finishRead {s t : State} {i : Instr} {op : Byte} {e : Except BlockFault Word} (hr : isRead i = true)
    (h : finishRead s op e = .next t) : Ends s i t := by
  rcases finishRead_next h with ⟨v, -, rfl⟩ | ⟨f, -, rfl⟩
  · exact .inr ⟨s, v, .read hr, rfl⟩
  · exact .inl ⟨op, f, rfl⟩

theorem Ends.of_finishWrite {s t : State} {i : Instr} {op : Byte} {e : Except BlockFault State}
    (hu : ∀ u, e = .ok u → Effect s i u) (h : finishWrite s op e = .next t) : Ends s i t := by
  rcases finishWrite_next h with ⟨u, he, rfl⟩ | ⟨f, -, rfl⟩
  · exact .inr ⟨u, 0, hu u he, rfl⟩
  · exact .inl ⟨op, f, rfl⟩

theorem Effect.of_memWrite {s u : State} {i : Instr} {a v : Word} {n : Nat} (hi : stores i = bytesAt a (bytesLE v n))
    (hs : stores i ≠ []) (h : memWrite s a n v = .ok u) : Effect s i u := by
  obtain ⟨hw, rfl⟩ := memWrite_storeAll h
  rw [← hi] at hw ⊢
  exact .write hs hw

theorem Effect.of_renderRow {s u : State} {bg : BgIndex} {line : BitVec 8} (hl : line.toNat < s.cfg.screenH)
    (h : renderRow s bg line.toNat = .ok u) : Effect s (.render bg line) u := by
  obtain ⟨row, hrow, rfl⟩ := renderRow_ok h
  rw [tmBaseGet_eq]
  exact .render bg line row hl (rowColors_ok hrow).1

/-- What RENDER can do (43_render R190). -/
theorem execRender_ends {s t : State} {bg : BgIndex} {line : BitVec 8} (h : execRender bg line s = .next t) :
    Ends s (.render bg line) t := by
  unfold execRender at h
  simp only [] at h
  split at h
  · cases h; exact .inl ⟨_, _, rfl⟩
  · next hl =>
    split at h
    · cases h; exact .inl ⟨_, _, rfl⟩
    · split at h
      · cases h; exact .inl ⟨_, _, rfl⟩
      · exact .of_finishWrite (fun u => Effect.of_renderRow (by omega)) h

/-- What TMLOOK can do (42_bgcnt_tilemap R175). -/
theorem execTmlook_ends {s t : State} {bg : BgIndex} {bgX bgY : Half} (h : execTmlook bg bgX bgY s = .next t) :
    Ends s (.tmlook bg bgX bgY) t := by
  unfold execTmlook at h
  simp only [] at h
  split at h
  · cases h; exact .inl ⟨_, _, rfl⟩
  · cases h
    rw [tmBaseGet_eq]
    exact .inr ⟨_, _, .tmlook bg bgX bgY, rfl⟩

/-- What IRQPROC can do (44_irq R212). -/
theorem execIrqproc_ends {s t : State} (h : execIrqproc s = .next t) : Ends s .irqproc t := by
  unfold execIrqproc at h
  split at h
  · cases h; exact .inr ⟨_, _, .pollTaken, rfl⟩
  · cases h; exact .inr ⟨_, _, .pollIdle, rfl⟩

/-- Everything a command can do. -/
theorem exec_next {i : Instr} {s t : State} (h : exec i s = .next t) : Ends s i t := by
  cases i with
  | rdb | rdh | rdw | ldwc | brdb | brdh | brdw => exact .of_finishRead rfl h
  | wrb | wrh => exact .of_finishWrite (fun u => Effect.of_memWrite rfl nofun) h
  | wrw a v => exact .of_finishWrite (fun u => Effect.of_memWrite (stores_wrw a v) nofun) h
  | stwc a v => exact .of_finishWrite (fun u => Effect.of_memWrite (stores_stwc a v) nofun) h
  | render => exact execRender_ends h
  | tmlook => exact execTmlook_ends h
  | scrlwr bg axis v =>
    cases axis with
    | x => cases h; exact .inr ⟨_, _, .scrollX bg v, rfl⟩
    | y => cases h; exact .inr ⟨_, _, .scrollY bg v, rfl⟩
  | affwr bg flag => cases h; exact .inr ⟨_, _, .affwr bg flag, rfl⟩
  | bgrst bg => cases h; exact .inr ⟨_, _, .bgrst bg, rfl⟩
  | irqreq n => cases h; exact .inr ⟨_, _, .irqreq n, rfl⟩
  | irqproc => exact execIrqproc_ends h
  | imewr v => cases h; exact .inr ⟨_, _, .imewr v, rfl⟩

/-- Everything a step can do: nothing, the decoded command, or the report of a reserved word (30_encoding R100, R108). -/
theorem step_next {s t : State} (h : step s = .next t) :
    t = s ∨ ∃ p rest, s.port = p :: rest ∧
      ((∃ i, decode p.word = .ok i ∧ exec i (takeCommand s p rest) = .next t) ∨
        t = reservedCommand (takeCommand s p rest) (opOf p.word)) := by
  unfold step at h
  split at h
  · cases h; exact .inl rfl
  · next p rest hp =>
    refine .inr ⟨p, rest, hp, ?_⟩
    split at h
    · next i hi => exact .inl ⟨i, hi, h⟩
    · cases h; exact .inr rfl

/-! ## What a command leaves unchanged -/

/-- No command changes the parameters, the images or the port; a completing one leaves the latch. -/
theorem Effect.fixed {s u : State} {i : Instr} (h : Effect s i u) :
    u.cfg = s.cfg ∧ u.rom = s.rom ∧ u.bios = s.bios ∧ u.port = s.port ∧ u.flt = s.flt := by
  cases h with
  | write =>
    have f := storeAll_frame s (stores i)
    exact ⟨f.cfg, f.rom, f.bios, f.port, f.flt⟩
  | _ => exact ⟨rfl, rfl, rfl, rfl, rfl⟩

theorem Effect.cpu {s u : State} {i : Instr} (h : Effect s i u) (hi : i ≠ .irqproc) : u.cpu = s.cpu := by
  cases h with
  | write => exact (storeAll_frame s (stores i)).cpu
  | pollTaken => exact absurd rfl hi
  | _ => rfl

theorem Effect.ime {s u : State} {i : Instr} (h : Effect s i u) (hi : ∀ v, i ≠ .imewr v) : u.ime = s.ime := by
  cases h with
  | write => exact (storeAll_frame s (stores i)).ime
  | imewr v => exact absurd rfl (hi v)
  | _ => rfl

theorem Effect.fb {s u : State} {i : Instr} (h : Effect s i u) (hi : ∀ k l, i ≠ .render k l) : u.fb = s.fb := by
  cases h with
  | write => exact (storeAll_frame s (stores i)).fb
  | render bg line => exact absurd rfl (hi bg line)
  | _ => rfl

/-- A 16-bit register of the I/O bytes changes only by a bus write of its bytes or, where it shares a byte with IF, by
IRQREQ. -/
theorem Effect.ioHalf {s u : State} {i : Instr} (h : Effect s i u) {o : Nat} (hs : storesNotTo i o)
    (hq : (∀ n, i ≠ .irqreq n) ∨ o ≠ s.cfg.ifOfs ∧ o ≠ s.cfg.ifOfs + 1 ∧ o + 1 ≠ s.cfg.ifOfs) :
    halfView u.io o = halfView s.io o := by
  cases h with
  | write => exact storeAll_halfView hs
  | irqreq n =>
    rcases hq with hq | hq
    · exact absurd rfl (hq n)
    · simp only [requestIrq, setIo_io, halfView]
      rw [cellsRead_write_other, cellsRead_write_other] <;> split <;> omega
  | _ => rfl

/-- With legal parameters no command changes the byte stored at I/O offset 0x208 (10_state R30). -/
theorem Effect.inert {s u : State} {i : Instr} (h : Effect s i u) (hp : paramsOk s.cfg = true) :
    cellsRead u.io 0x208 = cellsRead s.io 0x208 := by
  cases h with
  | write => exact storeAll_inert s (stores i)
  | irqreq n =>
    have hif := (offsetFacts hp).if_
    rw [requestIrq, setIo_io, cellsRead_write_other]
    split <;> omega
  | _ => rfl

/-- What a command can do to background `k` of a state, by its writers (10_state R33 to R36): the background it becomes. -/
inductive BgEffect (s : State) (k : BgIndex) : Instr → Background → Prop
  | same {i : Instr} : BgEffect s k i s.bgs[k]
  | scrollX (v : Half) : BgEffect s k (.scrlwr k .x v) { s.bgs[k] with scrollX := v }
  | scrollY (v : Half) : BgEffect s k (.scrlwr k .y v) { s.bgs[k] with scrollY := v }
  | affine (v : Bool) : BgEffect s k (.affwr k v) { s.bgs[k] with affine := v }
  | lookup {i : Instr} (hi : (∃ l, i = .render k l) ∨ ∃ x y, i = .tmlook k x y) :
      BgEffect s k i { s.bgs[k] with tmBase := tmBaseOf s k, tmValid := true }
  | control {i : Instr} {b : Background} (hi : i = .bgrst k ∨ ¬storesNotTo i s.cfg.bgcntOfs[k])
      (hx : b.scrollX = s.bgs[k].scrollX) (hy : b.scrollY = s.bgs[k].scrollY) (ha : b.affine = s.bgs[k].affine) :
      BgEffect s k i b

/-- A change of one background is an effect on background `k` if it is one where it is the change of `k`. -/
theorem BgEffect.set {s : State} {k bg : BgIndex} {i : Instr} {b : Background} (h : k = bg → BgEffect s k i b) :
    BgEffect s k i (s.bgs.set bg b)[k] := by
  rw [bgs_set_get]
  split
  · next e => exact h e
  · exact .same

/-- Everything a command can do to background `k`. -/
theorem Effect.bg {s u : State} {i : Instr} (h : Effect s i u) (k : BgIndex) : BgEffect s k i u.bgs[k] := by
  cases h with
  | read | irqreq | pollTaken | pollIdle | imewr => exact .same
  | write =>
    by_cases hn : storesNotTo i s.cfg.bgcntOfs[k]
    · rw [storeAll_bg hn]
      exact .same
    · obtain ⟨hx, hy, ha, -⟩ := (storeAll_frame s (stores i)).bgs k
      exact .control (.inr hn) hx hy ha
  | render bg line => exact .set (by rintro rfl; exact .lookup (.inl ⟨line, rfl⟩))
  | tmlook bg x y => exact .set (by rintro rfl; exact .lookup (.inr ⟨x, y, rfl⟩))
  | scrollX bg v => exact .set (by rintro rfl; exact .scrollX v)
  | scrollY bg v => exact .set (by rintro rfl; exact .scrollY v)
  | affwr bg v => exact .set (by rintro rfl; exact .affine v)
  | bgrst bg =>
    rw [resetTileMap, recache, modifyBg_modifyBg]
    exact .set (by rintro rfl; exact .control (.inl rfl) rfl rfl rfl)

end Sys2Proof.Machine
end

section
/-! The statements about what a step leaves unchanged, each from what a command can do (`exec_next`). -/

namespace Sys2Proof.Machine

/-! ## Parameters, images, latch, processor record -/

theorem exec_fixed {i : Instr} {s t : State} (h : exec i s = .next t) :
    t.cfg = s.cfg ∧ t.rom = s.rom ∧ t.bios = s.bios := by
  rcases exec_next h with ⟨op, f, rfl⟩ | ⟨u, d, he, rfl⟩
  · exact ⟨rfl, rfl, rfl⟩
  · obtain ⟨hcfg, hrom, hbios, -, -⟩ := he.fixed
    exact ⟨hcfg, hrom, hbios⟩

/-- Settles O55: a step takes a command, which changes none of the three, or changes nothing, or latches a fault. -/
theorem parametersAndImagesNeverChange : Obligations.ParametersAndImagesNeverChange := by
  intro s t h
  rcases step_next h with rfl | ⟨p, rest, -, ⟨i, -, hi⟩ | rfl⟩
  · exact ⟨rfl, rfl, rfl⟩
  · exact exec_fixed (s := takeCommand s p rest) hi
  · exact ⟨rfl, rfl, rfl⟩

/-- A latch that holds a fault keeps it (10_state R46). -/
theorem latchFault_of_valid {l : FaultLatch} (h : l.valid = true) (op : Byte) (f : BlockFault) :
    latchFault l op f = l := by
  rw [latchFault, if_pos h]

theorem exec_latched {i : Instr} {s t : State} (hv : s.flt.valid = true) (h : exec i s = .next t) : t.flt = s.flt := by
  rcases exec_next h with ⟨op, f, rfl⟩ | ⟨u, d, he, rfl⟩
  · exact latchFault_of_valid hv op f
  · obtain ⟨-, -, -, -, hflt⟩ := he.fixed
    exact hflt

/-- Settles O15: only the delivery of a fault writes the latch, and it leaves one that is set. -/
theorem latchedFaultIsSticky : Obligations.LatchedFaultIsSticky := by
  intro s t hv h
  rcases step_next h with rfl | ⟨p, rest, -, ⟨i, -, hi⟩ | rfl⟩
  · rfl
  · exact exec_latched (s := takeCommand s p rest) hv hi
  · exact latchFault_of_valid hv _ _

/-- Settles O56: a fault and the effect of every other command leave the processor record. -/
theorem onlyThePollWritesTheProcessorRecord : Obligations.OnlyThePollWritesTheProcessorRecord := by
  intro i s t hi h
  rcases exec_next h with ⟨op, f, rfl⟩ | ⟨u, d, he, rfl⟩
  · rfl
  · exact he.cpu hi

/-! ## The master-enable address (10_state R30) -/

theorem busRead8_0x208 (s : State) : busRead8 s 0x04000208 = .ok 0 :=
  busRead8_ioAddr (o := 0x208) (by omega)

theorem busWrite8_0x208 (s : State) (v : Byte) : busWrite8 s 0x04000208 v = s :=
  busWrite8_ioAddr (o := 0x208) (by omega) v

theorem busRead8_0x209 (s : State) : busRead8 s 0x04000209 = .ok (cellsRead s.io 0x209) :=
  busRead8_ioAddr (o := 0x209) (by omega)

/-- The offset 0x209 is no special one: it is odd, and its even neighbour is 0x208. -/
theorem plainIo_0x209 {c : Config} (h : paramsOk c = true) : plainIo c 0x209 = true := by
  have f := offsetFacts h
  obtain ⟨-, heif, hebg⟩ := f.even
  have hif := f.if_
  simp only [plainIo, Bool.and_eq_true, decide_eq_true_eq, List.all_eq_true]
  refine ⟨by omega, fun k _ => ?_⟩
  have hk := f.bg k
  have hek := hebg k
  omega

theorem busWrite8_0x209 {s : State} (h : paramsOk s.cfg = true) (v : Byte) :
    busWrite8 s 0x04000209 v = setIo s 0x209 v :=
  (busWrite8_ioAddr (o := 0x209) (by omega) v).trans (ioWrite8_plain (plainIo_0x209 h) v)

/-- WRB to a byte that may be written completes with the byte stored (40_bus_plain R134). -/
theorem exec_wrb_of_writable {s : State} {a : Word} (h : writableAt s a) (v : Word) :
    exec (.wrb a v) s = .next (complete (busWrite8 s a (v.extractLsb' 0 8)) 0) := by
  simp only [exec, execWrb, memWrite, checkBytes_one h, finishWrite, bytesLE_one, writeBytes]

/-- RDB of a byte that may be read completes with it (40_bus_plain R131). -/
theorem exec_rdb_of_readable {s : State} {a : Word} {b : Byte} (h : busRead8 s a = .ok b) :
    exec (.rdb a) s = .next (complete s (b.setWidth 32)) := by
  simp only [exec, execRdb, memRead_one h, finishRead]

theorem exec_inert {i : Instr} {s t : State} (hp : paramsOk s.cfg = true) (h : exec i s = .next t) :
    cellsRead t.io 0x208 = cellsRead s.io 0x208 := by
  rcases exec_next h with ⟨op, f, rfl⟩ | ⟨u, d, he, rfl⟩
  · rfl
  · exact he.inert hp

/-- Settles O27: offset 0x208 is discarded by the I/O write before any other rule, and no register reaches it. -/
theorem masterEnableAddressIsInert : Obligations.MasterEnableAddressIsInert := by
  intro s
  have h208 : writableAt s 0x04000208 := ⟨_, check_ioAddr (o := 0x208) (by omega) true⟩
  have h209 : writableAt s 0x04000209 := ⟨_, check_ioAddr (o := 0x209) (by omega) true⟩
  refine ⟨busRead8_0x208 s, busWrite8_0x208 s, busRead8_0x209 s, exec_rdb_of_readable (busRead8_0x208 s), fun v => ?_,
    fun hp => ⟨fun i t h => exec_inert hp h, fun v => ?_⟩⟩
  · rw [exec_wrb_of_writable h208, busWrite8_0x208]
    rfl
  · rw [exec_wrb_of_writable h209, busWrite8_0x209 hp]
    rfl

/-! ## Registers and their writers (10_state R29 to R37) -/

section
variable {s : State} {k : BgIndex} {i : Instr} {b : Background}

theorem BgEffect.scrollX_eq (h : BgEffect s k i b) (hi : ∀ v, i ≠ .scrlwr k .x v) : b.scrollX = s.bgs[k].scrollX := by
  cases h with
  | scrollX v => exact absurd rfl (hi v)
  | control _ hx _ _ => exact hx
  | _ => rfl

theorem BgEffect.scrollY_eq (h : BgEffect s k i b) (hi : ∀ v, i ≠ .scrlwr k .y v) : b.scrollY = s.bgs[k].scrollY := by
  cases h with
  | scrollY v => exact absurd rfl (hi v)
  | control _ _ hy _ => exact hy
  | _ => rfl

theorem BgEffect.affine_eq (h : BgEffect s k i b) (hi : ∀ v, i ≠ .affwr k v) : b.affine = s.bgs[k].affine := by
  cases h with
  | affine v => exact absurd rfl (hi v)
  | control _ _ _ ha => exact ha
  | _ => rfl

/-- The render cache changes only by BGRST and the control bytes, the tile-map cache by the lookups too. -/
theorem BgEffect.caches_eq (h : BgEffect s k i b) (hr : i ≠ .bgrst k) (hs : storesNotTo i s.cfg.bgcntOfs[k]) :
    b.tdb = s.bgs[k].tdb ∧ b.pal256 = s.bgs[k].pal256 ∧
      ((∀ l, i ≠ .render k l) → (∀ x y, i ≠ .tmlook k x y) →
        b.tmValid = s.bgs[k].tmValid ∧ b.tmBase = s.bgs[k].tmBase) := by
  cases h with
  | lookup hi =>
    refine ⟨rfl, rfl, fun hl ht => ?_⟩
    rcases hi with ⟨l, rfl⟩ | ⟨x, y, rfl⟩
    · exact absurd rfl (hl l)
    · exact absurd rfl (ht x y)
  | control hi =>
    rcases hi with hi | hi
    · exact absurd hi hr
    · exact absurd hs hi
  | _ => exact ⟨rfl, rfl, fun _ _ => ⟨rfl, rfl⟩⟩

end

/-- Settles O57: each register by the effect of each command on it (`Effect`, `BgEffect`). -/
theorem registersChangeOnlyByTheirWriters : Obligations.RegistersChangeOnlyByTheirWriters := by
  intro i s t h
  rcases exec_next h with ⟨op, f, rfl⟩ | ⟨u, d, he, rfl⟩
  · exact ⟨fun _ => rfl,
      fun k => ⟨fun _ => rfl, fun _ => rfl, fun _ => rfl, fun _ _ => ⟨rfl, rfl, fun _ _ => ⟨rfl, rfl⟩⟩, fun _ _ => rfl⟩,
      fun _ _ => rfl, fun _ _ => rfl, fun _ => rfl, rfl⟩
  · obtain ⟨hcfg, -, -, hport, -⟩ := he.fixed
    refine ⟨he.ime, fun k => ⟨(he.bg k).scrollX_eq, (he.bg k).scrollY_eq, (he.bg k).affine_eq, (he.bg k).caches_eq,
      fun hp hs => ?_⟩, fun hp hs => ?_, fun hi hs => ?_, he.fb, hport⟩
    · rw [bgcnt, complete_cfg, complete_io, hcfg]
      exact he.ioHalf hs (.inr ((offsetFacts hp).bgIf k))
    · rw [ieReg, complete_cfg, complete_io, hcfg]
      exact he.ioHalf hs (.inr (offsetFacts hp).ieIf)
    · rw [ifReg, complete_cfg, complete_io, hcfg]
      exact he.ioHalf hs (.inl hi)

end Sys2Proof.Machine
end

section
/-! The invariant (10_state R48): it holds of every reset state with legal parameters, and every step keeps it. -/

namespace Sys2Proof.Machine

/-! ## The invariant in parts -/

/-- A sparse array in canonical form whose indices are below a length. -/
def cellsOk {w : Nat} (n : Nat) (m : Cells w) : Prop := cellsWf m = true ∧ cellsBelow n m = true

theorem cellsOk_write {w n a : Nat} {m : Cells w} (h : cellsOk n m) (ha : a < n) (v : BitVec w) :
    cellsOk n (cellsWrite m a v) :=
  ⟨cellsWf_write h.1 a v, cellsBelow_write h.2 ha v⟩

/-- The byte array behind a region; none behind ROM, which is an image. -/
def cellsOf (s : State) : Region → Memory
  | .rom   => []
  | .io    => s.io
  | .iwram => s.iwram
  | .ewram => s.ewram
  | .pal   => s.pal
  | .vram  => s.vram
  | .oam   => s.oam

/-- The length of the byte array behind a region (10_state R23 to R28). -/
def cellsLen (c : Config) : Region → Nat
  | .oam => c.oamLen
  | r    => regionSize r

/-- The caches of a background agree with a control register value (10_state R48). -/
structure Coherent (c : Half) (b : Background) : Prop where
  tdb    : b.tdb = tileDataBase c
  pal256 : b.pal256 = paletteMode c
  tmBase : b.tmValid = true → b.tmBase = tileMapBase c

/-- The canonical form and the bounds, region by region. -/
theorem arrays_iff (s : State) : (arraysCanonical s = true ∧ arraysBounded s = true) ↔
    (∀ r, cellsOk (cellsLen s.cfg r) (cellsOf s r)) ∧ cellsOk (s.cfg.screenH * screenW) s.fb := by
  simp only [arraysCanonical, arraysBounded, Bool.and_eq_true]
  constructor
  · rintro ⟨⟨⟨⟨⟨⟨⟨e, i⟩, p⟩, v⟩, o⟩, io⟩, f⟩, ⟨⟨⟨⟨⟨e', i'⟩, p'⟩, v'⟩, o'⟩, io'⟩, f'⟩
    refine ⟨fun r => ?_, f, f'⟩
    cases r with
    | rom => exact ⟨rfl, rfl⟩
    | io => exact ⟨io, io'⟩
    | iwram => exact ⟨i, i'⟩
    | ewram => exact ⟨e, e'⟩
    | pal => exact ⟨p, p'⟩
    | vram => exact ⟨v, v'⟩
    | oam => exact ⟨o, o'⟩
  · rintro ⟨h, f, f'⟩
    exact ⟨⟨⟨⟨⟨⟨⟨(h .ewram).1, (h .iwram).1⟩, (h .pal).1⟩, (h .vram).1⟩, (h .oam).1⟩, (h .io).1⟩, f⟩,
      ⟨⟨⟨⟨⟨(h .ewram).2, (h .iwram).2⟩, (h .pal).2⟩, (h .vram).2⟩, (h .oam).2⟩, (h .io).2⟩, f'⟩

theorem Inv.cells {s : State} (h : Inv s) (r : Region) : cellsOk (cellsLen s.cfg r) (cellsOf s r) :=
  ((arrays_iff s).1 ⟨h.canonical, h.bounded⟩).1 r

theorem Inv.frameBuffer {s : State} (h : Inv s) : cellsOk (s.cfg.screenH * screenW) s.fb :=
  ((arrays_iff s).1 ⟨h.canonical, h.bounded⟩).2

theorem Inv.coherent {s : State} (h : Inv s) (k : BgIndex) : Coherent (bgcnt s k) s.bgs[k] :=
  ⟨(h.renderCache k).1, (h.renderCache k).2, h.tileMapCache k⟩

theorem Inv.of_parts {s : State} (hp : paramsOk s.cfg = true) (hr : s.rom.length ≤ maxRomLen)
    (hc : ∀ r, cellsOk (cellsLen s.cfg r) (cellsOf s r)) (hf : cellsOk (s.cfg.screenH * screenW) s.fb)
    (hi : cellsRead s.io 0x208 = 0) (hb : ∀ k : BgIndex, Coherent (bgcnt s k) s.bgs[k]) : Inv s := by
  obtain ⟨hcan, hbnd⟩ := (arrays_iff s).2 ⟨hc, hf⟩
  exact ⟨hp, hr, hcan, hbnd, hi, fun k => ⟨(hb k).tdb, (hb k).pal256⟩, fun k => (hb k).tmBase⟩

/-! ## Reset -/

theorem halfView_nil (o : Nat) : halfView [] o = 0 := by
  simp [halfView]

theorem bgcnt_resetOf (c : Config) (rom bios : List Byte) (k : BgIndex) : bgcnt (State.resetOf c rom bios) k = 0 :=
  halfView_nil _

theorem bgs_resetOf (c : Config) (rom bios : List Byte) (k : BgIndex) :
    (State.resetOf c rom bios).bgs[k] = Background.reset := by
  simp [State.resetOf]

/-- A reset state with legal parameters meets the invariant (10_state R50). -/
theorem inv_resetOf {c : Config} (hp : paramsOk c = true) {rom : List Byte} (hr : rom.length ≤ maxRomLen)
    (bios : List Byte) : Inv (State.resetOf c rom bios) := by
  refine .of_parts hp hr (fun r => ?_) ⟨rfl, rfl⟩ rfl fun k => ?_
  · cases r <;> exact ⟨rfl, rfl⟩
  · rw [bgcnt_resetOf, bgs_resetOf]
    exact ⟨by decide, by decide, nofun⟩

/-- Settles O12: the default parameters meet their constraints, and an empty image is short enough. -/
theorem resetMeetsTheInvariant : Obligations.ResetMeetsTheInvariant :=
  inv_resetOf (by decide) (Nat.zero_le _) []

/-- Settles O9: every field of the reset state is written out, and an array with nothing listed reads 0. -/
theorem resetHoldsTheSpecValues : Obligations.ResetHoldsTheSpecValues := by
  intro c rom bios
  refine ⟨rfl, rfl, rfl, fun r o hr => ?_, halfView_nil _, halfView_nil _, bgcnt_resetOf c rom bios, rfl,
    fun k => ⟨bgs_resetOf c rom bios k, ?_⟩, fun _ _ => rfl, rfl⟩
  · cases r with
    | rom => exact absurd rfl hr
    | _ => rfl
  · rw [bgSize, bgcnt_resetOf, bgs_resetOf]
    rfl

/-! ## Changes outside the arrays and caches -/

section
variable {s : State} (h : Inv s)
include h

theorem Inv.complete (d : Word) : Inv (complete s d) := { h with }

theorem Inv.raiseFault (op : Byte) (f : BlockFault) : Inv (raiseFault s op f) := { h with }

theorem Inv.takeCommand (p : Presented) (rest : List Presented) : Inv (takeCommand s p rest) := { h with }

theorem Inv.takeIrq : Inv (takeIrq s) := { h with }

theorem Inv.withIme (v : Bool) : Inv { s with ime := v } := { h with }

theorem Inv.withFb {fb : FrameBuffer} (hf : cellsOk (s.cfg.screenH * screenW) fb) : Inv { s with fb := fb } :=
  .of_parts h.params h.romLength h.cells hf h.inert h.coherent

/-- Setting one background keeps the invariant if the new one is coherent with its control register. -/
theorem Inv.setBg {k : BgIndex} {b : Background} (hb : Coherent (bgcnt s k) b) :
    Inv { s with bgs := s.bgs.set k b } := by
  refine .of_parts h.params h.romLength h.cells h.frameBuffer h.inert fun j => ?_
  show Coherent (bgcnt s j) (s.bgs.set k b)[j]
  rw [bgs_set_get]
  split
  · next e => rw [e]; exact hb
  · exact h.coherent j

/-- The base a lookup uses is the register's (42_bgcnt_tilemap R172). -/
theorem Inv.tmBaseOf_eq (k : BgIndex) : tmBaseOf s k = tileMapBase (bgcnt s k) := by
  unfold tmBaseOf
  split
  · next hv => exact h.tileMapCache k hv
  · rfl

theorem Inv.lookup (k : BgIndex) : Inv { s with bgs := bgsAfterLookup s k } :=
  h.setBg ⟨(h.coherent k).tdb, (h.coherent k).pal256, fun _ => h.tmBaseOf_eq k⟩

theorem Inv.recache (k : BgIndex) : Inv (recache s k) :=
  h.setBg ⟨rfl, rfl, h.tileMapCache k⟩

theorem Inv.resetTileMap (k : BgIndex) : Inv (resetTileMap s k) :=
  h.setBg ⟨(h.coherent k).tdb, (h.coherent k).pal256, nofun⟩

end

/-! ## Stores -/

/-- A store of one byte of a region: every other array stands as it was, and the region's own has at most the cell at the
offset written. -/
def StoresAt (s t : State) (r : Region) (o : Nat) : Prop :=
  ∀ r', cellsOf t r' = cellsOf s r' ∨ r' = r ∧ ∃ v, cellsOf t r' = cellsWrite (cellsOf s r') o v

theorem setIo_storesAt (s : State) (o : Nat) (v : Byte) : StoresAt s (setIo s o v) .io o := by
  intro r
  cases r with
  | io => exact .inr ⟨rfl, v, rfl⟩
  | _ => exact .inl rfl

theorem ioWrite8_storesAt (s : State) (o : Nat) (v : Byte) : StoresAt s (ioWrite8 s o v) .io o := by
  rcases ioWrite8_cases s o v with ⟨-, h⟩ | ⟨-, -, h⟩ | ⟨-, -, -, ⟨k, rfl, -, h⟩ | ⟨-, k, rfl, -, h⟩ | ⟨-, -, h⟩⟩ <;> rw [h]
  · exact fun r => .inl rfl
  · exact setIo_storesAt s o _
  · exact setIo_storesAt s _ v
  · rw [bgcntWriteByte1_eq]
    exact setIo_storesAt s _ v
  · exact setIo_storesAt s o v

theorem storeByte_storesAt (s : State) (r : Region) (o : Nat) (v : Byte) : StoresAt s (storeByte s r o v) r o := by
  intro r'
  cases r with
  | io => exact ioWrite8_storesAt s o v r'
  | rom => exact .inl rfl
  | _ => cases r' <;> simp [storeByte, cellsOf]

/-- A window's offsets are below its length (20_memory R76). -/
theorem route_lt {a : Word} {r : Region} {o : Nat} (h : route a = some (r, o)) : o < regionSize r := by
  simp only [route] at h
  split_ifs at h <;> (cases h; simp only [regionSize]; omega)

/-- A passed check answers a byte that is backed. -/
theorem check_backed {s : State} {a : Word} {w : Bool} {r : Region} {o : Nat} (h : check s a w = .ok (r, o)) :
    backed s r o w = true := by
  unfold check at h
  split at h
  · cases h
  · split at h
    · next hb => cases h; exact hb
    · cases h

/-- An offset a write may reach is below the length of the region's array. -/
theorem check_lt_cellsLen {s : State} {a : Word} {r : Region} {o : Nat} (h : check s a true = .ok (r, o)) :
    o < cellsLen s.cfg r := by
  have hr := route_lt (check_ok h)
  cases r with
  | oam =>
    have hb := check_backed h
    simp only [backed, Bool.and_eq_true, decide_eq_true_eq] at hb
    exact hb.2
  | _ => exact hr

/-! ## Coherence under I/O writes -/

/-- A background keeps its control register when the byte stored is not one of its two. -/
theorem bgcnt_setIo_other {s : State} {o : Nat} {k : BgIndex} (h0 : o ≠ s.cfg.bgcntOfs[k])
    (h1 : o ≠ s.cfg.bgcntOfs[k] + 1) (v : Byte) : bgcnt (setIo s o v) k = bgcnt s k := by
  simp only [bgcnt, halfView, setIo_cfg, setIo_io, cellsRead_write_other h0, cellsRead_write_other h1]

/-- The tile-map base is in control byte 1 (42_bgcnt_tilemap R165). -/
theorem tileMapBase_append (hi lo : Byte) : tileMapBase (hi ++ lo) = (hi.extractLsb' 0 5).setWidth 32 * 0x800 := by
  have h : (hi ++ lo).extractLsb' 8 5 = hi.extractLsb' 0 5 := by
    ext j hj
    rw [BitVec.getElem_extractLsb', BitVec.getElem_extractLsb']
    exact BitVec.getLsbD_append.trans (by simp)
  rw [tileMapBase, h]

theorem tileMapBase_setIo_byte0 (s : State) (k : BgIndex) (v : Byte) :
    tileMapBase (bgcnt (setIo s s.cfg.bgcntOfs[k] v) k) = tileMapBase (bgcnt s k) := by
  have h : s.cfg.bgcntOfs[k] ≠ s.cfg.bgcntOfs[k] + 1 := by omega
  simp only [bgcnt, halfView, setIo_cfg, setIo_io, tileMapBase_append, cellsRead_write_other h]

theorem ne_of_bgOfByte0_none {c : Config} {o : Nat} (h : bgOfByte0 c o = none) (k : BgIndex) : o ≠ c.bgcntOfs[k] := by
  simpa using List.find?_eq_none.1 h k (mem_allBgs k)

theorem ne_of_bgOfByte1_none {c : Config} {o : Nat} (h : bgOfByte1 c o = none) (k : BgIndex) :
    o ≠ c.bgcntOfs[k] + 1 := by
  simpa using List.find?_eq_none.1 h k (mem_allBgs k)

section
variable {s : State} (h : Inv s)
include h

/-- A plain store beside the control bytes leaves every background coherent. -/
theorem Inv.coherent_setIo {o : Nat} (hb : ∀ k : BgIndex, o ≠ s.cfg.bgcntOfs[k] ∧ o ≠ s.cfg.bgcntOfs[k] + 1) (v : Byte)
    (k : BgIndex) : Coherent (bgcnt (setIo s o v) k) (setIo s o v).bgs[k] := by
  rw [bgcnt_setIo_other (hb k).1 (hb k).2]
  exact h.coherent k

/-- A store to a control byte of background `k` that recaches it leaves every background coherent. -/
theorem Inv.coherent_control {o : Nat} {v : Byte} {k : BgIndex} {f : Background → Background}
    (ho : o = s.cfg.bgcntOfs[k] ∨ o = s.cfg.bgcntOfs[k] + 1) (hf : Coherent (bgcnt (setIo s o v) k) (f s.bgs[k]))
    (j : BgIndex) : Coherent (bgcnt (modifyBg (setIo s o v) k f) j) (modifyBg (setIo s o v) k f).bgs[j] := by
  rw [bgcnt_modifyBg, modifyBg_get]
  split
  · next e => rw [e]; exact hf
  · next e =>
    have fa := offsetFacts h.params
    have hjk := fa.bgs j k e
    have hjk1 := fa.bgs1 j k
    have hkj1 := fa.bgs1 k j
    rw [bgcnt_setIo_other (by omega) (by omega)]
    exact h.coherent j

theorem Inv.coherent_ioWrite8 (o : Nat) (v : Byte) (j : BgIndex) :
    Coherent (bgcnt (ioWrite8 s o v) j) (ioWrite8 s o v).bgs[j] := by
  have fa := offsetFacts h.params
  rcases ioWrite8_cases s o v with
    ⟨-, he⟩ | ⟨-, hif, he⟩ | ⟨-, -, -, ⟨k, rfl, -, he⟩ | ⟨-, k, rfl, -, he⟩ | ⟨h0, h1, he⟩⟩ <;> rw [he]
  · exact h.coherent j
  · refine h.coherent_setIo (fun k => ?_) _ j
    have hk := fa.bgIf k
    omega
  · refine h.coherent_control (.inl rfl) ⟨rfl, rfl, fun hv => ?_⟩ j
    exact (h.tileMapCache k hv).trans (tileMapBase_setIo_byte0 s k v).symm
  · rw [bgcntWriteByte1_eq]
    refine h.coherent_control (.inr rfl) ⟨rfl, rfl, fun hv => ?_⟩ j
    simp only [Bool.and_eq_true, decide_eq_true_eq] at hv
    exact (h.tileMapCache k hv.1).trans hv.2
  · exact h.coherent_setIo (fun k => ⟨ne_of_bgOfByte0_none h0 k, ne_of_bgOfByte1_none h1 k⟩) v j

theorem Inv.coherent_storeByte (r : Region) (o : Nat) (v : Byte) (j : BgIndex) :
    Coherent (bgcnt (storeByte s r o v) j) (storeByte s r o v).bgs[j] := by
  cases r with
  | io => exact h.coherent_ioWrite8 o v j
  | _ => exact h.coherent j

/-! ## Stores keep the invariant -/

theorem Inv.cells_storesAt {t : State} {r : Region} {o : Nat} (ht : StoresAt s t r o) (ho : o < cellsLen s.cfg r)
    (r' : Region) : cellsOk (cellsLen s.cfg r') (cellsOf t r') := by
  rcases ht r' with e | ⟨rfl, v, e⟩ <;> rw [e]
  · exact h.cells r'
  · exact cellsOk_write (h.cells r') ho v

theorem Inv.busWrite8 {a : Word} (ha : writableAt s a) (v : Byte) : Inv (busWrite8 s a v) := by
  obtain ⟨⟨r, o⟩, hc⟩ := ha
  have f := busWrite8_frame s a v
  have hi := busWrite8_inert s a v
  have e : Machine.busWrite8 s a v = storeByte s r o v := by simp only [Machine.busWrite8, check_ok hc]
  rw [e] at f hi ⊢
  refine .of_parts ?_ ?_ (fun r' => ?_) ?_ (hi.trans h.inert) (h.coherent_storeByte r o v)
  · rw [f.cfg]; exact h.params
  · rw [f.rom]; exact h.romLength
  · rw [f.cfg]; exact h.cells_storesAt (storeByte_storesAt s r o v) (check_lt_cellsLen hc) r'
  · rw [f.cfg, f.fb]; exact h.frameBuffer

/-- The request flags are neither the byte 0x208 nor a control byte (44_irq R211). -/
theorem Inv.requestIrq (n : Fin 16) : Inv (requestIrq s n) := by
  have fa := offsetFacts h.params
  have hif := fa.if_
  rw [Machine.requestIrq]
  set o := if n.val < 8 then s.cfg.ifOfs else s.cfg.ifOfs + 1 with ho
  have hor : o = s.cfg.ifOfs ∨ o = s.cfg.ifOfs + 1 := by rw [ho]; split <;> simp
  refine .of_parts h.params h.romLength ?_ h.frameBuffer ?_ ?_
  · exact h.cells_storesAt (setIo_storesAt s o _) (show o < 0x3FF by omega)
  · rw [setIo_io, cellsRead_write_other (by omega)]
    exact h.inert
  · refine h.coherent_setIo (fun k => ?_) _
    have hk := fa.bgIf k
    omega

end

theorem Inv.storeAll {s : State} (h : Inv s) {l : List (Word × Byte)} (hw : ∀ p ∈ l, writableAt s p.1) :
    Inv (storeAll s l) := by
  induction l generalizing s with
  | nil => exact h
  | cons p l ih =>
    obtain ⟨hp, hl⟩ := List.forall_mem_cons.1 hw
    have f := busWrite8_frame s p.1 p.2
    rw [← writableAt_congr f.cfg f.rom] at hl
    exact ih (h.busWrite8 hp p.2) hl

/-! ## Commands and steps -/

/-- A row inside the screen is written inside the framebuffer (43_render R190). -/
theorem Inv.writeRow {s : State} (h : Inv s) {line : Nat} (hl : line < s.cfg.screenH) {row : List Half}
    (hr : row.length = screenW) : cellsOk (s.cfg.screenH * screenW) (writePixels s.fb (line * screenW) row) := by
  obtain ⟨hwf, hbelow⟩ := h.frameBuffer
  refine ⟨writePixels_wf hwf _ _, writePixels_below hbelow _ _ ?_⟩
  calc line * screenW + row.length = (line + 1) * screenW := by rw [hr, Nat.succ_mul]
    _ ≤ s.cfg.screenH * screenW := Nat.mul_le_mul_right _ hl

theorem Inv.effect {s u : State} {i : Instr} (h : Inv s) (he : Effect s i u) : Inv u := by
  cases he with
  | read | pollIdle => exact h
  | write _ hw => exact h.storeAll hw
  | render bg line row hl hr => exact (h.lookup bg).withFb (h.writeRow hl hr)
  | tmlook bg => exact h.lookup bg
  | scrollX bg | scrollY bg | affwr bg => exact h.setBg ⟨(h.coherent bg).tdb, (h.coherent bg).pal256, h.tileMapCache bg⟩
  | bgrst bg => exact (h.recache bg).resetTileMap bg
  | irqreq n => exact h.requestIrq n
  | pollTaken => exact h.takeIrq
  | imewr v => exact h.withIme v

theorem Inv.exec {i : Instr} {s t : State} (h : Inv s) (ht : exec i s = .next t) : Inv t := by
  rcases exec_next ht with ⟨op, f, rfl⟩ | ⟨u, d, he, rfl⟩
  · exact h.raiseFault op f
  · exact (h.effect he).complete d

/-- Settles O11: the invariant holds of what each command leads to, of a reported fault, and of the command taken. -/
theorem stepKeepsTheInvariant : Obligations.StepKeepsTheInvariant := by
  intro s t h hstep
  rcases step_next hstep with rfl | ⟨p, rest, -, ⟨i, -, hi⟩ | rfl⟩
  · exact h
  · exact (h.takeCommand p rest).exec hi
  · exact (h.takeCommand p rest).raiseFault _ _

end Sys2Proof.Machine
end

section
/-! The tile-map cache is unobservable (10_state R48): with another cache a command answers the same response and leaves
the same framebuffer. -/

namespace Sys2Proof.Machine

/-- What is observed of the end of a command: its response and the framebuffer it leaves. -/
def observed : Host.Outcome State Fault Refusal → Option (Response × FrameBuffer)
  | .next t => some (t.rsp, t.fb)
  | .fault _ | .refused _ => none

/-- The end of a reading command is observed by its value or fault and the framebuffer. -/
theorem observed_finishRead {s s' : State} (hfb : s'.fb = s.fb) (op : Byte) {e e' : Except BlockFault Word}
    (he : e' = e) : observed (finishRead s' op e') = observed (finishRead s op e) := by
  subst he
  cases e' <;> simp [finishRead, observed, hfb]

/-- The end of a writing command is observed by whether it stores: no store reaches the framebuffer. -/
theorem observed_finishWrite_memWrite {s s' : State} (hcfg : s'.cfg = s.cfg) (hrom : s'.rom = s.rom)
    (hfb : s'.fb = s.fb) (op : Byte) (a : Word) (n : Nat) (v : Word) :
    observed (finishWrite s' op (memWrite s' a n v)) = observed (finishWrite s op (memWrite s a n v)) := by
  have hc : checkBytes s' true a n = checkBytes s true a n := by
    induction n generalizing a with
    | zero => rfl
    | succ n ih => simp only [checkBytes, check_congr hcfg hrom, ih]
  rw [memWrite, memWrite, hc]
  cases checkBytes s true a n with
  | error f => simp [finishWrite, observed, hfb]
  | ok => simp [finishWrite, observed, (writeBytes_frame _ _ _).fb, hfb]

/-! ## What a lookup and a row look at -/

/-- Two states look alike to a row of background `k`: layout, control register, video RAM, palette and the background. -/
structure SameView (k : BgIndex) (s s' : State) : Prop where
  cfg  : s'.cfg = s.cfg
  io   : s'.io = s.io
  vram : s'.vram = s.vram
  pal  : s'.pal = s.pal
  bg   : s'.bgs[k] = s.bgs[k]

section
variable {k : BgIndex} {s s' : State} (h : SameView k s s')
include h

theorem SameView.bgSize : bgSize s' k = bgSize s k := by
  simp only [Machine.bgSize, bgcnt, h.cfg, h.io, h.bg]

theorem SameView.tileEntry (x y : Nat) : tileEntry s' k x y = tileEntry s k x y := by
  simp only [Machine.tileEntry, h.bgSize, h.cfg, h.vram, h.bg]

theorem SameView.pixelColor (line x : Nat) : pixelColor s' k line x = pixelColor s k line x := by
  simp only [Machine.pixelColor, h.bgSize, h.tileEntry, h.vram, h.pal, h.bg]

theorem SameView.rowColors (line x n : Nat) : rowColors s' k line x n = rowColors s k line x n := by
  induction n generalizing x with
  | zero => rfl
  | succ n ih => simp only [Machine.rowColors, h.pixelColor, ih]

end

/-! ## The state with another cache -/

section
variable (s : State) (k : BgIndex) (valid : Bool) (base : Word)

theorem busRead8_withTileMapCache : busRead8 (withTileMapCache s k valid base) = busRead8 s :=
  busRead8_congr rfl rfl rfl

theorem memRead_withTileMapCache : memRead (withTileMapCache s k valid base) = memRead s :=
  memRead_congr (busRead8_withTileMapCache s k valid base)

theorem biosBytes_withTileMapCache (o n : Nat) :
    biosBytes (withTileMapCache s k valid base) o n = biosBytes s o n := by
  induction n generalizing o with
  | zero => rfl
  | succ n ih => simp only [biosBytes, ih]; rfl

theorem biosRead_withTileMapCache (ofs : Word) (n : Nat) :
    biosRead (withTileMapCache s k valid base) ofs n = biosRead s ofs n := by
  simp only [biosRead, biosBytes_withTileMapCache]

theorem checkedLoad_withTileMapCache (a : Word) :
    checkedLoad (withTileMapCache s k valid base) a = checkedLoad s a := by
  simp only [checkedLoad, memRead_withTileMapCache]; rfl

/-- Another cache of background `k` changes no other part of any background. -/
theorem bg_withTileMapCache (j : BgIndex) : ∃ tv tb,
    (withTileMapCache s k valid base).bgs[j] = { s.bgs[j] with tmValid := tv, tmBase := tb } := by
  rw [withTileMapCache, modifyBg_get]
  split
  · next e => rw [e]; exact ⟨valid, base, rfl⟩
  · exact ⟨_, _, rfl⟩

variable {s k valid base}

/-- With coherent caches both states look alike once the base is cached: it is the register's in both (R48 (3)). -/
theorem sameView_tmBaseGet (h : Inv s) (h' : Inv (withTileMapCache s k valid base)) (bg : BgIndex) :
    SameView bg (tmBaseGet s bg) (tmBaseGet (withTileMapCache s k valid base) bg) := by
  obtain ⟨tv, tb, hbg⟩ := bg_withTileMapCache s k valid base bg
  simp only [tmBaseGet_eq, h.tmBaseOf_eq, h'.tmBaseOf_eq]
  refine ⟨rfl, rfl, rfl, rfl, ?_⟩
  rw [modifyBg_get, modifyBg_get, if_pos rfl, if_pos rfl, hbg]
  rfl

theorem observed_execTmlook (h : Inv s) (h' : Inv (withTileMapCache s k valid base)) (bg : BgIndex) (x y : Half) :
    observed (execTmlook bg x y (withTileMapCache s k valid base)) = observed (execTmlook bg x y s) := by
  obtain ⟨tv, tb, hbg⟩ := bg_withTileMapCache s k valid base bg
  have hv := sameView_tmBaseGet h h' bg
  simp only [execTmlook, hbg, hv.bgSize, hv.tileEntry]
  split
  · rfl
  · simp only [observed, complete_rsp, complete_fb, tmBaseGet_eq]
    rfl

theorem observed_execRender (h : Inv s) (h' : Inv (withTileMapCache s k valid base)) (bg : BgIndex) (line : BitVec 8) :
    observed (execRender bg line (withTileMapCache s k valid base)) = observed (execRender bg line s) := by
  obtain ⟨tv, tb, hbg⟩ := bg_withTileMapCache s k valid base bg
  have hv := sameView_tmBaseGet h h' bg
  have hcfg : (withTileMapCache s k valid base).cfg = s.cfg := rfl
  simp only [execRender, hbg, hcfg, renderRow, hv.rowColors]
  split
  · rfl
  · split
    · rfl
    · split
      · rfl
      · cases rowColors (tmBaseGet s bg) bg line.toNat 0 screenW with
        | error f => rfl
        | ok row =>
          simp only [finishWrite, observed, tmBaseGet_eq]
          rfl

/-- Every command is observed alike with another coherent cache. -/
theorem observed_exec (h : Inv s) (h' : Inv (withTileMapCache s k valid base)) (i : Instr) :
    observed (exec i (withTileMapCache s k valid base)) = observed (exec i s) := by
  have hfb : (withTileMapCache s k valid base).fb = s.fb := rfl
  cases i with
  | rdb a => exact observed_finishRead hfb _ (congrFun₂ (memRead_withTileMapCache s k valid base) a 1)
  | rdh a => exact observed_finishRead hfb _ (congrFun₂ (memRead_withTileMapCache s k valid base) a 2)
  | rdw a => exact observed_finishRead hfb _ (congrFun₂ (memRead_withTileMapCache s k valid base) a 4)
  | ldwc a => exact observed_finishRead hfb _ (checkedLoad_withTileMapCache s k valid base a)
  | brdb ofs | brdh ofs | brdw ofs => exact observed_finishRead hfb _ (biosRead_withTileMapCache s k valid base ofs _)
  | wrb | wrh | wrw | stwc =>
    exact observed_finishWrite_memWrite (s := s) (s' := withTileMapCache s k valid base) rfl rfl hfb _ _ _ _
  | render bg line => exact observed_execRender h h' bg line
  | tmlook bg x y => exact observed_execTmlook h h' bg x y
  | scrlwr bg axis v => cases axis <;> rfl
  | affwr | bgrst | irqreq | imewr => rfl
  | irqproc =>
    have ht : irqTaken (withTileMapCache s k valid base) = irqTaken s := rfl
    simp only [exec, execIrqproc, ht]
    split <;> rfl

end

/-- Settles O43: equal observations of two next states are equal responses and framebuffers. -/
theorem tileMapCacheIsUnobservable : Obligations.TileMapCacheIsUnobservable := by
  intro i s t t' k valid base h h' ht ht'
  have ho := observed_exec h h' i
  rw [ht, ht'] at ho
  simp only [observed, Option.some.injEq, Prod.mk.injEq] at ho
  exact ho

end Sys2Proof.Machine
end

section
/-! The statements about the address decoder, the single-byte accesses and the cartridge header (spec/20_memory.md):
where an address goes, when it is backed, and what a read or a write does there. -/

namespace Sys2Proof.Machine

/-! ## The address decoder (20_memory R61, R63, R76) -/

/-- A routed address stands at its offset from the base of its window. -/
theorem route_toNat {a : Word} {r : Region} {o : Nat} (h : route a = some (r, o)) : a.toNat = regionBase r + o := by
  simp only [route] at h
  split_ifs at h <;> (cases h; simp only [regionBase]; omega)

/-- An offset inside a window is routed to it: the windows do not overlap. -/
theorem route_of_toNat {a : Word} {r : Region} {o : Nat} (ho : o < regionSize r) (ha : a.toNat = regionBase r + o) :
    route a = some (r, o) := by
  cases r <;>
  · simp only [regionSize, regionBase] at ho ha
    simp (disch := omega) only [route, ha, if_pos, if_neg, Nat.add_sub_cancel_left]

theorem route_eq_some_iff {a : Word} {r : Region} {o : Nat} :
    route a = some (r, o) ↔ o < regionSize r ∧ a.toNat = regionBase r + o :=
  ⟨fun h => ⟨route_lt h, route_toNat h⟩, fun h => route_of_toNat h.1 h.2⟩

theorem check_of_route_none {s : State} {a : Word} (h : route a = none) (w : Bool) :
    check s a w = .error (.badAddress a) := by
  rw [check, h]

theorem check_of_route {s : State} {a : Word} {r : Region} {o : Nat} (h : route a = some (r, o)) (w : Bool) :
    check s a w = if backed s r o w then .ok (r, o) else .error (.unimplementedRegion a) := by
  rw [check, h]

/-- The four ways in which a byte of a window has no backing (20_memory R63). -/
theorem backed_eq_false_iff (s : State) (r : Region) (o : Nat) (w : Bool) :
    backed s r o w = false ↔
      (r = .rom ∧ w = true ∧ s.cfg.romWritePolicy = .fault) ∨ (r = .rom ∧ w = false ∧ s.rom.length ≤ o) ∨
        (r = .vram ∧ s.cfg.vramWired = false) ∨ (r = .oam ∧ (s.cfg.oamWired = false ∨ s.cfg.oamLen ≤ o)) := by
  cases r with
  | rom =>
    cases w with
    | false => simp [backed]
    | true => cases hp : s.cfg.romWritePolicy <;> simp [backed, hp]
  | vram => simp [backed]
  | oam => cases hw : s.cfg.oamWired <;> simp [backed, hw]
  | io | iwram | ewram | pal => simp [backed]

/-- Settles O17: the routed addresses by `route_eq_some_iff`, the failing checks by `backed_eq_false_iff`. -/
theorem checksFollowTheAddressMap : Obligations.ChecksFollowTheAddressMap := by
  intro s a w
  refine ⟨fun r o => route_eq_some_iff, fun h => check_of_route_none h w, fun r o h => ?_⟩
  rw [check_of_route h w, ← backed_eq_false_iff s r o w]
  cases backed s r o w with
  | false => exact .inl ⟨rfl, rfl⟩
  | true => exact .inr ⟨nofun, rfl⟩

/-! ## Single-byte accesses that pass the check (20_memory R64, R65, R68, R69) -/

theorem busRead8_of_check {s : State} {a : Word} {r : Region} {o : Nat} (h : check s a false = .ok (r, o)) :
    busRead8 s a = .ok (loadByte s r o) := by
  rw [busRead8, h]

theorem busWrite8_of_check {s : State} {a : Word} {r : Region} {o : Nat} (h : check s a true = .ok (r, o)) (v : Byte) :
    busWrite8 s a v = storeByte s r o v := by
  rw [busWrite8, check_ok h]

/-- Settles O19: RDB completes with the byte its region answers, region by region. -/
theorem readableBytesAreTheStoredBytes : Obligations.ReadableBytesAreTheStoredBytes := by
  intro s a r o h
  rw [exec_rdb_of_readable (busRead8_of_check h)]
  cases r <;> rfl

theorem ioWrite8_0x208 (s : State) (v : Byte) : ioWrite8 s 0x208 v = s := by
  rw [ioWrite8, if_pos rfl]

/-- A write to a request-flag byte clears the bits written as 1 (20_memory R69, D13), whatever the parameters are. -/
theorem ioWrite8_requestFlags {s : State} {o : Nat} (h : o ≠ 0x208) (ho : o = s.cfg.ifOfs ∨ o = s.cfg.ifOfs + 1)
    (v : Byte) : ioWrite8 s o v = setIo s o (cellsRead s.io o &&& ~~~v) := by
  rw [ioWrite8, if_neg h, if_pos ho]

/-- Settles O21: a write that passes the check is the store of its region; an I/O store goes by the kind of its offset. -/
theorem writesActByRegion : Obligations.WritesActByRegion := by
  intro s a v o
  refine ⟨fun h => busWrite8_of_check h v, fun h => busWrite8_of_check h v, fun h => busWrite8_of_check h v,
    fun h => busWrite8_of_check h v, fun h => busWrite8_of_check h v, fun h => busWrite8_of_check h v, fun h => ?_⟩
  have hio : busWrite8 s a v = ioWrite8 s o v := busWrite8_of_check h v
  rw [hio]
  refine ⟨?_, fun hn hif => ioWrite8_requestFlags hn hif v, fun hp => ioWrite8_plain hp v⟩
  rintro rfl
  exact ioWrite8_0x208 s v

/-! ## Reads (20_memory R75) -/

theorem stores_of_isRead {i : Instr} (h : isRead i = true) : stores i = [] := by
  cases i with
  | rdb | rdh | rdw | ldwc | brdb | brdh | brdw => rfl
  | _ => cases h

/-- A reading command that completes has no effect beyond its response. -/
theorem Effect.eq_of_isRead {s u : State} {i : Instr} (h : Effect s i u) (hr : isRead i = true) : u = s := by
  cases h with
  | read => rfl
  | write hs => exact absurd (stores_of_isRead hr) hs
  | _ => cases hr

/-- Settles O26: a read faults, which sets latch and response, or completes without an effect on the state. -/
theorem readsHaveNoSideEffect : Obligations.ReadsHaveNoSideEffect := by
  intro i s t hr h
  rcases exec_next h with ⟨op, f, rfl⟩ | ⟨u, d, he, rfl⟩
  · rfl
  · rw [he.eq_of_isRead hr]
    rfl

/-! ## The cartridge header (20_memory R85) -/

/-- The first four bytes of an image that has them. -/
theorem take_four {l : List Byte} (h : 4 ≤ l.length) : l.take 4 = [l.getD 0 0, l.getD 1 0, l.getD 2 0, l.getD 3 0] := by
  match l, h with
  | _ :: _ :: _ :: _ :: _, _ => rfl

theorem trimTrailingNul_cons (b : Byte) (bs : List Byte) :
    trimTrailingNul (b :: bs) =
      if trimTrailingNul bs = [] then if b = 0 then [] else [b] else b :: trimTrailingNul bs := by
  rw [trimTrailingNul]
  cases trimTrailingNul bs <;> rfl

/-- Trimming drops zero bytes at the end and nothing else. -/
theorem trimTrailingNul_append (l : List Byte) : ∃ n, trimTrailingNul l ++ List.replicate n 0 = l := by
  induction l with
  | nil => exact ⟨0, rfl⟩
  | cons b bs ih =>
    obtain ⟨n, hn⟩ := ih
    rw [trimTrailingNul_cons]
    split_ifs with ht hb
    · rw [ht, List.nil_append] at hn
      exact ⟨n + 1, by rw [List.nil_append, List.replicate_succ, hn, hb]⟩
    · rw [ht, List.nil_append] at hn
      exact ⟨n, by rw [hn, List.singleton_append]⟩
    · exact ⟨n, by rw [List.cons_append, hn]⟩

/-- Trimming leaves no zero byte at the end. -/
theorem trimTrailingNul_getLast? (l : List Byte) : (trimTrailingNul l).getLast? ≠ some 0 := by
  induction l with
  | nil => nofun
  | cons b bs ih =>
    rw [trimTrailingNul_cons]
    split_ifs with ht hb
    · nofun
    · simpa using hb
    · rwa [List.getLast?_cons_of_ne_nil ht]

/-- Settles O59: the entry word composes the first four bytes, the title is the trimmed field. -/
theorem headerViewsReadTheImage : Obligations.HeaderViewsReadTheImage := by
  intro s b
  refine ⟨fun h => ?_, fun h => if_neg (by omega), fun h => ?_, fun h => if_neg (by omega)⟩
  · rw [romEntry, if_pos h, take_four h, composeLE_four]
  · obtain ⟨n, hn⟩ := trimTrailingNul_append ((s.rom.drop 0xA0).take 12)
    exact ⟨_, n, if_pos h, hn, trimTrailingNul_getLast? _⟩

end Sys2Proof.Machine
end

section
/-! The command word (spec/30_encoding.md R101 to R108): the arms of the decoder, the rows of the table, and how each is
undone by the encoder. -/

namespace Sys2Proof

/-! ## The arms of the decoder (30_encoding R102, R104) -/

/-- The bits that the format of an instruction's row requires to be 0 are 0 in the two arguments (R102). -/
def zerosOk (i : Instr) (a d : Word) : Bool :=
  match i with
  | .rdb _ | .rdh _ | .rdw _ | .ldwc _ | .brdb _ | .brdh _ | .brdw _ => d == 0
  | .wrb _ _ | .wrh _ _ | .wrw _ _ | .stwc _ _ => true
  | .render _ _ => a.extractLsb' 2 6 == 0 && a.extractLsb' 16 16 == 0 && d == 0
  | .tmlook _ _ _ => a.extractLsb' 2 30 == 0
  | .scrlwr _ _ _ => a.extractLsb' 3 29 == 0 && d.extractLsb' 16 16 == 0
  | .affwr _ _ => a.extractLsb' 2 30 == 0 && d.extractLsb' 1 31 == 0
  | .bgrst _ => a.extractLsb' 2 30 == 0 && d == 0
  | .irqreq _ => a.extractLsb' 4 28 == 0 && d == 0
  | .irqproc => a == 0 && d == 0
  | .imewr _ => a == 0 && d.extractLsb' 1 31 == 0

/-- The instruction of the same row whose operands are read from the two arguments (R102). -/
def readOperands (i : Instr) (a d : Word) : Instr :=
  match i with
  | .rdb _ => .rdb a
  | .rdh _ => .rdh a
  | .rdw _ => .rdw a
  | .wrb _ _ => .wrb a d
  | .wrh _ _ => .wrh a d
  | .wrw _ _ => .wrw a d
  | .ldwc _ => .ldwc a
  | .stwc _ _ => .stwc a d
  | .brdb _ => .brdb a
  | .brdh _ => .brdh a
  | .brdw _ => .brdw a
  | .render _ _ => .render (bgField a) (a.extractLsb' 8 8)
  | .tmlook _ _ _ => .tmlook (bgField a) (d.extractLsb' 0 16) (d.extractLsb' 16 16)
  | .scrlwr _ _ _ => .scrlwr (bgField a) (axisField a) (d.extractLsb' 0 16)
  | .affwr _ _ => .affwr (bgField a) (d.getLsbD 0)
  | .bgrst _ => .bgrst (bgField a)
  | .irqreq _ => .irqreq (sourceField a)
  | .irqproc => .irqproc
  | .imewr _ => .imewr (d.getLsbD 0)

/-- The arm of the decoder that a word with the opcode of `j` takes. -/
theorem decode_of_opOf_eq {w : Cmd} {j : Instr} (h : opOf w = opcodeOf j) :
    decode w = accept (opcodeOf j) (zerosOk j (argA w) (argD w)) (readOperands j (argA w) (argD w)) := by
  simp only [decode, h]
  cases j <;> rfl

theorem decode_of_unknown_op {w : Cmd} (h : ∀ j, opOf w ≠ opcodeOf j) : decode w = .error (.unknownOp (opOf w)) := by
  have hall : ∀ op ∈ oneOfEach.map opcodeOf, opOf w ≠ op := by
    simpa [List.forall_mem_map] using fun j _ => h j
  simp only [oneOfEach, List.map_cons, List.map_nil, List.forall_mem_cons, opcodeOf] at hall
  simp only [decode, hall, if_false]

theorem accept_eq_ok_iff {op : Byte} {zeros : Bool} {i j : Instr} :
    accept op zeros j = .ok i ↔ zeros = true ∧ j = i := by
  cases zeros <;> simp [accept]

/-- What the decoder accepts: a word with the opcode of a row whose must-be-zero bits are 0. -/
theorem decode_eq_ok_iff_arm {w : Cmd} {i : Instr} :
    decode w = .ok i ↔ ∃ j, opOf w = opcodeOf j ∧ zerosOk j (argA w) (argD w) = true ∧
      readOperands j (argA w) (argD w) = i := by
  constructor
  · intro h
    by_cases hop : ∃ j, opOf w = opcodeOf j
    · obtain ⟨j, hj⟩ := hop
      rw [decode_of_opOf_eq hj, accept_eq_ok_iff] at h
      exact ⟨j, hj, h⟩
    · rw [decode_of_unknown_op (not_exists.1 hop)] at h
      cases h
  · rintro ⟨j, hj, h⟩
    rw [decode_of_opOf_eq hj, accept_eq_ok_iff]
    exact h

/-! ## Words that match a row (30_encoding R104, R108) -/

/-- A field that a row fixes, one whose care bits are all set, holds the row's bits in every word the row covers. -/
theorem extract_of_covers {r : Row} {w : Cmd} (h : r.covers w = true) {k n : Nat} {v : BitVec n}
    (hf : r.care.extractLsb' k n = BitVec.allOnes n ∧ r.bits.extractLsb' k n = v) : w.extractLsb' k n = v := by
  obtain ⟨hcare, hbits⟩ := hf
  have hw : w &&& r.care = r.bits := by simpa [Row.covers] using h
  rw [← hbits, ← hw, BitVec.extractLsb'_and, hcare, BitVec.and_allOnes]

theorem opOf_bits_rowOf (i : Instr) : opOf (rowOf i).bits = opcodeOf i := by
  cases i <;> (simp only [rowOf, opcodeOf]; decide)

/-- Every row fixes the opcode. -/
theorem opOf_of_covers {i : Instr} {w : Cmd} (h : (rowOf i).covers w = true) : opOf w = opcodeOf i :=
  extract_of_covers h ⟨by cases i <;> (simp only [rowOf]; decide), opOf_bits_rowOf i⟩

theorem extract_argA (w : Cmd) {k n : Nat} (h : k + n ≤ 32) : (argA w).extractLsb' k n = w.extractLsb' (32 + k) n := by
  ext j hj
  simp [argA, BitVec.getElem_extractLsb', show k + j < 32 by omega, Nat.add_assoc]

theorem extract_argD (w : Cmd) {k n : Nat} (h : k + n ≤ 32) : (argD w).extractLsb' k n = w.extractLsb' k n :=
  BitVec.extractLsb'_extractLsb'_of_le h

/-- The bits a format requires to be 0 are among the care bits of its row, where the row has 0. -/
theorem zerosOk_of_covers {i : Instr} {w : Cmd} (h : (rowOf i).covers w = true) :
    zerosOk i (argA w) (argD w) = true := by
  cases i with
  | wrb | wrh | wrw | stwc => rfl
  | rdb | rdh | rdw | ldwc | brdb | brdh | brdw =>
    exact beq_iff_eq.2 (extract_of_covers h (by simp only [rowOf]; decide))
  | render | tmlook | scrlwr | affwr | bgrst | irqreq | irqproc | imewr =>
    simp only [zerosOk, Bool.and_eq_true, beq_iff_eq, extract_argA, extract_argD, Nat.reduceAdd, Nat.reduceLeDiff]
    and_intros
    all_goals exact extract_of_covers h (by simp only [rowOf]; decide)

theorem covers_encode (i : Instr) : (rowOf i).covers (encode i) = true := by
  cases i with
  | rdb a => exact Laws.TableRow.rdb a
  | rdh a => exact Laws.TableRow.rdh a
  | rdw a => exact Laws.TableRow.rdw a
  | wrb a v => exact Laws.TableRow.wrb a v
  | wrh a v => exact Laws.TableRow.wrh a v
  | wrw a v => exact Laws.TableRow.wrw a v
  | ldwc a => exact Laws.TableRow.ldwc a
  | stwc a v => exact Laws.TableRow.stwc a v
  | brdb ofs => exact Laws.TableRow.brdb ofs
  | brdh ofs => exact Laws.TableRow.brdh ofs
  | brdw ofs => exact Laws.TableRow.brdw ofs
  | render bg line => exact Laws.TableRow.render bg line
  | tmlook bg x y => exact Laws.TableRow.tmlook bg x y
  | scrlwr bg axis v => exact Laws.TableRow.scrlwr bg axis v
  | affwr bg flag => exact Laws.TableRow.affwr bg flag
  | bgrst bg => exact Laws.TableRow.bgrst bg
  | irqreq n => exact Laws.TableRow.irqreq n
  | irqproc => exact Laws.TableRow.irqproc
  | imewr v => exact Laws.TableRow.imewr v

theorem rowOf_mem_opcodeTable (i : Instr) : rowOf i ∈ opcodeTable := by
  cases i <;> simp [opcodeTable, oneOfEach, rowOf]

theorem exists_rowOf_of_mem {r : Row} (h : r ∈ opcodeTable) : ∃ i, rowOf i = r := by
  obtain ⟨i, -, hi⟩ := List.mem_map.1 h
  exact ⟨i, hi⟩

/-- The opcodes of the table are different: its rows are told apart by them. -/
theorem eq_of_opOf_bits_eq {r r' : Row} (hr : r ∈ opcodeTable) (hr' : r' ∈ opcodeTable)
    (h : opOf r.bits = opOf r'.bits) : r = r' := by
  have nodup : (opcodeTable.map fun r => opOf r.bits).Nodup := by decide
  exact List.inj_on_of_nodup_map nodup hr hr' h

/-! ## Operands read back -/

theorem ofBool_getLsbD (d : Word) (k : Nat) : BitVec.ofBool (d.getLsbD k) = d.extractLsb' k 1 := by
  ext j hj
  obtain rfl : j = 0 := by omega
  simp

theorem axisBit_axisField (a : Word) : axisBit (axisField a) = a.extractLsb' 2 1 := by
  rw [← ofBool_getLsbD, axisField]
  cases a.getLsbD 2 <;> rfl


/-- The background index alone in a first argument (R102). -/
theorem bgArgument {a : Word} (h : a.extractLsb' 2 30 = 0) : 0#30 ++ bgBits (bgField a) = a :=
  calc 0#30 ++ bgBits (bgField a) = a.extractLsb' 2 30 ++ a.extractLsb' 0 2 := by rw [h, bgBits_bgField]; rfl
    _ = a := append_extract (n := 30) (m := 2) a

/-- Where the must-be-zero bits are 0, the first argument is the one the operands read from it are encoded in. -/
theorem encodeA_readOperands {i : Instr} {a d : Word} (h : zerosOk i a d = true) :
    encodeA (readOperands i a d) = a := by
  cases i with
  | rdb | rdh | rdw | ldwc | brdb | brdh | brdw | wrb | wrh | wrw | stwc => rfl
  | render =>
    simp only [zerosOk, Bool.and_eq_true, beq_iff_eq] at h
    obtain ⟨⟨h6, h16⟩, -⟩ := h
    calc 0#16 ++ a.extractLsb' 8 8 ++ 0#6 ++ bgBits (bgField a)
        = a.extractLsb' 16 16 ++ a.extractLsb' 8 8 ++ a.extractLsb' 2 6 ++ a.extractLsb' 0 2 := by
          rw [h6, h16, bgBits_bgField]; rfl
      _ = a.extractLsb' 0 32 := by
          rw [BitVec.extractLsb'_append_extractLsb'_eq_extractLsb',
            BitVec.extractLsb'_append_extractLsb'_eq_extractLsb',
            BitVec.extractLsb'_append_extractLsb'_eq_extractLsb'] <;> rfl
      _ = a := BitVec.extractLsb'_eq_self
  | tmlook => exact bgArgument (by simpa [zerosOk] using h)
  | affwr | bgrst =>
    simp only [zerosOk, Bool.and_eq_true, beq_iff_eq] at h
    exact bgArgument h.1
  | scrlwr =>
    simp only [zerosOk, Bool.and_eq_true, beq_iff_eq] at h
    calc 0#29 ++ axisBit (axisField a) ++ bgBits (bgField a)
        = a.extractLsb' 3 29 ++ a.extractLsb' 2 1 ++ a.extractLsb' 0 2 := by
          rw [h.1, axisBit_axisField, bgBits_bgField]; rfl
      _ = a.extractLsb' 0 32 := by
          rw [BitVec.extractLsb'_append_extractLsb'_eq_extractLsb',
            BitVec.extractLsb'_append_extractLsb'_eq_extractLsb'] <;> rfl
      _ = a := BitVec.extractLsb'_eq_self
  | irqreq =>
    simp only [zerosOk, Bool.and_eq_true, beq_iff_eq] at h
    calc 0#28 ++ BitVec.ofNat 4 (a.extractLsb' 0 4).toNat = a.extractLsb' 4 28 ++ a.extractLsb' 0 4 := by
          rw [h.1, BitVec.ofNat_toNat, BitVec.setWidth_eq]; rfl
      _ = a := append_extract (n := 28) (m := 4) a
  | irqproc | imewr =>
    simp only [zerosOk, Bool.and_eq_true, beq_iff_eq] at h
    exact h.1.symm

theorem encodeD_readOperands {i : Instr} {a d : Word} (h : zerosOk i a d = true) :
    encodeD (readOperands i a d) = d := by
  cases i with
  | wrb | wrh | wrw | stwc => rfl
  | rdb | rdh | rdw | ldwc | brdb | brdh | brdw => exact (beq_iff_eq.1 h).symm
  | render | bgrst | irqreq | irqproc =>
    simp only [zerosOk, Bool.and_eq_true, beq_iff_eq] at h
    exact h.2.symm
  | tmlook => exact append_extract (n := 16) (m := 16) d
  | scrlwr =>
    simp only [zerosOk, Bool.and_eq_true, beq_iff_eq] at h
    calc 0#16 ++ d.extractLsb' 0 16 = d.extractLsb' 16 16 ++ d.extractLsb' 0 16 := by rw [h.2]; rfl
      _ = d := append_extract (n := 16) (m := 16) d
  | affwr | imewr =>
    simp only [zerosOk, Bool.and_eq_true, beq_iff_eq] at h
    calc 0#31 ++ BitVec.ofBool (d.getLsbD 0) = d.extractLsb' 1 31 ++ d.extractLsb' 0 1 := by
          rw [h.2, ofBool_getLsbD]; rfl
      _ = d := append_extract (n := 31) (m := 1) d

theorem encode_readOperands {i : Instr} {a d : Word} (h : zerosOk i a d = true) :
    encode (readOperands i a d) = cmdWord (opcodeOf i) a d := by
  have hop : opcodeOf (readOperands i a d) = opcodeOf i := by cases i <;> rfl
  rw [encode, hop, encodeA_readOperands h, encodeD_readOperands h]

theorem axisField_append (axis : Axis) (bg : BgIndex) : axisField (0#29 ++ axisBit axis ++ bgBits bg) = axis := by
  cases axis <;> (revert bg; decide)

theorem getLsbD_append_ofBool (flag : Bool) : (0#31 ++ BitVec.ofBool flag).getLsbD 0 = flag := by
  cases flag <;> rfl

/-- The operands read from the arguments an instruction is encoded in are its own. -/
theorem readOperands_encode (i : Instr) : readOperands i (encodeA i) (encodeD i) = i := by
  cases i with
  | rdb | rdh | rdw | ldwc | brdb | brdh | brdw | wrb | wrh | wrw | stwc | irqproc => rfl
  | render bg line =>
    have hline : (0#16 ++ line ++ 0#6 ++ bgBits bg).extractLsb' 8 8 = line :=
      calc (0#16 ++ line ++ 0#6 ++ bgBits bg).extractLsb' 8 8
          = (0#16 ++ line).extractLsb' 0 8 := by
            rw [BitVec.extractLsb'_append_eq_of_le (by decide), BitVec.extractLsb'_append_eq_of_le (by decide)]
        _ = line := extract_append_lo _ _
    exact congrArg₂ Instr.render (bgField_append _ bg) hline
  | tmlook bg x y =>
    simp only [readOperands, encodeA, encodeD, bgField_append]
    rw [extract_append_lo y x, extract_append_hi y x]
  | scrlwr bg axis v =>
    simp only [readOperands, encodeA, encodeD, axisField_append]
    rw [extract_append_lo (0#16) v, bgField_append (0#29 ++ axisBit axis) bg]
  | affwr bg flag => exact congrArg₂ Instr.affwr (bgField_append _ bg) (getLsbD_append_ofBool flag)
  | bgrst bg => exact congrArg Instr.bgrst (bgField_append _ bg)
  | irqreq n => exact congrArg Instr.irqreq (sourceField_append _ n)
  | imewr flag => exact congrArg Instr.imewr (getLsbD_append_ofBool flag)

/-! ## The round trips and the table -/

/-- Settles O1: the word of an instruction takes the arm of its own row, whose must-be-zero bits are 0 in it. -/
theorem decodeInvertsEncode : Obligations.DecodeInvertsEncode := by
  intro i
  have hz : zerosOk i (argA (encode i)) (argD (encode i)) = true := zerosOk_of_covers (covers_encode i)
  refine decode_eq_ok_iff_arm.2 ⟨i, opOf_encode i, hz, ?_⟩
  rw [argA_encode, argD_encode, readOperands_encode]

/-- Settles O2: an accepted word has the opcode and the zeros of its arm, whose operands encode to the word's arguments. -/
theorem encodeInvertsDecode : Obligations.EncodeInvertsDecode := by
  intro w i h
  obtain ⟨j, hop, hz, rfl⟩ := decode_eq_ok_iff_arm.1 h
  rw [encode_readOperands hz, ← hop, cmdWord_fields]

theorem decode_eq_ok_iff {w : Cmd} {i : Instr} : decode w = .ok i ↔ encode i = w := by
  refine ⟨encodeInvertsDecode w i, ?_⟩
  rintro rfl
  exact decodeInvertsEncode i

theorem wellFormedWord_iff {w : Cmd} : wellFormedWord w = true ↔ ∃ i, (rowOf i).covers w = true := by
  rw [wellFormedWord, List.any_eq_true]
  constructor
  · rintro ⟨r, hr, h⟩
    obtain ⟨i, rfl⟩ := exists_rowOf_of_mem hr
    exact ⟨i, h⟩
  · rintro ⟨i, h⟩
    exact ⟨rowOf i, rowOf_mem_opcodeTable i, h⟩

theorem covers_of_decode {w : Cmd} {i : Instr} (h : decode w = .ok i) : (rowOf i).covers w = true := by
  rw [← decode_eq_ok_iff.1 h]
  exact covers_encode i

/-- The decoder accepts a word exactly if it is well-formed (30_encoding R108). -/
theorem decode_ok_iff_wellFormed (w : Cmd) : (∃ i, decode w = .ok i) ↔ wellFormedWord w = true := by
  rw [wellFormedWord_iff]
  constructor
  · rintro ⟨i, h⟩
    exact ⟨i, covers_of_decode h⟩
  · rintro ⟨j, h⟩
    exact ⟨_, decode_eq_ok_iff_arm.2 ⟨j, opOf_of_covers h, zerosOk_of_covers h, rfl⟩⟩

/-- Two rows that cover one word are the same: both have its opcode. -/
theorem rowOf_eq_of_covers {i j : Instr} {w : Cmd} (hi : (rowOf i).covers w = true) (hj : (rowOf j).covers w = true) :
    rowOf i = rowOf j := by
  refine eq_of_opOf_bits_eq (rowOf_mem_opcodeTable i) (rowOf_mem_opcodeTable j) ?_
  rw [opOf_bits_rowOf, opOf_bits_rowOf, ← opOf_of_covers hi, ← opOf_of_covers hj]

/-- Settles O3: an accepted word is covered by the row of what it decodes to, and by no other. -/
theorem decoderAcceptsExactlyTheTable : Obligations.DecoderAcceptsExactlyTheTable := by
  refine ⟨decode_ok_iff_wellFormed, fun w i r h hr => ?_⟩
  have hi := covers_of_decode h
  obtain ⟨j, rfl⟩ := exists_rowOf_of_mem hr
  refine ⟨fun hj => rowOf_eq_of_covers hj hi, fun e => ?_⟩
  rwa [e]

/-- Settles O4: each of the six words is the encoding of its command. -/
theorem exampleWordsDecode : Obligations.ExampleWordsDecode := by
  simp only [Obligations.ExampleWordsDecode, decode_eq_ok_iff]
  decide

end Sys2Proof
end

section
/-! The statements about a step (spec/30_encoding.md R100, R108): the command taken, or the report of a reserved word. -/

namespace Sys2Proof.Machine

theorem step_of_decode_ok {s : State} {p : Presented} {rest : List Presented} {i : Instr} (hp : s.port = p :: rest)
    (h : decode p.word = .ok i) : step s = exec i (takeCommand s p rest) := by
  simp only [step, hp, h]

theorem step_of_decode_error {s : State} {p : Presented} {rest : List Presented} {r : Reserved} (hp : s.port = p :: rest)
    (h : decode p.word = .error r) : step s = .next (reservedCommand (takeCommand s p rest) (opOf p.word)) := by
  simp only [step, hp, h]

/-- Settles O5: the step hands the command to `exec` in the state that `takeCommand` leaves. -/
theorem stepRunsTheDecodedCommand : Obligations.StepRunsTheDecodedCommand :=
  fun _ _ _ _ => step_of_decode_ok

/-- Settles O6: a word that is not well-formed is not accepted, and the step reports it. -/
theorem reservedWordsOnlyLatchAFault : Obligations.ReservedWordsOnlyLatchAFault := by
  intro s p rest hp hw
  cases h : decode p.word with
  | ok i =>
    have hok := (decode_ok_iff_wellFormed p.word).1 ⟨i, h⟩
    rw [hw] at hok
    cases hok
  | error r =>
    rw [step_of_decode_error hp h]
    rfl

end Sys2Proof.Machine
end

section
/-! The 16-bit registers of the I/O bytes through the bus (spec/30_encoding.md R112, 20_memory.md R68, R69): the halfword
accesses at a register, and what each register's two byte writes come to. -/

namespace Sys2Proof.Machine

/-! ## The halves of a register -/

theorem half_bytes (m : Half) : m.extractLsb' 8 8 ++ m.extractLsb' 0 8 = m := append_extract (n := 8) (m := 8) m

/-- A register after both its bytes are written. -/
theorem halfView_write_same (io : Memory) (o : Nat) (b0 b1 : Byte) :
    halfView (cellsWrite (cellsWrite io o b0) (o + 1) b1) o = b1 ++ b0 := by
  have h : o + 1 ≠ o := by omega
  rw [halfView, cellsRead_write_same, cellsRead_write_other h, cellsRead_write_same]

/-- A register after the two bytes of another are written. -/
theorem halfView_write_other {o o' : Nat} (h : o' ≠ o) (h0 : o' ≠ o + 1) (h1 : o' + 1 ≠ o) (io : Memory) (b0 b1 : Byte) :
    halfView (cellsWrite (cellsWrite io o b0) (o + 1) b1) o' = halfView io o' := by
  simp (disch := omega) only [halfView, cellsRead_write_other]

/-- Clearing in each byte the bits written as 1 clears them in the register (20_memory R69, D13). -/
theorem halfView_acknowledge (io : Memory) (o : Nat) (m : Half) :
    (cellsRead io (o + 1) &&& ~~~m.extractLsb' 8 8) ++ (cellsRead io o &&& ~~~m.extractLsb' 0 8) =
      halfView io o &&& ~~~m := by
  conv_rhs => rw [← half_bytes m, BitVec.not_append, halfView, BitVec.and_append]

/-! ## Halfword accesses at an I/O register (40_bus_plain R132, R135) -/

theorem exec_wrh_ioAddr (s : State) {o : Nat} (h : o + 1 < 0x3FF) (m : Half) :
    exec (.wrh (ioAddr o) (m.setWidth 32)) s =
      .next (complete (ioWrite8 (ioWrite8 s o (m.extractLsb' 0 8)) (o + 1) (m.extractLsb' 8 8)) 0) := by
  have h0 : o < 0x3FF := by omega
  have w0 : writableAt s (ioAddr o) := ⟨_, check_ioAddr h0 true⟩
  have w1 : writableAt s (ioAddr o + 1) := ⟨_, ioAddr_succ o ▸ check_ioAddr h true⟩
  simp only [exec, execWrh, memWrite, checkBytes_two w0 w1, finishWrite, bytesLE_two, writeBytes, ioAddr_succ,
    busWrite8_ioAddr h0, busWrite8_ioAddr h]
  rw [BitVec.extractLsb'_setWidth_of_le (by omega), BitVec.extractLsb'_setWidth_of_le (by omega)]

theorem ioRead8_of_ne {o : Nat} (h : o ≠ 0x208) (s : State) : ioRead8 s o = cellsRead s.io o := if_neg h

theorem exec_rdh_ioAddr (s : State) {o : Nat} (h : o + 1 < 0x3FF) (h0 : o ≠ 0x208) (h1 : o + 1 ≠ 0x208) :
    exec (.rdh (ioAddr o)) s = .next (complete s ((halfView s.io o).setWidth 32)) := by
  have r0 := busRead8_ioAddr (s := s) (show o < 0x3FF by omega)
  have r1 := busRead8_ioAddr (s := s) h
  rw [ioRead8_of_ne h0] at r0
  rw [ioRead8_of_ne h1, ← ioAddr_succ] at r1
  simp only [exec, execRdh, memRead_two r0 r1, finishRead, halfView]

/-! ## The enable mask and the request flags -/

theorem ioWrite8_ie {s : State} (h : paramsOk s.cfg = true) (b0 b1 : Byte) :
    ioWrite8 (ioWrite8 s s.cfg.ieOfs b0) (s.cfg.ieOfs + 1) b1 = setIo (setIo s s.cfg.ieOfs b0) (s.cfg.ieOfs + 1) b1 := by
  obtain ⟨p0, p1⟩ := plainIo_ie h
  rw [ioWrite8_plain p0]
  exact ioWrite8_plain (s := setIo s s.cfg.ieOfs b0) p1 b1

theorem ioWrite8_if {s : State} (h : paramsOk s.cfg = true) (b0 b1 : Byte) :
    ioWrite8 (ioWrite8 s s.cfg.ifOfs b0) (s.cfg.ifOfs + 1) b1 =
      setIo (setIo s s.cfg.ifOfs (cellsRead s.io s.cfg.ifOfs &&& ~~~b0)) (s.cfg.ifOfs + 1)
        (cellsRead s.io (s.cfg.ifOfs + 1) &&& ~~~b1) := by
  have hne : s.cfg.ifOfs ≠ s.cfg.ifOfs + 1 := by omega
  rw [ioWrite8_ack h (.inl rfl)]
  have hack1 := ioWrite8_ack (s := setIo s s.cfg.ifOfs (cellsRead s.io s.cfg.ifOfs &&& ~~~b0)) h (.inr rfl) b1
  rwa [setIo_cfg, setIo_io, cellsRead_write_other hne] at hack1

/-- Settles O28: two plain byte stores at the enable mask, two clearing ones at the request flags; no other byte changes. -/
theorem interruptRegistersThroughTheBus : Obligations.InterruptRegistersThroughTheBus := by
  intro s m hp
  have f := offsetFacts hp
  obtain ⟨hie0, hie1, hieLt⟩ := f.ie
  obtain ⟨hif0, hif1, hifLt⟩ := f.if_
  obtain ⟨hne, hne1, hne2⟩ := f.ieIf
  refine ⟨⟨_, exec_wrh_ioAddr s hieLt m, ?_⟩, ⟨_, exec_wrh_ioAddr s hifLt m, ?_⟩, exec_rdh_ioAddr s hifLt hif0 hif1,
    exec_rdh_ioAddr s hieLt hie0 hie1⟩
  · rw [ioWrite8_ie hp]
    exact ⟨(halfView_write_same ..).trans (half_bytes m), halfView_write_other hne.symm hne2.symm hne1.symm .., rfl⟩
  · rw [ioWrite8_if hp]
    exact ⟨(halfView_write_same ..).trans (halfView_acknowledge s.io s.cfg.ifOfs m),
      halfView_write_other hne hne1 hne2 .., rfl⟩

/-! ## A background's control register -/

theorem tileMapBase_toNat (c : Half) : (tileMapBase c).toNat = c.toNat / 256 % 32 * 0x800 := by
  simp only [tileMapBase, BitVec.toNat_mul, BitVec.toNat_setWidth, BitVec.extractLsb'_toNat,
    Nat.shiftRight_eq_div_pow, BitVec.reduceToNat, Nat.reducePow]
  omega

/-- The tile-map base is in five bits of the register (42_bgcnt_tilemap R165). -/
theorem tileMapBase_eq_iff (c c' : Half) :
    tileMapBase c = tileMapBase c' ↔ c.toNat / 256 % 32 = c'.toNat / 256 % 32 := by
  rw [← BitVec.toNat_inj, tileMapBase_toNat, tileMapBase_toNat]
  omega

/-- The background as a write of both control bytes leaves it, from the old register value and the new
(42_bgcnt_tilemap R170, R171). -/
def bgAfterControl (old new : Half) (b : Background) : Background :=
  { b with
    tdb := tileDataBase new
    pal256 := paletteMode new
    tmValid := b.tmValid && decide (new.toNat / 256 % 32 = old.toNat / 256 % 32) }

theorem bgcntWriteByte0_cfg (s : State) (k : BgIndex) (v : Byte) : (bgcntWriteByte0 s k v).cfg = s.cfg := rfl

theorem setIo_modifyBg (s : State) (k : BgIndex) (f : Background → Background) (o : Nat) (v : Byte) :
    setIo (modifyBg s k f) o v = modifyBg (setIo s o v) k f := rfl

/-- Both control bytes written, byte 0 first: byte 0 leaves the tile-map base, so byte 1 compares the old base with the
new one, and recaches last. -/
theorem ioWrite8_bgcnt {s : State} (h : paramsOk s.cfg = true) (k : BgIndex) (b0 b1 : Byte) :
    ioWrite8 (ioWrite8 s s.cfg.bgcntOfs[k] b0) (s.cfg.bgcntOfs[k] + 1) b1 =
      modifyBg (setIo (setIo s s.cfg.bgcntOfs[k] b0) (s.cfg.bgcntOfs[k] + 1) b1) k
        (bgAfterControl (bgcnt s k) (b1 ++ b0)) := by
  have old : tileMapBase (bgcnt (bgcntWriteByte0 s k b0) k) = tileMapBase (bgcnt s k) := tileMapBase_setIo_byte0 s k b0
  have new : bgcnt (setIo (bgcntWriteByte0 s k b0) (s.cfg.bgcntOfs[k] + 1) b1) k = b1 ++ b0 := halfView_write_same ..
  have base : (tileMapBase (bgcnt s k) = tileMapBase (b1 ++ b0)) ↔
      (b1 ++ b0).toNat / 256 % 32 = (bgcnt s k).toNat / 256 % 32 := (tileMapBase_eq_iff _ _).trans eq_comm
  calc ioWrite8 (ioWrite8 s s.cfg.bgcntOfs[k] b0) (s.cfg.bgcntOfs[k] + 1) b1
      = bgcntWriteByte1 (bgcntWriteByte0 s k b0) k b1 := by
        rw [ioWrite8_bg0 h]
        exact ioWrite8_bg1 (s := bgcntWriteByte0 s k b0) h k b1
    _ = modifyBg (setIo (bgcntWriteByte0 s k b0) (s.cfg.bgcntOfs[k] + 1) b1) k
          (bgAfterControl (bgcnt s k) (b1 ++ b0)) := by
        rw [bgcntWriteByte1_eq, old, bgcntWriteByte0_cfg, new]
        simp only [base]
        rfl
    _ = _ := by
        rw [bgcntWriteByte0_eq, setIo_modifyBg, modifyBg_modifyBg]
        rfl

/-- Settles O32: both bytes stored make the value the register, and no other register has a byte of it. -/
theorem controlRegisterReadsBackAsWritten : Obligations.ControlRegisterReadsBackAsWritten := by
  intro s k v hp
  have f := offsetFacts hp
  obtain ⟨h0, h1, hlt⟩ := f.bg k
  obtain ⟨ie0, ie1, ie2⟩ := f.bgIe k
  obtain ⟨if0, if1, if2⟩ := f.bgIf k
  have hwrite := exec_wrh_ioAddr s hlt v
  rw [ioWrite8_bgcnt hp, half_bytes] at hwrite
  have hread : halfView (cellsWrite (cellsWrite s.io s.cfg.bgcntOfs[k] (v.extractLsb' 0 8)) (s.cfg.bgcntOfs[k] + 1)
      (v.extractLsb' 8 8)) s.cfg.bgcntOfs[k] = v := (halfView_write_same ..).trans (half_bytes v)
  refine ⟨_, hwrite, rfl, hread, fun j hj => ?_, ?_, ?_, ?_⟩
  · exact halfView_write_other (f.bgs j k hj) (f.bgs1 k j).symm (f.bgs1 j k) ..
  · exact halfView_write_other ie0.symm ie2.symm ie1.symm ..
  · exact halfView_write_other if0.symm if2.symm if1.symm ..
  · refine (exec_rdh_ioAddr _ hlt h0 h1).trans ?_
    exact congrArg (fun c : Half => Host.Outcome.next (complete _ (c.setWidth 32))) hread

end Sys2Proof.Machine
end

section
/-! The plain bus accesses (spec/40_bus_plain.md R130 to R137) and the BIOS leaf reads (R138 to R141): what one, two and
four bytes come to, and what a bus write leaves unchanged. -/

namespace Sys2Proof.Machine

/-! ## Reads (40_bus_plain R131 to R133) -/

theorem exec_rdh_of_readable {s : State} {a : Word} {b0 b1 : Byte} (h0 : busRead8 s a = .ok b0)
    (h1 : busRead8 s (a + 1) = .ok b1) : exec (.rdh a) s = .next (complete s ((b1 ++ b0).setWidth 32)) := by
  simp only [exec, execRdh, memRead_two h0 h1, finishRead]

theorem exec_rdw_of_readable {s : State} {a : Word} {b0 b1 b2 b3 : Byte} (h0 : busRead8 s a = .ok b0)
    (h1 : busRead8 s (a + 1) = .ok b1) (h2 : busRead8 s (a + 2) = .ok b2) (h3 : busRead8 s (a + 3) = .ok b3) :
    exec (.rdw a) s = .next (complete s (b3 ++ b2 ++ b1 ++ b0)) := by
  simp only [exec, execRdw, memRead_four h0 h1 h2 h3, finishRead]

/-- Settles O18: the three reads complete with the bytes composed, and deliver the fault of the lowest failing byte. -/
theorem plainReadsComposeLittleEndian : Obligations.PlainReadsComposeLittleEndian := by
  refine ⟨fun s a b0 b1 b2 b3 h0 => ⟨exec_rdb_of_readable h0, fun h1 => ⟨exec_rdh_of_readable h0 h1, fun h2 h3 =>
    exec_rdw_of_readable h0 h1 h2 h3⟩⟩, fun s a n f h hf => ⟨fun hn => ?_, fun hn => ?_, fun hn => ?_⟩⟩
  · exact congrArg (finishRead s 0x00) (memRead_lowest hn h hf)
  · exact congrArg (finishRead s 0x01) (memRead_lowest hn h hf)
  · exact congrArg (finishRead s 0x02) (memRead_lowest hn h hf)

/-! ## Writes (40_bus_plain R134 to R136) -/

theorem exec_wrh_of_writable {s : State} {a : Word} (h0 : writableAt s a) (h1 : writableAt s (a + 1)) (v : Word) :
    exec (.wrh a v) s =
      .next (complete (busWrite8 (busWrite8 s a (v.extractLsb' 0 8)) (a + 1) (v.extractLsb' 8 8)) 0) := by
  simp only [exec, execWrh, memWrite, checkBytes_two h0 h1, finishWrite, bytesLE_two, writeBytes]

theorem exec_wrw_of_writable {s : State} {a : Word} (h0 : writableAt s a) (h1 : writableAt s (a + 1))
    (h2 : writableAt s (a + 2)) (h3 : writableAt s (a + 3)) (v : Word) :
    exec (.wrw a v) s = .next (complete (busWrite8 (busWrite8 (busWrite8 (busWrite8 s a (v.extractLsb' 0 8))
      (a + 1) (v.extractLsb' 8 8)) (a + 2) (v.extractLsb' 16 8)) (a + 3) (v.extractLsb' 24 8)) 0) := by
  simp only [exec, execWrw, memWrite, checkBytes_four h0 h1 h2 h3, finishWrite, bytesLE_four, writeBytes, add_one_one,
    add_two_one]

/-- Settles O20: all bytes pass the check and are stored one by one, or the lowest failing one's fault is delivered. -/
theorem plainWritesStoreLittleEndian : Obligations.PlainWritesStoreLittleEndian := by
  refine ⟨fun s a v h0 => ⟨exec_wrb_of_writable h0 v, fun h1 => ⟨exec_wrh_of_writable h0 h1 v, fun h2 h3 =>
    exec_wrw_of_writable h0 h1 h2 h3 v⟩⟩, fun s a v n f h hf => ⟨fun hn => ?_, fun hn => ?_, fun hn => ?_⟩⟩
  · exact congrArg (finishWrite s 0x04) (memWrite_lowest hn h hf)
  · exact congrArg (finishWrite s 0x05) (memWrite_lowest hn h hf)
  · exact congrArg (finishWrite s 0x06) (memWrite_lowest hn h hf)

/-! ## One write after another (40_bus_plain R137 (3)) -/

theorem complete_complete (s : State) (d e : Word) : complete (complete s d) e = complete s e := rfl

/-- After bus writes and a response the same bytes may be written as before. -/
theorem BusFrame.writableAt_complete {s t : State} (h : BusFrame s t) {a : Word} (ha : writableAt s a) (d : Word) :
    writableAt (complete t d) a := by
  rwa [writableAt_congr (s := s) (t := complete t d) h.cfg h.rom]

/-- WRB at `a` and WRB of the next byte end in the state of the one WRH. -/
theorem exec_wrh_eq_wrb_wrb {s : State} {a : Word} (h0 : writableAt s a) (h1 : writableAt s (a + 1)) (v : Word) :
    ∃ t, exec (.wrb a v) s = .next t ∧ exec (.wrb (a + 1) (v >>> 8)) t = exec (.wrh a v) s := by
  refine ⟨_, exec_wrb_of_writable h0 v, ?_⟩
  have h1' := (busWrite8_frame s a (v.extractLsb' 0 8)).writableAt_complete h1 0
  rw [exec_wrb_of_writable h1', exec_wrh_of_writable h0 h1, busWrite8_complete, complete_complete, extract_shift]

/-- WRH at `a` and WRH two above end in the state of the one WRW. -/
theorem exec_wrw_eq_wrh_wrh {s : State} {a : Word} (h0 : writableAt s a) (h1 : writableAt s (a + 1))
    (h2 : writableAt s (a + 2)) (h3 : writableAt s (a + 3)) (v : Word) :
    ∃ t, exec (.wrh a v) s = .next t ∧ exec (.wrh (a + 2) (v >>> 16)) t = exec (.wrw a v) s := by
  refine ⟨_, exec_wrh_of_writable h0 h1 v, ?_⟩
  have f := (busWrite8_frame s a (v.extractLsb' 0 8)).trans (busWrite8_frame _ (a + 1) (v.extractLsb' 8 8))
  have h2' := f.writableAt_complete h2 0
  have h3' := f.writableAt_complete (add_two_one a ▸ h3) 0
  rw [exec_wrh_of_writable h2' h3', exec_wrw_of_writable h0 h1 h2 h3, busWrite8_complete, busWrite8_complete,
    complete_complete, extract_shift, extract_shift, add_two_one]

/-- Settles O23: the second write completes because the first changes nothing a check looks at. -/
theorem wideWritesAreTheirByteWrites : Obligations.WideWritesAreTheirByteWrites := by
  intro s a v h0 h1
  refine ⟨?_, fun h2 h3 => ?_⟩
  · obtain ⟨t, ht, hu⟩ := exec_wrh_eq_wrb_wrb h0 h1 v
    exact ⟨t, _, ht, hu.trans (exec_wrh_of_writable h0 h1 v), exec_wrh_of_writable h0 h1 v⟩
  · obtain ⟨t, ht, hu⟩ := exec_wrw_eq_wrh_wrh h0 h1 h2 h3 v
    exact ⟨t, _, ht, hu.trans (exec_wrw_of_writable h0 h1 h2 h3 v), exec_wrw_of_writable h0 h1 h2 h3 v⟩

/-! ## Read after write (40_bus_plain R137 (1)) -/

/-- Outside ROM a byte that may be written may be read (20_memory R63). -/
theorem check_read_of_write {s : State} {a : Word} {r : Region} {o : Nat} (h : check s a true = .ok (r, o))
    (hr : r ≠ .rom) : check s a false = .ok (r, o) := by
  have hb : backed s r o false = true := by
    rw [← check_backed h]
    cases r with
    | rom => exact absurd rfl hr
    | _ => rfl
  rw [check_of_route (check_ok h), if_pos hb]

/-- An I/O write stores the byte unless its offset is 0x208 or a request-flag byte (20_memory R69). -/
theorem cellsRead_ioWrite8_same {s : State} {o : Nat} (h : o ≠ 0x208) (h0 : o ≠ s.cfg.ifOfs)
    (h1 : o ≠ s.cfg.ifOfs + 1) (v : Byte) : cellsRead (ioWrite8 s o v).io o = v := by
  rcases ioWrite8_cases s o v with
    ⟨e, -⟩ | ⟨-, e | e, -⟩ | ⟨-, -, -, ⟨k, rfl, -, he⟩ | ⟨-, k, rfl, -, he⟩ | ⟨-, -, he⟩⟩
  · exact absurd e h
  · exact absurd e h0
  · exact absurd e h1
  · rw [he, bgcntWriteByte0_eq]
    exact cellsRead_write_same _ _ _
  · rw [he, bgcntWriteByte1_eq]
    exact cellsRead_write_same _ _ _
  · rw [he]
    exact cellsRead_write_same _ _ _

theorem loadByte_storeByte_same {s : State} {r : Region} {o : Nat} (hr : r ≠ .rom)
    (hio : r = .io → o ≠ 0x208 ∧ o ≠ s.cfg.ifOfs ∧ o ≠ s.cfg.ifOfs + 1) (v : Byte) :
    loadByte (storeByte s r o v) r o = v := by
  cases r with
  | rom => exact absurd rfl hr
  | io =>
    obtain ⟨h, h0, h1⟩ := hio rfl
    exact (ioRead8_of_ne h _).trans (cellsRead_ioWrite8_same h h0 h1 v)
  | _ => exact cellsRead_write_same _ _ _

/-- A byte written where it is kept is the byte next read there. -/
theorem busRead8_busWrite8_same {s : State} {a : Word} (h : keepsByte s a) (v : Byte) :
    busRead8 (busWrite8 s a v) a = .ok v := by
  obtain ⟨r, o, hc, hr, hio⟩ := h
  have f := busWrite8_frame s a v
  have hread : check (busWrite8 s a v) a false = .ok (r, o) := by
    rw [check_congr f.cfg f.rom]
    exact check_read_of_write hc hr
  rw [busRead8_of_check hread, busWrite8_of_check hc, loadByte_storeByte_same hr hio]

/-- A bus read does not look at the response. -/
theorem busRead8_complete (s : State) (d : Word) : busRead8 (complete s d) = busRead8 s :=
  busRead8_congr rfl rfl rfl

theorem plainIo_ne {c : Config} {o : Nat} (h : plainIo c o = true) : o ≠ 0x208 ∧ o ≠ c.ifOfs ∧ o ≠ c.ifOfs + 1 := by
  simp only [plainIo, Bool.and_eq_true, decide_eq_true_eq] at h
  exact h.1

/-- Settles O22: RAM and the plain I/O offsets keep their bytes, and the response of WRB is nothing a read looks at. -/
theorem readAfterWriteGivesTheByteWritten : Obligations.ReadAfterWriteGivesTheByteWritten := by
  intro s a v r o hc hr hio
  refine ⟨_, exec_wrb_of_writable ⟨_, hc⟩ v, exec_rdb_of_readable ?_⟩
  rw [busRead8_complete]
  exact busRead8_busWrite8_same ⟨r, o, hc, hr, fun e => plainIo_ne (hio e)⟩ _

/-! ## The frames of the commands (40_bus_plain R130) -/

/-- The request byte of a source is that of its half of IF (44_irq R211). -/
theorem requestIrq_eq (s : State) (n : Fin 16) :
    requestIrq s n = setIo s (s.cfg.ifOfs + n.val / 8)
      (cellsRead s.io (s.cfg.ifOfs + n.val / 8) ||| BitVec.twoPow 8 (n.val % 8)) := by
  have ho : (if n.val < 8 then s.cfg.ifOfs else s.cfg.ifOfs + 1) = s.cfg.ifOfs + n.val / 8 := by
    split <;> omega
  rw [requestIrq, ho]

theorem setIo_byteAt {s : State} {o' : Nat} {r : Region} {o : Nat} (h : ¬(r = .io ∧ o = o')) (v : Byte) :
    byteAt (setIo s o' v) r o = byteAt s r o := by
  cases r with
  | io => exact cellsRead_write_other (fun e => h ⟨rfl, e.symm⟩) _ _
  | _ => rfl

/-- Only bus stores and the request of an interrupt change a byte of a region. -/
theorem Effect.byteAt {s u : State} {i : Instr} (h : Effect s i u) {r : Region} {o : Nat}
    (hs : ∀ p ∈ stores i, route p.1 ≠ some (r, o))
    (hq : ∀ n, i = .irqreq n → ¬(r = .io ∧ o = s.cfg.ifOfs + n.val / 8)) : byteAt u r o = byteAt s r o := by
  cases h with
  | write => exact storeAll_byteAt hs
  | irqreq n =>
    rw [requestIrq_eq]
    exact setIo_byteAt (hq n rfl) _
  | _ => rfl

/-- Settles O24: a fault changes no byte, and a command that completes only those of its effect. -/
theorem onlyAddressedBytesChange : Obligations.OnlyAddressedBytesChange := by
  intro i s t h r o hs hq
  rcases exec_next h with ⟨op, f, rfl⟩ | ⟨u, d, he, rfl⟩
  · rfl
  · exact he.byteAt hs hq

/-- A command that stores through the bus has no effect beyond its stores. -/
theorem Effect.eq_storeAll {s u : State} {i : Instr} (h : Effect s i u) (hs : stores i ≠ []) :
    u = storeAll s (stores i) := by
  cases h with
  | read hr => exact absurd (stores_of_isRead hr) hs
  | write => rfl
  | _ => exact absurd rfl hs

/-- Settles O25: a fault changes none of these, and stores through the bus have a frame of their own. -/
theorem busWritesReachBackgroundsOnlyByControlBytes : Obligations.BusWritesReachBackgroundsOnlyByControlBytes := by
  intro i s t hs h
  rcases exec_next h with ⟨op, f, rfl⟩ | ⟨u, d, he, rfl⟩
  · exact ⟨rfl, rfl, rfl, rfl, rfl, rfl, rfl, fun k => ⟨rfl, rfl, rfl, rfl, fun _ => rfl⟩⟩
  · rw [he.eq_storeAll hs]
    have f := storeAll_frame s (stores i)
    refine ⟨f.cfg, f.rom, f.bios, f.ime, f.fb, f.cpu, f.port, fun k => ?_⟩
    obtain ⟨hx, hy, ha, hb⟩ := f.bgs k
    exact ⟨hx, hy, ha, hb, storeAll_bg⟩

/-! ## BIOS leaf reads (40_bus_plain R138 to R141) -/

/-- Inside the image a leaf read takes the bytes from the offset on. -/
theorem biosBytes_inside {s : State} {o n : Nat} (h : o + n ≤ s.bios.length) :
    biosBytes s o n = .ok ((List.range n).map fun j => s.bios.getD (o + j) 0) := by
  induction n generalizing o with
  | zero => rfl
  | succ n ih =>
    rw [biosBytes, if_neg (by omega), ih (by omega), List.range_succ_eq_map]
    simp [Nat.add_assoc, Nat.add_comm 1]

theorem le_of_biosBytes_ok {s : State} {o n : Nat} {bs : List Byte} (h : biosBytes s o (n + 1) = .ok bs) :
    o + (n + 1) ≤ s.bios.length := by
  induction n generalizing o bs with
  | zero =>
    rw [biosBytes] at h
    split at h
    · cases h
    · omega
  | succ n ih =>
    rw [biosBytes] at h
    split at h
    · cases h
    · cases hb : biosBytes s (o + 1) (n + 1) with
      | error f => rw [hb] at h; cases h
      | ok bs' =>
        have := ih hb
        omega

/-- Where the last byte is outside the image a leaf read faults with the lowest offset that is (40_bus_plain R138). -/
theorem biosRead_outside {s : State} {ofs : Word} {n : Nat} (h : s.bios.length < ofs.toNat + (n + 1)) :
    biosRead s ofs (n + 1) = .error (.badAddress (BitVec.ofNat 32 (max ofs.toNat s.bios.length))) := by
  cases hb : biosBytes s ofs.toNat (n + 1) with
  | ok bs => exact absurd (le_of_biosBytes_ok hb) (by omega)
  | error f =>
    have hr : biosRead s ofs (n + 1) = .error f := by rw [biosRead, hb]
    rw [hr, biosRead_reports hr]

theorem biosRead_inside {s : State} {ofs : Word} {n : Nat} (h : ofs.toNat + n ≤ s.bios.length) :
    biosRead s ofs n = .ok (composeLE ((List.range n).map fun j => s.bios.getD (ofs.toNat + j) 0)) := by
  rw [biosRead, biosBytes_inside h]

/-- Settles O38: the bytes inside the image composed, or the fault of the lowest offset outside it. -/
theorem leafReadsComposeTheImage : Obligations.LeafReadsComposeTheImage := by
  intro s ofs o b
  refine ⟨fun h => ?_, fun h => ?_, fun h => ?_, fun h => ?_, fun h => ?_, fun h => ?_⟩
  · exact congrArg (finishRead s 0x10) ((biosRead_inside h).trans (congrArg Except.ok (composeLE_one _)))
  · exact congrArg (finishRead s 0x11) ((biosRead_inside h).trans (congrArg Except.ok (composeLE_two _ _)))
  · exact congrArg (finishRead s 0x12) ((biosRead_inside h).trans (congrArg Except.ok (composeLE_four _ _ _ _)))
  · exact congrArg (finishRead s 0x10) (biosRead_outside h)
  · exact congrArg (finishRead s 0x11) (biosRead_outside h)
  · exact congrArg (finishRead s 0x12) (biosRead_outside h)

end Sys2Proof.Machine
end

section
/-! The checked word accesses LDWC and STWC (spec/41_bus_checked.md R150 to R154): a checked load is one plain access at
the place its case names (`checkedSource`) and a function of the word read there (`checkedValue`); a checked store is the
plain word write at the aligned address. -/

namespace Sys2Proof.Machine

/-! ## Words as bytes -/

/-- Rotating a concatenation right by the width of its lower part swaps the two parts. -/
theorem rotateRight_append {n m : Nat} (hn : 0 < n) (x : BitVec n) (y : BitVec m) :
    (x ++ y).rotateRight m = (y ++ x).cast (Nat.add_comm m n) := by
  have hm : m % (n + m) = m := Nat.mod_eq_of_lt (by omega)
  ext i hi
  simp only [BitVec.getElem_rotateRight, hm, Nat.add_sub_cancel, BitVec.getElem_cast, BitVec.getElem_append]
  by_cases h : i < n
  · simp [h]
  · simp [h, show i - n < m by omega]

/-- `ror32` is the rotation of the word (20_memory R84). -/
theorem ror32_eq_rotateRight (w : Word) {n : Nat} (h : n < 32) : ror32 w n = w.rotateRight n := by
  rw [ror32, BitVec.rotateRight_def, Nat.mod_eq_of_lt h]
  split
  · next h0 => simp [h0]
  · rfl

theorem duplicateHalf_setWidth (h : Half) : duplicateHalf (h.setWidth 32) = h ++ h := by
  ext i hi
  rw [BitVec.getElem_append]
  by_cases hlt : i < 16
  · simp [duplicateHalf, hlt]
  · simp [duplicateHalf, hlt, show i - 16 < 16 by omega, BitVec.getLsbD_of_ge h i (by omega)]

/-- The DMA-count mask keeps the upper halfword (41_bus_checked R152, D8). -/
theorem and_upperHalf (x y : Half) : (x ++ y) &&& (0xFFFF0000 : Word) = x ++ 0#16 := by
  have h : (0xFFFF0000 : Word) = BitVec.allOnes 16 ++ 0#16 := rfl
  rw [h, BitVec.and_append, BitVec.and_allOnes, BitVec.and_zero]

section
variable (b0 b1 b2 b3 : Byte)

theorem word_eq_halves : b3 ++ b2 ++ b1 ++ b0 = (b3 ++ b2) ++ (b1 ++ b0) := BitVec.append_assoc

theorem word_eq_top_rest : b3 ++ b2 ++ b1 ++ b0 = b3 ++ (b2 ++ b1 ++ b0) :=
  (word_eq_halves b0 b1 b2 b3).trans <| BitVec.append_assoc.trans <|
    congrArg (b3 ++ ·) (BitVec.append_assoc' (x₁ := b2) (x₂ := b1) (x₃ := b0))

theorem ror32_word_8 : ror32 (b3 ++ b2 ++ b1 ++ b0) 8 = b0 ++ b3 ++ b2 ++ b1 := by
  rw [ror32_eq_rotateRight _ (by omega), word_eq_top_rest b1 b2 b3 b0]
  exact rotateRight_append (by omega) (b3 ++ b2 ++ b1) b0

theorem ror32_word_16 : ror32 (b3 ++ b2 ++ b1 ++ b0) 16 = b1 ++ b0 ++ b3 ++ b2 := by
  rw [ror32_eq_rotateRight _ (by omega), word_eq_halves, word_eq_halves b2 b3 b0 b1]
  exact rotateRight_append (by omega) (b3 ++ b2) (b1 ++ b0)

theorem ror32_word_24 : ror32 (b3 ++ b2 ++ b1 ++ b0) 24 = b2 ++ b1 ++ b0 ++ b3 := by
  rw [ror32_eq_rotateRight _ (by omega), word_eq_top_rest]
  exact rotateRight_append (by omega) b3 (b2 ++ b1 ++ b0)

end

/-! ## What a checked load reads and makes of it (41_bus_checked R152) -/

/-- What a checked load answers, from the value read at its source. -/
def checkedValue (s : State) (a w : Word) : Word :=
  if a.toNat % 4 ≠ 0 then ror32 w (8 * (a.toNat % 4))
  else if 0x10000000 ≤ a.toNat then
    match s.cpu.cpsr.t with
    | .arm   => w
    | .thumb => duplicateHalf w
  else if a ∈ s.cfg.dmacntAddrs then w &&& 0xFFFF0000 else w

/-- A checked load is the one access at its source and a function of the value read there. -/
theorem checkedLoad_eq (s : State) (a : Word) :
    checkedLoad s a = (memRead s (checkedSource s a).1 (checkedSource s a).2).map (checkedValue s a) := by
  unfold checkedLoad checkedSource checkedValue
  rw [lowBits_eq]
  by_cases hm : a.toNat % 4 ≠ 0
  · simp only [if_pos hm]
    cases memRead s (alignDown a) 4 <;> rfl
  · by_cases ho : 0x10000000 ≤ a.toNat
    · simp only [if_neg hm, if_pos ho]
      cases s.cpu.cpsr.t with
      | arm => cases memRead s s.cpu.pc 4 <;> rfl
      | thumb => cases memRead s s.cpu.pc 2 <;> rfl
    · simp only [if_neg hm, if_neg ho]
      by_cases hd : a ∈ s.cfg.dmacntAddrs
      · simp only [if_pos hd]
        cases memRead s a 4 <;> rfl
      · simp only [if_neg hd]
        cases memRead s a 4 <;> rfl

section
variable {s : State} {a : Word}

theorem checkedSource_misaligned (h : a.toNat % 4 ≠ 0) : checkedSource s a = (alignDown a, 4) := if_pos h

theorem checkedSource_arm (h : a.toNat % 4 = 0) (ho : 0x10000000 ≤ a.toNat) (ht : s.cpu.cpsr.t = .arm) :
    checkedSource s a = (s.cpu.pc, 4) := by
  rw [checkedSource, if_neg (not_not.2 h), if_pos ho, ht]

theorem checkedSource_thumb (h : a.toNat % 4 = 0) (ho : 0x10000000 ≤ a.toNat) (ht : s.cpu.cpsr.t = .thumb) :
    checkedSource s a = (s.cpu.pc, 2) := by
  rw [checkedSource, if_neg (not_not.2 h), if_pos ho, ht]

theorem checkedSource_aligned (h : a.toNat % 4 = 0) (hl : a.toNat < 0x10000000) : checkedSource s a = (a, 4) := by
  rw [checkedSource, if_neg (not_not.2 h), if_neg (by omega)]

theorem checkedValue_misaligned (h : a.toNat % 4 ≠ 0) (w : Word) :
    checkedValue s a w = ror32 w (8 * (a.toNat % 4)) := if_pos h

theorem checkedValue_arm (h : a.toNat % 4 = 0) (ho : 0x10000000 ≤ a.toNat) (ht : s.cpu.cpsr.t = .arm) (w : Word) :
    checkedValue s a w = w := by
  rw [checkedValue, if_neg (not_not.2 h), if_pos ho, ht]

theorem checkedValue_thumb (h : a.toNat % 4 = 0) (ho : 0x10000000 ≤ a.toNat) (ht : s.cpu.cpsr.t = .thumb) (x : Half) :
    checkedValue s a (x.setWidth 32) = x ++ x := by
  rw [checkedValue, if_neg (not_not.2 h), if_pos ho, ht, ← duplicateHalf_setWidth]

theorem checkedValue_dmaCount (h : a.toNat % 4 = 0) (hl : a.toNat < 0x10000000) (hd : a ∈ s.cfg.dmacntAddrs)
    (x y : Half) : checkedValue s a (x ++ y) = x ++ 0#16 := by
  rw [checkedValue, if_neg (not_not.2 h), if_neg (by omega), if_pos hd, and_upperHalf]

theorem checkedValue_plain (h : a.toNat % 4 = 0) (hl : a.toNat < 0x10000000) (hd : a ∉ s.cfg.dmacntAddrs) (w : Word) :
    checkedValue s a w = w := by
  rw [checkedValue, if_neg (not_not.2 h), if_neg (by omega), if_neg hd]

theorem exec_ldwc_of_memRead {p w : Word} {n : Nat} (hs : checkedSource s a = (p, n)) (hw : memRead s p n = .ok w) :
    exec (.ldwc a) s = .next (complete s (checkedValue s a w)) := by
  have h : checkedLoad s a = .ok (checkedValue s a w) := by
    rw [checkedLoad_eq, hs, hw]
    rfl
  exact congrArg (finishRead s 0x0A) h

/-- LDWC whose source is a word completes with its value of the four bytes. -/
theorem exec_ldwc_of_word {p : Word} (hs : checkedSource s a = (p, 4)) {b0 b1 b2 b3 : Byte}
    (h0 : busRead8 s (checkedSource s a).1 = .ok b0) (h1 : busRead8 s ((checkedSource s a).1 + 1) = .ok b1)
    (h2 : busRead8 s ((checkedSource s a).1 + 2) = .ok b2) (h3 : busRead8 s ((checkedSource s a).1 + 3) = .ok b3) :
    exec (.ldwc a) s = .next (complete s (checkedValue s a (b3 ++ b2 ++ b1 ++ b0))) := by
  rw [hs] at h0 h1 h2 h3
  exact exec_ldwc_of_memRead hs (memRead_four h0 h1 h2 h3)

theorem exec_ldwc_of_misaligned (h : a.toNat % 4 ≠ 0) {b0 b1 b2 b3 : Byte}
    (h0 : busRead8 s (checkedSource s a).1 = .ok b0) (h1 : busRead8 s ((checkedSource s a).1 + 1) = .ok b1)
    (h2 : busRead8 s ((checkedSource s a).1 + 2) = .ok b2) (h3 : busRead8 s ((checkedSource s a).1 + 3) = .ok b3) :
    exec (.ldwc a) s = .next (complete s (ror32 (b3 ++ b2 ++ b1 ++ b0) (8 * (a.toNat % 4)))) := by
  rw [exec_ldwc_of_word (checkedSource_misaligned h) h0 h1 h2 h3, checkedValue_misaligned h]

end

/-- Settles O34: in each case the source names the bytes read, and `checkedValue` what is made of them. -/
theorem checkedLoadCases : Obligations.CheckedLoadCases := by
  intro s a b0 b1 b2 b3 h0 h1
  refine ⟨fun h ho ht => ?_, fun h2 h3 => ⟨fun h => ?_, fun h => ?_, fun h => ?_, fun h ho ht => ?_, fun h hl hd => ?_,
    fun h hl hd => ?_⟩⟩
  · have hs := checkedSource_thumb h ho ht
    rw [hs] at h0 h1
    rw [exec_ldwc_of_memRead hs (memRead_two h0 h1), checkedValue_thumb h ho ht, word_eq_halves]
    rfl
  · rw [exec_ldwc_of_misaligned (by omega) h0 h1 h2 h3, h, ror32_word_8]
    rfl
  · rw [exec_ldwc_of_misaligned (by omega) h0 h1 h2 h3, h, ror32_word_16]
    rfl
  · rw [exec_ldwc_of_misaligned (by omega) h0 h1 h2 h3, h, ror32_word_24]
    rfl
  · rw [exec_ldwc_of_word (checkedSource_arm h ho ht) h0 h1 h2 h3, checkedValue_arm h ho ht]
    rfl
  · rw [exec_ldwc_of_word (checkedSource_aligned h hl) h0 h1 h2 h3, word_eq_halves, checkedValue_dmaCount h hl hd]
    rfl
  · rw [exec_ldwc_of_word (checkedSource_aligned h hl) h0 h1 h2 h3, checkedValue_plain h hl hd]
    rfl

/-- Settles O35: the one access of a checked load faults with the lowest failing byte at its source. -/
theorem checkedLoadFaults : Obligations.CheckedLoadFaults := by
  intro s a n f hn h hf
  have he : checkedLoad s a = .error f := by
    rw [checkedLoad_eq, memRead_lowest hn h hf]
    rfl
  exact congrArg (finishRead s 0x0A) he

/-! ## Checked stores (41_bus_checked R153) -/

/-- A checked store is the word write at the aligned address, which the statements name by its number. -/
theorem exec_stwc_eq (s : State) (a v : Word) :
    exec (.stwc a v) s = finishWrite s 0x0E (memWrite s (BitVec.ofNat 32 (a.toNat / 4 * 4)) 4 v) :=
  congrArg (fun p => finishWrite s 0x0E (memWrite s p 4 v)) (alignDown_eq a)

theorem memWrite_four {s : State} {p : Word} (h0 : writableAt s p) (h1 : writableAt s (p + 1))
    (h2 : writableAt s (p + 2)) (h3 : writableAt s (p + 3)) (v : Word) :
    memWrite s p 4 v = .ok (busWrite8 (busWrite8 (busWrite8 (busWrite8 s p (v.extractLsb' 0 8))
      (p + 1) (v.extractLsb' 8 8)) (p + 2) (v.extractLsb' 16 8)) (p + 3) (v.extractLsb' 24 8)) := by
  simp only [memWrite, checkBytes_four h0 h1 h2 h3, bytesLE_four, writeBytes, add_one_one, add_two_one]

/-- Settles O36: the word write at the aligned address stores its four bytes, or faults with the lowest failing one. -/
theorem checkedStoreAlignsDown : Obligations.CheckedStoreAlignsDown := by
  constructor
  · intro s a v p h0 h1 h2 h3
    rw [exec_stwc_eq, memWrite_four h0 h1 h2 h3]
    rfl
  · intro s a v n f p hn h hf
    rw [exec_stwc_eq, memWrite_lowest hn h hf]
    rfl

/-! ## Reading back what was stored -/

theorem route_inj {a a' : Word} {p : Region × Nat} (h : route a = some p) (h' : route a' = some p) : a = a' :=
  BitVec.eq_of_toNat_eq ((route_toNat h).trans (route_toNat h').symm)

/-- The byte a read of a region answers depends on the byte stored there alone (20_memory R64). -/
theorem loadByte_congr {s t : State} {r : Region} {o : Nat} (h : byteAt t r o = byteAt s r o) :
    loadByte t r o = loadByte s r o := by
  cases r with
  | io => exact congrArg (fun b => if o = 0x208 then 0 else b) h
  | _ => exact h

/-- A bus read answers the same after a bus write at another address. -/
theorem busRead8_busWrite8_other {s : State} {a a' : Word} (h : a ≠ a') (v : Byte) :
    busRead8 (busWrite8 s a' v) a = busRead8 s a := by
  have f := busWrite8_frame s a' v
  simp only [busRead8, check_congr f.cfg f.rom]
  cases hc : check s a false with
  | error e => rfl
  | ok p =>
    obtain ⟨r, o⟩ := p
    have hb : byteAt (busWrite8 s a' v) r o = byteAt s r o :=
      busWrite8_byteAt s a' v r o fun hr => h (route_inj (check_ok hc) hr)
    exact congrArg Except.ok (loadByte_congr hb)

theorem keepsByte_congr {s t : State} (hc : t.cfg = s.cfg) (hr : t.rom = s.rom) : keepsByte t = keepsByte s := by
  funext a
  simp only [keepsByte, check_congr hc hr, hc]

theorem writableAt_of_keepsByte {s : State} {a : Word} (h : keepsByte s a) : writableAt s a :=
  let ⟨r, o, hc, _⟩ := h
  ⟨(r, o), hc⟩

theorem busRead8_writeBytes_other {s : State} {a a' : Word} {bs : List Byte}
    (h : ∀ j < bs.length, a ≠ a' + BitVec.ofNat 32 j) : busRead8 (writeBytes s a' bs) a = busRead8 s a := by
  induction bs generalizing s a' with
  | nil => rfl
  | cons b bs ih =>
    have h0 : a ≠ a' := by simpa using h 0 (Nat.succ_pos _)
    rw [writeBytes, ih fun j hj => add_ofNat_succ a' j ▸ h (j + 1) (Nat.succ_lt_succ hj), busRead8_busWrite8_other h0]

/-- An address is not among the fewer than 2^32 that follow it. -/
theorem ne_add_one_add {a : Word} {j : Nat} (h : j + 1 < 2 ^ 32) : a ≠ a + 1 + BitVec.ofNat 32 j := by
  bv_omega

/-- Bytes stored where each is kept are the bytes next read there. -/
theorem readBytes_writeBytes {s : State} {a : Word} {bs : List Byte} (hl : bs.length ≤ 2 ^ 32)
    (h : ∀ j < bs.length, keepsByte s (a + BitVec.ofNat 32 j)) :
    readBytes (writeBytes s a bs) a bs.length = .ok bs := by
  induction bs generalizing s a with
  | nil => rfl
  | cons b bs ih =>
    rw [List.length_cons] at hl h
    have hk : keepsByte s a := by simpa using h 0 (Nat.succ_pos _)
    have f := busWrite8_frame s a b
    have hhead : busRead8 (writeBytes (busWrite8 s a b) (a + 1) bs) a = .ok b := by
      rw [busRead8_writeBytes_other fun j hj => ne_add_one_add (by omega), busRead8_busWrite8_same hk]
    have htail : readBytes (writeBytes (busWrite8 s a b) (a + 1) bs) (a + 1) bs.length = .ok bs := by
      refine ih (by omega) fun j hj => ?_
      rw [keepsByte_congr f.cfg f.rom, ← add_ofNat_succ]
      exact h (j + 1) (Nat.succ_lt_succ hj)
    rw [writeBytes, List.length_cons, readBytes, hhead]
    simp only [htail]

/-- A word is composed of its four bytes (20_memory R66, R67). -/
theorem composeLE_bytesLE_four (v : Word) : composeLE (bytesLE v 4) = v := by
  have h3 : v.extractLsb' 24 8 ++ v.extractLsb' 16 8 = v.extractLsb' 16 16 :=
    BitVec.extractLsb'_append_extractLsb'_eq_extractLsb' rfl
  have h2 : v.extractLsb' 16 16 ++ v.extractLsb' 8 8 = v.extractLsb' 8 24 :=
    BitVec.extractLsb'_append_extractLsb'_eq_extractLsb' rfl
  rw [bytesLE_four, composeLE_four, h3, h2]
  exact append_extract (n := 24) (m := 8) v

theorem memRead_writeBytes_word {s : State} {p : Word} (h : ∀ j < 4, keepsByte s (p + BitVec.ofNat 32 j)) (v : Word) :
    memRead (writeBytes s p (bytesLE v 4)) p 4 = .ok v := by
  have hr : readBytes (writeBytes s p (bytesLE v 4)) p 4 = .ok (bytesLE v 4) :=
    readBytes_writeBytes (bs := bytesLE v 4) (show 4 ≤ 2 ^ 32 by omega) h
  rw [memRead, hr]
  simp only [composeLE_bytesLE_four]

/-! ## A checked load after a checked store (41_bus_checked R154 (3)) -/

/-- The byte `j` of the aligned word stands `j` above the address rounded down. -/
theorem alignDown_add_toNat (a : Word) {j : Nat} (hj : j < 4) :
    (alignDown a + BitVec.ofNat 32 j).toNat = a.toNat / 4 * 4 + j := by
  have ha := a.isLt
  rw [alignDown_eq, ← BitVec.ofNat_add, BitVec.toNat_ofNat, Nat.mod_eq_of_lt (by omega)]

theorem alignDown_of_aligned {a : Word} (h : a.toNat % 4 = 0) : alignDown a = a := by
  rw [alignDown_eq, show a.toNat / 4 * 4 = a.toNat by omega, BitVec.ofNat_toNat, BitVec.setWidth_eq]

theorem forall_lt_four {P : Word → Prop} {p : Word} (h0 : P p) (h1 : P (p + 1)) (h2 : P (p + 2)) (h3 : P (p + 3)) :
    ∀ j < 4, P (p + BitVec.ofNat 32 j)
  | 0, _ => (BitVec.add_zero p).symm ▸ h0
  | 1, _ => h1
  | 2, _ => h2
  | 3, _ => h3

/-- Every window ends below the open-bus addresses (20_memory R76, 41_bus_checked R152). -/
theorem toNat_lt_of_writableAt {s : State} {a : Word} (h : writableAt s a) : a.toNat < 0x10000000 := by
  obtain ⟨⟨r, o⟩, hc⟩ := h
  have hr := check_ok hc
  have hlt := route_lt hr
  rw [route_toNat hr]
  cases r <;> simp only [regionBase, regionSize] at hlt ⊢ <;> omega

section
variable {s : State} {a : Word} (hk : ∀ j < 4, keepsByte s (alignDown a + BitVec.ofNat 32 j))
include hk

theorem toNat_lt_of_keepsWord : a.toNat < 0x10000000 := by
  have h := toNat_lt_of_writableAt (writableAt_of_keepsByte (hk 0 (by omega)))
  rw [alignDown_add_toNat a (by omega)] at h
  omega

/-- STWC of a word whose bytes are kept completes, and LDWC at the same address then reads the value stored. -/
theorem exec_stwc_ldwc (v : Word) : ∃ t, exec (.stwc a v) s = .next t ∧ t.cfg = s.cfg ∧
    exec (.ldwc a) t = .next (complete t (checkedValue t a v)) := by
  have hw : memWrite s (alignDown a) 4 v = .ok (writeBytes s (alignDown a) (bytesLE v 4)) := by
    rw [memWrite, checkBytes_of_writable fun j hj => writableAt_of_keepsByte (hk j hj)]
  have hr : memRead (complete (writeBytes s (alignDown a) (bytesLE v 4)) 0) (alignDown a) 4 = .ok v := by
    rw [memRead_congr (busRead8_complete _ 0), memRead_writeBytes_word hk]
  refine ⟨_, congrArg (finishWrite s 0x0E) hw, (writeBytes_frame s _ _).cfg, exec_ldwc_of_memRead ?_ hr⟩
  by_cases h : a.toNat % 4 = 0
  · rw [checkedSource_aligned h (toNat_lt_of_keepsWord hk), alignDown_of_aligned h]
  · exact checkedSource_misaligned h

end

/-- Below the open-bus addresses a checked load rotates the word, but at a DMA-count address. -/
theorem checkedValue_eq_rotateRight {s : State} {a : Word} (hl : a.toNat < 0x10000000)
    (h : a.toNat % 4 ≠ 0 ∨ a ∉ s.cfg.dmacntAddrs) (w : Word) :
    checkedValue s a w = w.rotateRight (8 * (a.toNat % 4)) := by
  by_cases hm : a.toNat % 4 = 0
  · rw [checkedValue_plain hm hl (h.resolve_left (not_not.2 hm)), hm]
    simp [BitVec.rotateRight_def]
  · rw [checkedValue_misaligned hm, ror32_eq_rotateRight _ (by omega)]

/-- Every byte of internal work RAM is kept. -/
theorem keepsByte_iwram (s : State) {a : Word} (h : 0x03000000 ≤ a.toNat) (h' : a.toNat ≤ 0x03007FFF) :
    keepsByte s a := by
  have hr : route a = some (.iwram, a.toNat - 0x03000000) :=
    route_of_toNat (show a.toNat - 0x03000000 < 0x8000 by omega) (show a.toNat = 0x03000000 + _ by omega)
  exact ⟨.iwram, _, by rw [check_of_route hr]; rfl, nofun, nofun⟩

/-- The DMA-count addresses stand in the I/O window (00_scope R8). -/
theorem le_of_mem_dmacntAddrs {c : Config} (h : paramsOk c = true) {a : Word} (ha : a ∈ c.dmacntAddrs) :
    0x04000000 ≤ a.toNat := by
  simp only [paramsOk, dmacntOk, Bool.and_eq_true, List.all_eq_true, decide_eq_true_eq] at h
  obtain ⟨⟨-, -, hd⟩, -⟩ := h
  exact (hd a ha).2.1

/-- Settles O37: the load reads the value stored, and makes of it what its case says. -/
theorem checkedStoreThenLoadRotates : Obligations.CheckedStoreThenLoadRotates := by
  constructor
  · intro s a v p h0 h1 h2 h3
    have hk : ∀ j < 4, keepsByte s (alignDown a + BitVec.ofNat 32 j) := by
      rw [alignDown_eq]
      exact forall_lt_four h0 h1 h2 h3
    have hl := toNat_lt_of_keepsWord hk
    obtain ⟨t, ht, hcfg, hload⟩ := exec_stwc_ldwc hk v
    refine ⟨t, ht, fun h => ?_, fun h hd => ?_⟩
    · rw [← hcfg] at h
      rw [hload, checkedValue_eq_rotateRight hl h]
      rfl
    · rw [← hcfg] at hd
      have hv := checkedValue_dmaCount h hl hd (v.extractLsb' 16 16) (v.extractLsb' 0 16)
      rw [append_extract (n := 16) (m := 16) v] at hv
      rw [hload, hv]
      rfl
  · intro s a v hp hlo hhi
    have hk : ∀ j < 4, keepsByte s (alignDown a + BitVec.ofNat 32 j) := fun j hj => by
      have hj' := alignDown_add_toNat a hj
      exact keepsByte_iwram s (by omega) (by omega)
    obtain ⟨t, ht, hcfg, hload⟩ := exec_stwc_ldwc hk v
    have hd : a ∉ t.cfg.dmacntAddrs := fun h => by
      have := le_of_mem_dmacntAddrs hp (hcfg ▸ h)
      omega
    refine ⟨t, ht, ?_⟩
    rw [hload, checkedValue_eq_rotateRight (by omega) (.inr hd)]
    rfl

end Sys2Proof.Machine
end

section
/-! The control registers of the backgrounds and the tile map (spec/42_bgcnt_tilemap.md R162 to R179): the fields of a
register and of an entry as numbers, the control byte writes, the lookup, and how far its fetches reach. -/

namespace Sys2Proof.Machine

/-! ## Fields as numbers (42_bgcnt_tilemap R162 to R166, R174) -/

/-- A field of a halfword is a quotient of its value cut to the field's length. -/
theorem half_field_toNat (c : Half) (i n : Nat) : (c.extractLsb' i n).toNat = c.toNat / 2 ^ i % 2 ^ n := by
  rw [BitVec.extractLsb'_toNat, Nat.shiftRight_eq_div_pow]

/-- A bit of a halfword is the parity of a quotient of its value. -/
theorem half_bit (c : Half) (i : Nat) : c.getLsbD i = decide (c.toNat / 2 ^ i % 2 = 1) := by
  rw [← BitVec.testBit_toNat, Nat.testBit_eq_decide_div_mod_eq]

theorem priority_toNat (c : Half) : (priority c).toNat = c.toNat % 4 := by
  rw [priority, half_field_toNat]
  omega

theorem tileDataBase_toNat (c : Half) : (tileDataBase c).toNat = c.toNat / 4 % 4 * 0x4000 := by
  simp only [tileDataBase, BitVec.toNat_mul, BitVec.toNat_setWidth, half_field_toNat, BitVec.reduceToNat, Nat.reducePow]
  omega

theorem sizeCode_toNat (c : Half) : (sizeCode c).toNat = c.toNat / 16384 := by
  have hc := c.isLt
  rw [sizeCode, half_field_toNat]
  omega

theorem sizeCode_cases (c : Half) :
    c.toNat / 16384 = 0 ∨ c.toNat / 16384 = 1 ∨ c.toNat / 16384 = 2 ∨ c.toNat / 16384 = 3 := by
  have hc := c.isLt
  omega

/-- Bit 0 of the size code doubles a regular background's width, bit 1 its height (42_bgcnt_tilemap R166). -/
theorem bgSizeOf_regular (c : Half) :
    bgSizeOf c false = (256 * (1 + c.toNat / 16384 % 2), 256 * (1 + c.toNat / 16384 / 2)) := by
  rw [bgSizeOf, sizeCode_toNat]
  rcases sizeCode_cases c with e | e | e | e <;> rw [e] <;> rfl

/-- An affine background is square and doubles with the size code (42_bgcnt_tilemap R166). -/
theorem bgSizeOf_affine (c : Half) :
    bgSizeOf c true = (128 * 2 ^ (c.toNat / 16384), 128 * 2 ^ (c.toNat / 16384)) := by
  rw [bgSizeOf, sizeCode_toNat]
  rcases sizeCode_cases c with e | e | e | e <;> rw [e] <;> rfl

/-- Settles O33: each field by `half_field_toNat` or `half_bit`, the sizes by their formulas in the size code. -/
theorem controlRegisterFieldsDecode : Obligations.ControlRegisterFieldsDecode := by
  intro c
  rw [bgSizeOf_regular, bgSizeOf_affine]
  refine ⟨priority_toNat c, tileDataBase_toNat c, half_bit c 6, half_bit c 7, tileMapBase_toNat c, half_bit c 13,
    ?_, ?_, ?_, ?_⟩ <;>
  · intro e
    rw [e]
    exact ⟨rfl, rfl⟩

theorem tileIndex_eq (e : Half) : tileIndex e = e.toNat % 1024 := by
  rw [tileIndex, half_field_toNat]
  omega

theorem subPalette_eq (e : Half) : subPalette e = e.toNat / 4096 := by
  have he := e.isLt
  rw [subPalette, half_field_toNat]
  omega

/-- A background of 256 pixels is one screenblock wide, so its screenblocks follow each other row by row
(42_bgcnt_tilemap R174). -/
theorem entryAddr_screenblock_eq_linear (base ty : Nat) {tx : Nat} (h : tx < 32) :
    entryAddr .screenblock base 256 tx ty = entryAddr .linear base 256 tx ty := by
  simp only [entryAddr]
  omega

/-- Settles O60: the fields as for a control register; both formulas are the definition's. -/
theorem tileMapEntriesDecode : Obligations.TileMapEntriesDecode := by
  refine ⟨fun e => ⟨tileIndex_eq e, half_bit e 10, half_bit e 11, subPalette_eq e⟩,
    fun base w tx ty => ⟨rfl, rfl, ?_⟩⟩
  rintro rfl h
  exact entryAddr_screenblock_eq_linear base ty h

/-! ## The control bytes (42_bgcnt_tilemap R169 to R173) -/

/-- WRB of an I/O byte completes with the I/O write of its offset (40_bus_plain R134). -/
theorem exec_wrb_ioAddr (s : State) {o : Nat} (h : o < 0x3FF) (v : Word) :
    exec (.wrb (ioAddr o) v) s = .next (complete (ioWrite8 s o (v.extractLsb' 0 8)) 0) := by
  rw [exec_wrb_of_writable ⟨_, check_ioAddr h true⟩, busWrite8_ioAddr h]

/-- The register after a store of its byte 0. -/
theorem bgcnt_setIo_byte0 (s : State) (k : BgIndex) (b : Byte) :
    bgcnt (setIo s s.cfg.bgcntOfs[k] b) k = (bgcnt s k).extractLsb' 8 8 ++ b := by
  have hne : s.cfg.bgcntOfs[k] ≠ s.cfg.bgcntOfs[k] + 1 := by omega
  simp only [bgcnt, halfView, setIo_cfg, setIo_io, cellsRead_write_same, cellsRead_write_other hne]
  rw [extract_append_hi]

/-- The register after a store of its byte 1. -/
theorem bgcnt_setIo_byte1 (s : State) (k : BgIndex) (b : Byte) :
    bgcnt (setIo s (s.cfg.bgcntOfs[k] + 1) b) k = b ++ (bgcnt s k).extractLsb' 0 8 := by
  have hne : s.cfg.bgcntOfs[k] + 1 ≠ s.cfg.bgcntOfs[k] := by omega
  simp only [bgcnt, halfView, setIo_cfg, setIo_io, cellsRead_write_same, cellsRead_write_other hne]
  rw [extract_append_lo]

/-- Byte 1 of a register is its quotient by 256. -/
theorem append_div_256 (hi lo : Byte) : (hi ++ lo).toNat / 256 = hi.toNat := by
  have hlo := lo.isLt
  rw [BitVec.toNat_append, ← Nat.shiftLeft_add_eq_or_of_lt hlo, Nat.shiftLeft_eq]
  omega

/-- Settles O29: the I/O write at byte 0 is its mutator, which stores the byte and recaches. -/
theorem controlByteZeroRecaches : Obligations.ControlByteZeroRecaches := by
  intro s k v hp
  have hlt : s.cfg.bgcntOfs[k] < 0x3FF := by have := (offsetFacts hp).bg k; omega
  refine ⟨_, exec_wrb_ioAddr s hlt v, ?_⟩
  rw [ioWrite8_bg0 hp]
  exact ⟨bgcnt_setIo_byte0 s k _, rfl⟩

/-- Settles O30: the I/O write at byte 1 is its mutator, and the base is compared by the byte's low five bits. -/
theorem controlByteOneResetsOnBaseChange : Obligations.ControlByteOneResetsOnBaseChange := by
  intro s k v hp
  obtain ⟨-, -, hlt⟩ := (offsetFacts hp).bg k
  have base : tileMapBase (bgcnt s k) = tileMapBase (v.extractLsb' 0 8 ++ (bgcnt s k).extractLsb' 0 8) ↔
      v.toNat % 32 = (bgcnt s k).toNat / 256 % 32 := by
    rw [tileMapBase_eq_iff, append_div_256, BitVec.extractLsb'_toNat, Nat.shiftRight_zero]
    omega
  refine ⟨_, exec_wrb_ioAddr s hlt v, ?_⟩
  rw [ioWrite8_bg1 hp, bgcntWriteByte1_eq]
  refine ⟨bgcnt_setIo_byte1 s k _, ?_⟩
  simp only [bgcnt_complete, bgcnt_modifyBg, bgcnt_setIo_byte1, base]
  rfl

/-- Both control bytes written, byte 1 first: byte 1 compares the old base with the new one, and byte 0 recaches last. -/
theorem ioWrite8_bgcnt_byte1_first {s : State} (h : paramsOk s.cfg = true) (k : BgIndex) (b0 b1 : Byte) :
    ioWrite8 (ioWrite8 s (s.cfg.bgcntOfs[k] + 1) b1) s.cfg.bgcntOfs[k] b0 =
      modifyBg (setIo (setIo s (s.cfg.bgcntOfs[k] + 1) b1) s.cfg.bgcntOfs[k] b0) k
        (bgAfterControl (bgcnt s k) (b1 ++ b0)) := by
  have new : bgcnt (setIo (setIo s (s.cfg.bgcntOfs[k] + 1) b1) s.cfg.bgcntOfs[k] b0) k = b1 ++ b0 := by
    refine (bgcnt_setIo_byte0 (setIo s (s.cfg.bgcntOfs[k] + 1) b1) k b0).trans ?_
    rw [bgcnt_setIo_byte1, extract_append_hi]
  have base : (tileMapBase (bgcnt s k) = tileMapBase (bgcnt (setIo s (s.cfg.bgcntOfs[k] + 1) b1) k)) ↔
      (b1 ++ b0).toNat / 256 % 32 = (bgcnt s k).toNat / 256 % 32 := by
    rw [tileMapBase_eq_iff, bgcnt_setIo_byte1, append_div_256, append_div_256, eq_comm]
  calc ioWrite8 (ioWrite8 s (s.cfg.bgcntOfs[k] + 1) b1) s.cfg.bgcntOfs[k] b0
      = bgcntWriteByte0 (bgcntWriteByte1 s k b1) k b0 := by
        rw [ioWrite8_bg1 h, bgcntWriteByte1_eq]
        exact ioWrite8_bg0 (s := modifyBg (setIo s (s.cfg.bgcntOfs[k] + 1) b1) k _) h k b0
    _ = _ := by
        rw [bgcntWriteByte0_eq, bgcntWriteByte1_eq, modifyBg_cfg, setIo_cfg, setIo_modifyBg, bgcnt_modifyBg,
          modifyBg_modifyBg, new]
        simp only [base]
        rfl

/-- Settles O31: either order leaves the background as `bgAfterControl` says, and the two stores commute. -/
theorem controlByteWritesCommute : Obligations.ControlByteWritesCommute := by
  intro s k v0 v1 hp hwf
  have hne : s.cfg.bgcntOfs[k] ≠ s.cfg.bgcntOfs[k] + 1 := by omega
  obtain ⟨-, -, hlt⟩ := (offsetFacts hp).bg k
  have hlt0 : s.cfg.bgcntOfs[k] < 0x3FF := by omega
  have comm : setIo (setIo s s.cfg.bgcntOfs[k] v0) (s.cfg.bgcntOfs[k] + 1) v1 =
      setIo (setIo s (s.cfg.bgcntOfs[k] + 1) v1) s.cfg.bgcntOfs[k] v0 :=
    congrArg (fun io => { s with io := io }) (cellsWrite_comm hwf hne v0 v1)
  rw [busWrite8_ioAddr hlt0, busWrite8_ioAddr hlt, busWrite8_ioAddr hlt, busWrite8_ioAddr hlt0, ioWrite8_bgcnt hp,
    ioWrite8_bgcnt_byte1_first hp, comm]

/-! ## The background commands (42_bgcnt_tilemap R172 to R178) -/

/-- Settles O40: each command changes one background, BGRST twice. -/
theorem backgroundWritesChangeOnlyTheirRegister : Obligations.BackgroundWritesChangeOnlyTheirRegister := by
  intro s bg v f
  refine ⟨rfl, rfl, rfl, ?_⟩
  rw [exec, execBgrst, resetTileMap, recache, modifyBg_modifyBg]
  rfl

/-- TMLOOK on an affine background is refused (42_bgcnt_tilemap R175). -/
theorem exec_tmlook_affine {s : State} {bg : BgIndex} (h : s.bgs[bg].affine = true) (x y : Half) :
    exec (.tmlook bg x y) s = .next (raiseFault s 0x21 (.unimplementedMode bg)) := by
  rw [exec, execTmlook, if_pos h]
  rfl

/-- Caching the tile-map base leaves the size of every background (42_bgcnt_tilemap R166). -/
theorem bgSize_tmBaseGet (s : State) (k : BgIndex) : bgSize (tmBaseGet s k) k = bgSize s k := by
  rw [bgSize, tmBaseGet_eq, bgcnt_modifyBg, modifyBg_get, if_pos rfl]
  rfl

/-- With the base cached, the entry of a pixel wrapped at the background's size is the one at its address. -/
theorem tileEntry_tmBaseGet (s : State) (k : BgIndex) (x y : Nat) :
    tileEntry (tmBaseGet s k) k (x % (bgSize s k).1) (y % (bgSize s k).2) = entryAt s k x y := by
  rw [tileEntry, bgSize_tmBaseGet, tmBaseGet_eq, modifyBg_get, if_pos rfl]
  rfl

/-- TMLOOK on a regular background responds the entry of the pixel and caches the base (42_bgcnt_tilemap R175). -/
theorem exec_tmlook_regular {s : State} {bg : BgIndex} (h : s.bgs[bg].affine = false) (x y : Half) :
    exec (.tmlook bg x y) s =
      .next { s with bgs := bgsAfterLookup s bg, rsp := ⟨0, (entryAt s bg x.toNat y.toNat).setWidth 32⟩ } := by
  rw [exec, execTmlook, if_neg (ne_true_of_eq_false h)]
  simp only [bgSize_tmBaseGet, tileEntry_tmBaseGet]
  rw [tmBaseGet_eq]
  rfl

/-- The base a lookup uses, as a number (42_bgcnt_tilemap R165, R172). -/
theorem tmBaseOf_toNat (s : State) (k : BgIndex) : (tmBaseOf s k).toNat =
    if s.bgs[k].tmValid then s.bgs[k].tmBase.toNat else (bgcnt s k).toNat / 256 % 32 * 0x800 := by
  rw [tmBaseOf, apply_ite BitVec.toNat, tileMapBase_toNat]

/-- Settles O39: the entry's address by the formula of each layout, or the refusal. -/
theorem tileMapLookupRespondsTheEntry : Obligations.TileMapLookupRespondsTheEntry := by
  intro s bg x y
  refine ⟨fun h => ?_, fun h => exec_tmlook_affine h x y⟩
  intro w tx ty base ea
  have hbase : (tmBaseOf s bg).toNat = base := tmBaseOf_toNat s bg
  have hcached : BitVec.ofNat 32 base = tmBaseOf s bg := by rw [← hbase, BitVec.ofNat_toNat, BitVec.setWidth_eq]
  have hea : entryAddr s.cfg.tilemapLayout (tmBaseOf s bg).toNat w tx ty = ea := by
    rw [hbase]
    cases hl : s.cfg.tilemapLayout with
    | screenblock => simp only [entryAddr, ea, hl, Nat.add_assoc]
    | linear => simp only [entryAddr, ea, hl]
  rw [exec_tmlook_regular h, hcached, ← hea]
  rfl

/-- The entry is periodic in the background's width and height (42_bgcnt_tilemap R174). -/
theorem entryAt_add_width (s : State) (k : BgIndex) (x y : Nat) :
    entryAt s k (x + (bgSize s k).1) y = entryAt s k x y := by
  simp only [entryAt, Nat.add_mod_right]

theorem entryAt_add_height (s : State) (k : BgIndex) (x y : Nat) :
    entryAt s k x (y + (bgSize s k).2) = entryAt s k x y := by
  simp only [entryAt, Nat.add_mod_right]

/-- TMLOOK answers alike for pixels with the same entry. -/
theorem exec_tmlook_congr {s : State} {bg : BgIndex} {x x' y y' : Half}
    (h : entryAt s bg x'.toNat y'.toNat = entryAt s bg x.toNat y.toNat) :
    exec (.tmlook bg x' y') s = exec (.tmlook bg x y) s := by
  cases ha : s.bgs[bg].affine with
  | true => rw [exec_tmlook_affine ha, exec_tmlook_affine ha]
  | false => rw [exec_tmlook_regular ha, exec_tmlook_regular ha, h]

theorem half_add_toNat {x : Half} {n : Nat} (h : x.toNat + n < 65536) : (x + BitVec.ofNat 16 n).toNat = x.toNat + n := by
  rw [BitVec.toNat_add, BitVec.toNat_ofNat]
  omega

/-- Settles O41: a sum that fits in 16 bits is the number added to, and the entry is periodic in both. -/
theorem tileMapLookupIsPeriodic : Obligations.TileMapLookupIsPeriodic := by
  intro s bg x y
  refine ⟨fun h => exec_tmlook_congr ?_, fun h => exec_tmlook_congr ?_⟩
  · rw [half_add_toNat h, entryAt_add_width]
  · rw [half_add_toNat h, entryAt_add_height]

/-- With coherent caches the base a lookup uses is the register's, as a number (10_state R48 (3)). -/
theorem Inv.tmBaseOf_toNat {s : State} (h : Inv s) (k : BgIndex) :
    (tmBaseOf s k).toNat = (bgcnt s k).toNat / 256 % 32 * 0x800 := by
  rw [h.tmBaseOf_eq, tileMapBase_toNat]

/-- Settles O42: the lookup responds the entry at its base, which the invariant says is the register's. -/
theorem lookupsUseTheCurrentBase : Obligations.LookupsUseTheCurrentBase := by
  intro s bg x y hinv ha
  refine ⟨_, exec_tmlook_regular ha x y, ?_⟩
  simp only [entryAt, hinv.tmBaseOf_toNat]

/-! ## How far the fetches reach (42_bgcnt_tilemap R174, 43_render R192) -/

/-- A regular background is 256 or 512 pixels wide and high (42_bgcnt_tilemap R166). -/
theorem bgSize_of_regular {s : State} {k : BgIndex} (h : s.bgs[k].affine = false) :
    ((bgSize s k).1 = 256 ∨ (bgSize s k).1 = 512) ∧ ((bgSize s k).2 = 256 ∨ (bgSize s k).2 = 512) := by
  have hc := (bgcnt s k).isLt
  rw [bgSize, h, bgSizeOf_regular]
  omega

/-- The entries of a regular background fill at most four screenblocks from the base on, in both layouts. -/
theorem entryAddr_lt {w h : Nat} (hw : w = 256 ∨ w = 512) (hh : h = 256 ∨ h = 512) (layout : TilemapLayout)
    (base x y : Nat) : entryAddr layout base w (x % w / 8) (y % h / 8) + 1 < base + 0x2000 := by
  have hx : x % w / 8 < w / 8 := by rcases hw with rfl | rfl <;> omega
  have hy : y % h / 8 < 64 := by rcases hh with rfl | rfl <;> omega
  generalize x % w / 8 = tx at hx ⊢
  generalize y % h / 8 = ty at hy ⊢
  cases layout with
  | screenblock =>
    have hblock : ty / 32 * (w / 256) + tx / 32 < 4 := by rcases hw with rfl | rfl <;> omega
    simp only [entryAddr]
    omega
  | linear =>
    have hindex : ty * (w / 8) + tx < 4096 := by rcases hw with rfl | rfl <;> omega
    simp only [entryAddr]
    omega

/-- The 16-colour tile data of a background fill 0x8000 bytes from the base on (43_render R192). -/
theorem tileByte4_lt (s : State) (k : BgIndex) (line x : Nat) :
    tileByte4 s k line x < s.bgs[k].tdb.toNat + 0x8000 := by
  have htile := tileIndex_eq (entryAt s k (bgColumn s k x) (bgRow s k line))
  rw [tileByte4]
  omega

/-- Settles O47: coherent caches hold bases of at most 0xF800 and 0xC000, and the fetches reach 0x2000 and 0x8000 bytes
from there. -/
theorem tileMapAndSixteenColourFetchesStayInsideVideoRam :
    Obligations.TileMapAndSixteenColourFetchesStayInsideVideoRam := by
  intro s k x y hinv ha
  obtain ⟨hw, hh⟩ := bgSize_of_regular ha
  obtain ⟨htdb, -⟩ := hinv.renderCache k
  have hentry := entryAddr_lt hw hh s.cfg.tilemapLayout (tmBaseOf s k).toNat x y
  have htile := tileByte4_lt s k y x
  rw [htdb, tileDataBase_toNat] at htile
  have hbase := hinv.tmBaseOf_toNat k
  omega

end Sys2Proof.Machine
end

section
/-! The scanline renderer RENDER (spec/43_render.md R190 to R197): its refusals, the colour of a pixel as an entry of
the palette, the row a whole line of colours draws, the fault of the lowest failing column, and scrolling by the
background's size. -/

namespace Sys2Proof.Machine

/-! ## The refusals, and the row of a line that is not refused (43_render R190) -/

section
variable {s : State} {bg : BgIndex} {line : BitVec 8}

theorem exec_render_beyond (h : s.cfg.screenH ≤ line.toNat) :
    exec (.render bg line) s = .next (raiseFault s 0x20 (.reservedCommand (line.setWidth 32))) := if_pos h

theorem exec_render_affine (hl : line.toNat < s.cfg.screenH) (ha : s.bgs[bg].affine = true) :
    exec (.render bg line) s = .next (raiseFault s 0x20 (.unimplementedMode bg)) :=
  (if_neg (Nat.not_le.mpr hl)).trans (if_pos ha)

theorem exec_render_refused (hl : line.toNat < s.cfg.screenH) (ha : s.bgs[bg].affine = false)
    (hp : s.bgs[bg].pal256 = true ∧ s.cfg.pal256Render = .refuse) :
    exec (.render bg line) s = .next (raiseFault s 0x20 (.unimplementedMode bg)) :=
  (if_neg (Nat.not_le.mpr hl)).trans ((if_neg (ne_true_of_eq_false ha)).trans (if_pos hp))

theorem exec_render_row (hl : line.toNat < s.cfg.screenH) (ha : s.bgs[bg].affine = false)
    (hp : ¬(s.bgs[bg].pal256 = true ∧ s.cfg.pal256Render = .refuse)) :
    exec (.render bg line) s = finishWrite s 0x20 (renderRow s bg line.toNat) :=
  (if_neg (Nat.not_le.mpr hl)).trans ((if_neg (ne_true_of_eq_false ha)).trans (if_neg hp))

end

/-- Settles O46: the three tests of RENDER, in their order. -/
theorem renderRefusals : Obligations.RenderRefusals := fun _ _ _ =>
  ⟨exec_render_beyond, exec_render_affine, fun hl ha hp hr => exec_render_refused hl ha ⟨hp, hr⟩⟩

/-! ## The colour of a pixel, the tile-map base cached (43_render R191 to R194) -/

/-- Caching the tile-map base of a background changes its cache alone (42_bgcnt_tilemap R172). -/
theorem bg_tmBaseGet (s : State) (k : BgIndex) :
    (tmBaseGet s k).bgs[k] = { s.bgs[k] with tmBase := tmBaseOf s k, tmValid := true } := by
  rw [tmBaseGet_eq, modifyBg_get, if_pos rfl]

theorem tmBaseGet_vram (s : State) (k : BgIndex) : (tmBaseGet s k).vram = s.vram := by rw [tmBaseGet_eq, modifyBg_vram]

theorem tmBaseGet_pal (s : State) (k : BgIndex) : (tmBaseGet s k).pal = s.pal := by rw [tmBaseGet_eq, modifyBg_pal]

/-- The column and row of a pixel are wrapped already, so its entry is the one at them. -/
theorem tileEntry_tmBaseGet_pixel (s : State) (k : BgIndex) (line x : Nat) :
    tileEntry (tmBaseGet s k) k (bgColumn s k x) (bgRow s k line) =
      entryAt s k (bgColumn s k x) (bgRow s k line) := by
  rw [← tileEntry_tmBaseGet, bgColumn, bgRow, Nat.mod_mod, Nat.mod_mod]

/-- The nibble of a pixel's byte is picked by the parity of its column, in the tile as in the background. -/
theorem nibbleOf_column (b : Byte) (c : Nat) :
    nibbleOf b (c % 8) = if c % 2 = 0 then b.toNat % 16 else b.toNat / 16 := by
  have hb := b.isLt
  have hparity : c % 8 % 2 = c % 2 := by omega
  have hhigh : b.toNat / 16 % 16 = b.toNat / 16 := by omega
  simp only [nibbleOf, hparity, BitVec.extractLsb'_toNat, Nat.shiftRight_eq_div_pow, Nat.reducePow, Nat.div_one, hhigh]

/-- The palette index of a pixel in 16-colour mode: the backdrop's, or in the entry's sub-palette (43_render R192). -/
def paletteIndex4 (s : State) (k : BgIndex) (line x : Nat) : Nat :=
  if pixelValue4 s k line x = 0 then 0
  else subPalette (entryAt s k (bgColumn s k x) (bgRow s k line)) * 16 + pixelValue4 s k line x

/-- `Pixel4` of a pixel's entry, column and row is its palette index. -/
theorem pixel4_eq (s : State) (k : BgIndex) (line x : Nat) :
    pixel4 s.vram s.bgs[k].tdb.toNat (tileIndex (entryAt s k (bgColumn s k x) (bgRow s k line))) (bgRow s k line % 8)
      (bgColumn s k x % 8) (subPalette (entryAt s k (bgColumn s k x) (bgRow s k line))) = paletteIndex4 s k line x := by
  rw [pixel4, nibbleOf_column]
  rfl

/-- A pixel of a 16-colour background has a colour: the palette entry at its index (43_render R192, R193). -/
theorem pixelColor_sixteen {s : State} {k : BgIndex} (h : s.bgs[k].pal256 = false) (line x : Nat) :
    pixelColor (tmBaseGet s k) k line x = .ok (paletteEntry s (paletteIndex4 s k line x)) := by
  rw [← pixel4_eq, ← tileEntry_tmBaseGet_pixel]
  simp only [pixelColor, bg_tmBaseGet, bgSize_tmBaseGet, tmBaseGet_vram, tmBaseGet_pal, h]
  rfl

/-- A pixel of a 256-colour background is decided by its byte's offset: a fault beyond video RAM, else the palette entry
the byte names (43_render R193, R194). -/
theorem pixelColor_twoFiftySix {s : State} {k : BgIndex} (h : s.bgs[k].pal256 = true) (line x : Nat) :
    pixelColor (tmBaseGet s k) k line x =
      if 0x18000 ≤ tileByte8 s k line x then .error (.renderOutOfRange (BitVec.ofNat 32 (tileByte8 s k line x)))
      else .ok (paletteEntry s (cellsRead s.vram (tileByte8 s k line x)).toNat) := by
  have hcol : (s.bgs[k].scrollX.toNat + x) % (bgSize s k).1 = bgColumn s k x := rfl
  have hrow : (s.bgs[k].scrollY.toNat + line) % (bgSize s k).2 = bgRow s k line := rfl
  have hbyte : s.bgs[k].tdb.toNat + tileIndex (entryAt s k (bgColumn s k x) (bgRow s k line)) * 64 +
    bgRow s k line % 8 * 8 + bgColumn s k x % 8 = tileByte8 s k line x := rfl
  simp only [pixelColor, pixel8, bg_tmBaseGet, bgSize_tmBaseGet, tmBaseGet_vram, tmBaseGet_pal, h, if_true, hcol, hrow,
    tileEntry_tmBaseGet_pixel, hbyte]
  by_cases hr : 0x18000 ≤ tileByte8 s k line x
  · rw [if_pos hr, if_pos hr]
  · rw [if_neg hr, if_neg hr]
    rfl

/-! ## A row of colours (43_render R190) -/

/-- Where every pixel has a colour, the row has them. -/
theorem exists_rowColors {s : State} {k : BgIndex} {line x n : Nat}
    (h : ∀ i < n, ∃ c, pixelColor s k line (x + i) = .ok c) : ∃ row, rowColors s k line x n = .ok row := by
  induction n generalizing x with
  | zero => exact ⟨[], rfl⟩
  | succ n ih =>
    obtain ⟨c, hc⟩ : ∃ c, pixelColor s k line x = .ok c := h 0 (by omega)
    obtain ⟨row, hrow⟩ : ∃ row, rowColors s k line (x + 1) n = .ok row := ih fun i hi => by
      rw [Nat.add_right_comm]
      exact h (i + 1) (by omega)
    exact ⟨c :: row, by rw [rowColors, hc, hrow]⟩

/-- The lowest pixel without a colour gives the row its fault (60_exceptions R244). -/
theorem rowColors_of_error {s : State} {k : BgIndex} {line x n i : Nat} {f : BlockFault} (hi : i < n)
    (hlow : ∀ j < i, ∃ c, pixelColor s k line (x + j) = .ok c) (h : pixelColor s k line (x + i) = .error f) :
    rowColors s k line x n = .error f := by
  induction i generalizing x n with
  | zero =>
    obtain ⟨n, rfl⟩ := Nat.exists_eq_add_of_lt hi
    have hhead : pixelColor s k line x = .error f := h
    rw [rowColors, hhead]
  | succ i ih =>
    obtain ⟨n, rfl⟩ : ∃ m, n = m + 1 := ⟨n - 1, by omega⟩
    obtain ⟨c, hc⟩ := hlow 0 (by omega)
    have hhead : pixelColor s k line x = .ok c := hc
    have htail : rowColors s k line (x + 1) n = .error f := ih (by omega)
      (fun j hj => by rw [Nat.add_right_comm]; exact hlow (j + 1) (by omega)) (by rw [Nat.add_right_comm]; exact h)
    rw [rowColors, hhead, htail]

/-- A row written into the framebuffer is read back in its line, and every other line stays (10_state R37). -/
theorem cellsRead_writePixels_row (fb : FrameBuffer) {row : List Half} (hr : row.length = screenW) (line y : Nat)
    {x : Nat} (hx : x < screenW) : cellsRead (writePixels fb (line * screenW) row) (y * screenW + x) =
      if y = line then row.getD x 0 else cellsRead fb (y * screenW + x) := by
  have hline : line * screenW ≤ y * screenW + x ∧ y * screenW + x < line * screenW + screenW ↔ y = line := by
    simp only [screenW] at hx ⊢
    omega
  rw [writePixels_read, hr]
  simp only [hline]
  by_cases hy : y = line
  · rw [if_pos hy, if_pos hy, hy, Nat.add_sub_cancel_left]
  · rw [if_neg hy, if_neg hy]

section
variable {s : State} {bg : BgIndex} {line : BitVec 8} (hl : line.toNat < s.cfg.screenH)
  (ha : s.bgs[bg].affine = false) (hp : ¬(s.bgs[bg].pal256 = true ∧ s.cfg.pal256Render = .refuse))
include hl ha hp

/-- Where every pixel of the line has a colour, RENDER completes: it draws them, caches the tile-map base and leaves all
else (43_render R190). -/
theorem exec_render_draws {c : Nat → Half}
    (hc : ∀ x < 240, pixelColor (tmBaseGet s bg) bg line.toNat x = .ok (c x)) :
    ∃ t, exec (.render bg line) s = .next t ∧
      t = { s with fb := t.fb, bgs := bgsAfterLookup s bg, rsp := ⟨0, 0⟩ } ∧
      (∀ x < 240, fbPixel t line.toNat x = c x) ∧
      (∀ y x, x < 240 → y ≠ line.toNat → fbPixel t y x = fbPixel s y x) := by
  obtain ⟨row, hrow⟩ : ∃ row, rowColors (tmBaseGet s bg) bg line.toNat 0 screenW = .ok row :=
    exists_rowColors fun x hx => ⟨c x, by rw [Nat.zero_add]; exact hc x hx⟩
  obtain ⟨hlen, hcolor⟩ := rowColors_ok hrow
  have hread := fun y x => cellsRead_writePixels_row s.fb hlen line.toNat y (x := x)
  refine ⟨{ s with fb := writePixels s.fb (line.toNat * screenW) row, bgs := bgsAfterLookup s bg, rsp := ⟨0, 0⟩ },
    ?_, rfl, fun x hx => ?_, fun y x hx hy => (hread y x hx).trans (if_neg hy)⟩
  · rw [exec_render_row hl ha hp, renderRow, hrow, tmBaseGet_eq]
    rfl
  · have hx' := hcolor x hx
    rw [Nat.zero_add, hc x hx, Except.ok.injEq] at hx'
    exact ((hread _ x hx).trans (if_pos rfl)).trans hx'.symm

/-- Where a pixel of the line has none, RENDER faults with that of the lowest such column and writes nothing (43_render
R190, 60_exceptions R244). -/
theorem exec_render_faults {x : Nat} (hx : x < 240)
    (hlow : ∀ z < x, ∃ c, pixelColor (tmBaseGet s bg) bg line.toNat z = .ok c) {f : BlockFault}
    (hf : pixelColor (tmBaseGet s bg) bg line.toNat x = .error f) :
    exec (.render bg line) s = .next (raiseFault s 0x20 f) := by
  have hrow : rowColors (tmBaseGet s bg) bg line.toNat 0 screenW = .error f :=
    rowColors_of_error (i := x) hx (fun j hj => by rw [Nat.zero_add]; exact hlow j hj) (by rw [Nat.zero_add]; exact hf)
  rw [exec_render_row hl ha hp, renderRow, hrow]
  rfl

end

/-- Settles O44: every pixel of a 16-colour background has a colour. -/
theorem renderDrawsSixteenColourRow : Obligations.RenderDrawsSixteenColourRow := fun _ _ line hl ha hp =>
  exec_render_draws hl ha (fun h => ne_true_of_eq_false hp h.1) fun x _ => pixelColor_sixteen hp line.toNat x

/-- Settles O45: a pixel of a 256-colour background has a colour where its byte is inside video RAM. -/
theorem renderDrawsTwoFiftySixColourRow : Obligations.RenderDrawsTwoFiftySixColourRow := by
  intro s bg line hl ha hp hmode
  have hallowed : ¬(s.bgs[bg].pal256 = true ∧ s.cfg.pal256Render = .refuse) := by simp [hmode]
  have inside : ∀ {x}, tileByte8 s bg line.toNat x < 0x18000 → pixelColor (tmBaseGet s bg) bg line.toNat x =
      .ok (paletteEntry s (cellsRead s.vram (tileByte8 s bg line.toNat x)).toNat) := fun h => by
    rw [pixelColor_twoFiftySix hp, if_neg (Nat.not_le.mpr h)]
  refine ⟨fun h => exec_render_draws hl ha hallowed fun x hx => inside (h x hx), fun x hx hlow h => ?_⟩
  refine exec_render_faults hl ha hallowed hx (fun z hz => ⟨_, inside (hlow z hz)⟩) ?_
  rw [pixelColor_twoFiftySix hp, if_pos h]

/-! ## Scrolling by the background's size (43_render R197 (1)) -/

/-- The state with the scroll registers of background `k` advanced. -/
def scrolled (s : State) (k : BgIndex) (dx dy : Half) : State :=
  modifyBg s k fun b => { b with scrollX := b.scrollX + dx, scrollY := b.scrollY + dy }

/-- A scroll value advanced by nothing or, without overflow, by a size names the same position modulo that size. -/
theorem scroll_add_mod {v d : Half} {size : Nat} (h : d = 0 ∨ d.toNat = size ∧ v.toNat + d.toNat < 65536)
    (i : Nat) : ((v + d).toNat + i) % size = (v.toNat + i) % size := by
  rcases h with rfl | ⟨rfl, hlt⟩
  · rw [BitVec.ofNat_eq_ofNat, BitVec.add_zero]
  · rw [BitVec.toNat_add_of_lt hlt, Nat.add_right_comm, Nat.add_mod_right]

section
variable (s : State) (k : BgIndex) (dx dy : Half)

theorem bg_scrolled : (scrolled s k dx dy).bgs[k] =
    { s.bgs[k] with scrollX := s.bgs[k].scrollX + dx, scrollY := s.bgs[k].scrollY + dy } := by
  rw [scrolled, modifyBg_get, if_pos rfl]

theorem bgSize_scrolled : bgSize (scrolled s k dx dy) k = bgSize s k := by
  rw [bgSize, bg_scrolled]
  rfl

theorem tmBaseOf_scrolled : tmBaseOf (scrolled s k dx dy) k = tmBaseOf s k := by
  rw [tmBaseOf, bg_scrolled]
  rfl

theorem entryAt_scrolled (x y : Nat) : entryAt (scrolled s k dx dy) k x y = entryAt s k x y := by
  simp only [entryAt, bgSize_scrolled, tmBaseOf_scrolled]
  rfl

variable {s k dx dy}
variable (hx : dx = 0 ∨ dx.toNat = (bgSize s k).1 ∧ s.bgs[k].scrollX.toNat + dx.toNat < 65536)
variable (hy : dy = 0 ∨ dy.toNat = (bgSize s k).2 ∧ s.bgs[k].scrollY.toNat + dy.toNat < 65536)

include hx in
theorem bgColumn_scrolled (x : Nat) : bgColumn (scrolled s k dx dy) k x = bgColumn s k x := by
  rw [bgColumn, bgSize_scrolled, bg_scrolled]
  exact scroll_add_mod hx x

include hy in
theorem bgRow_scrolled (line : Nat) : bgRow (scrolled s k dx dy) k line = bgRow s k line := by
  rw [bgRow, bgSize_scrolled, bg_scrolled]
  exact scroll_add_mod hy line

include hx hy

theorem tileByte4_scrolled (line x : Nat) : tileByte4 (scrolled s k dx dy) k line x = tileByte4 s k line x := by
  simp only [tileByte4, bgColumn_scrolled hx, bgRow_scrolled hy, entryAt_scrolled, bg_scrolled]

theorem tileByte8_scrolled (line x : Nat) : tileByte8 (scrolled s k dx dy) k line x = tileByte8 s k line x := by
  simp only [tileByte8, bgColumn_scrolled hx, bgRow_scrolled hy, entryAt_scrolled, bg_scrolled]

theorem paletteIndex4_scrolled (line x : Nat) :
    paletteIndex4 (scrolled s k dx dy) k line x = paletteIndex4 s k line x := by
  simp only [paletteIndex4, pixelValue4, tileByte4_scrolled hx hy, bgColumn_scrolled hx, bgRow_scrolled hy,
    entryAt_scrolled]
  rfl

/-- A pixel keeps its colour: it has the same column and row of the background. -/
theorem pixelColor_scrolled (line x : Nat) : pixelColor (tmBaseGet (scrolled s k dx dy) k) k line x =
    pixelColor (tmBaseGet s k) k line x := by
  cases hp : s.bgs[k].pal256 with
  | false =>
    have hp' : (scrolled s k dx dy).bgs[k].pal256 = false := by rw [bg_scrolled, hp]
    rw [pixelColor_sixteen hp, pixelColor_sixteen hp', paletteIndex4_scrolled hx hy]
    rfl
  | true =>
    have hp' : (scrolled s k dx dy).bgs[k].pal256 = true := by rw [bg_scrolled, hp]
    rw [pixelColor_twoFiftySix hp, pixelColor_twoFiftySix hp', tileByte8_scrolled hx hy]
    rfl

end

/-- Rows whose pixels agree agree. -/
theorem rowColors_congr {s s' : State} {k : BgIndex} {line : Nat}
    (h : ∀ x, pixelColor s' k line x = pixelColor s k line x) (x n : Nat) :
    rowColors s' k line x n = rowColors s k line x n := by
  induction n generalizing x with
  | zero => rfl
  | succ n ih => simp only [rowColors, h, ih]

section
variable {s s' : State} {bg : BgIndex} {line : BitVec 8} (hfb : s'.fb = s.fb)
  (h : ∀ x, pixelColor (tmBaseGet s' bg) bg line.toNat x = pixelColor (tmBaseGet s bg) bg line.toNat x)
include hfb

theorem observed_raiseFault (op : Byte) (f : BlockFault) :
    observed (.next (raiseFault s' op f)) = observed (.next (raiseFault s op f)) := by
  simp only [observed, raiseFault_rsp, raiseFault_fb, hfb]

include h

/-- The row of a RENDER is observed alike where the pixels agree: its fault, or the framebuffer with it. -/
theorem observed_renderRow (op : Byte) :
    observed (finishWrite s' op (renderRow s' bg line.toNat)) =
      observed (finishWrite s op (renderRow s bg line.toNat)) := by
  rw [renderRow, renderRow, rowColors_congr h]
  cases rowColors (tmBaseGet s bg) bg line.toNat 0 screenW with
  | error f => exact observed_raiseFault hfb op f
  | ok row => simp only [finishWrite, observed, complete_rsp, complete_fb, tmBaseGet_eq, modifyBg_fb, hfb]

/-- RENDER is observed alike where its tests and the pixels agree. -/
theorem observed_execRender_congr (hcfg : s'.cfg = s.cfg) (ha : s'.bgs[bg].affine = s.bgs[bg].affine)
    (hp : s'.bgs[bg].pal256 = s.bgs[bg].pal256) :
    observed (execRender bg line s') = observed (execRender bg line s) := by
  simp only [execRender, hcfg, ha, hp]
  split_ifs
  · exact observed_raiseFault hfb _ _
  · exact observed_raiseFault hfb _ _
  · exact observed_raiseFault hfb _ _
  · exact observed_renderRow hfb h _

end

/-- Settles O48: scrolling by the background's size keeps every pixel's colour, so RENDER is observed alike. -/
theorem renderIsPeriodicInScroll : Obligations.RenderIsPeriodicInScroll := by
  intro s bg line t t' dx dy hx hy ht ht'
  have hb := bg_scrolled s bg dx dy
  have ho : observed (exec (.render bg line) (scrolled s bg dx dy)) = observed (exec (.render bg line) s) :=
    observed_execRender_congr rfl (pixelColor_scrolled hx hy line.toNat) rfl (by rw [hb]) (by rw [hb])
  rw [ht, scrolled, ht'] at ho
  simp only [observed, Option.some.injEq, Prod.mk.injEq] at ho
  exact ho.symm

end Sys2Proof.Machine
end

section
/-! The interrupt controller (spec/44_irq.md R210 to R217): the three commands, and a request flag after any command. -/

namespace Sys2Proof.Machine

/-! ## A request flag as a bit of its byte (44_irq R210, R211) -/

/-- The flag of a source is bit `n % 8` of byte `n / 8` of IF. -/
theorem ifReg_bit (s : State) (n : Fin 16) :
    (ifReg s).getLsbD n.val = (cellsRead s.io (s.cfg.ifOfs + n.val / 8)).getLsbD (n.val % 8) := by
  rw [ifReg, halfView, BitVec.getLsbD_append]
  by_cases h : n.val < 8
  · rw [if_pos h, show n.val / 8 = 0 by omega, show n.val % 8 = n.val by omega, Nat.add_zero]
  · rw [if_neg h, show n.val / 8 = 1 by omega, show n.val % 8 = n.val - 8 by omega]

/-- A request sets the flag of its source and keeps every other. -/
theorem requestIrq_flag (s : State) (m n : Fin 16) :
    (ifReg (requestIrq s m)).getLsbD n.val = ((ifReg s).getLsbD n.val || decide (m = n)) := by
  rw [ifReg_bit, ifReg_bit, requestIrq_eq, setIo_cfg, setIo_io, cellsRead_write]
  by_cases hbyte : m.val / 8 = n.val / 8
  · have hbit : m.val % 8 = n.val % 8 ↔ m = n := by omega
    rw [hbyte, if_pos rfl, BitVec.getLsbD_or, BitVec.getLsbD_twoPow]
    simp [hbit, Nat.mod_lt]
  · have hne : m ≠ n := fun e => hbyte (by rw [e])
    rw [if_neg (by omega), decide_eq_false hne, Bool.or_false]

/-- A store acknowledges a source: it carries a 1 for the flag to the flag's byte of IF (44_irq R217 (1)). -/
def acknowledges (c : Config) (n : Fin 16) (p : Word × Byte) : Bool :=
  decide (p.1 = ioAddr (c.ifOfs + n.val / 8)) && p.2.getLsbD (n.val % 8)

/-- A bus write clears the flag it acknowledges and keeps every other, wherever it goes (20_memory R69, D13). -/
theorem busWrite8_flag {s : State} (hp : paramsOk s.cfg = true) (n : Fin 16) (p : Word × Byte) :
    (ifReg (busWrite8 s p.1 p.2)).getLsbD n.val = ((ifReg s).getLsbD n.val && !acknowledges s.cfg n p) := by
  obtain ⟨-, -, hlt⟩ := (offsetFacts hp).if_
  have ho : s.cfg.ifOfs + n.val / 8 < 0x3FF := by omega
  rw [ifReg_bit, ifReg_bit, (busWrite8_frame s p.1 p.2).cfg, acknowledges]
  by_cases ha : p.1 = ioAddr (s.cfg.ifOfs + n.val / 8)
  · rw [ha, busWrite8_ioAddr ho, ioWrite8_ack hp (by omega), setIo_io, cellsRead_write_same]
    simp [Nat.mod_lt]
  · have hbyte : cellsRead (busWrite8 s p.1 p.2).io (s.cfg.ifOfs + n.val / 8) = cellsRead s.io (s.cfg.ifOfs + n.val / 8) :=
      busWrite8_byteAt s p.1 p.2 .io _ fun hr => ha (route_inj hr (route_ioAddr ho))
    rw [hbyte, decide_eq_false ha, Bool.false_and, Bool.not_false, Bool.and_true]

/-- Stores one after another clear the flags that one of them acknowledges. -/
theorem storeAll_flag {s : State} (hp : paramsOk s.cfg = true) (n : Fin 16) (l : List (Word × Byte)) :
    (ifReg (storeAll s l)).getLsbD n.val = ((ifReg s).getLsbD n.val && !l.any (acknowledges s.cfg n)) := by
  induction l generalizing s with
  | nil => exact (Bool.and_true _).symm
  | cons p l ih =>
    have hcfg := (busWrite8_frame s p.1 p.2).cfg
    calc (ifReg (storeAll (busWrite8 s p.1 p.2) l)).getLsbD n.val
        = ((ifReg (busWrite8 s p.1 p.2)).getLsbD n.val && !l.any (acknowledges s.cfg n)) := by
          rw [ih (by rwa [hcfg]), hcfg]
      _ = ((ifReg s).getLsbD n.val && !(p :: l).any (acknowledges s.cfg n)) := by
          rw [busWrite8_flag hp, List.any_cons, Bool.not_or, Bool.and_assoc]

/-- A flag after a command that completes: set by the request of its source, cleared by a store that acknowledges it. -/
theorem Effect.flag {s u : State} {i : Instr} (h : Effect s i u) (hp : paramsOk s.cfg = true) (n : Fin 16) :
    (ifReg u).getLsbD n.val =
      (((ifReg s).getLsbD n.val || decide (i = .irqreq n)) && !(stores i).any (acknowledges s.cfg n)) := by
  cases h with
  | write hs =>
    have hi : i ≠ .irqreq n := by rintro rfl; exact hs rfl
    rw [storeAll_flag hp, decide_eq_false hi, Bool.or_false]
  | read hr =>
    have hi : i ≠ .irqreq n := by rintro rfl; cases hr
    rw [stores_of_isRead hr, decide_eq_false hi, Bool.or_false]
    exact (Bool.and_true _).symm
  | irqreq m =>
    rw [requestIrq_flag]
    simp [stores]
  | _ => simp [stores, ifReg]

/-- Settles O53: a fault leaves the flag, and a command that completes changes it as `Effect.flag` says. -/
theorem requestFlagsChangeOnlyByRequestAndAcknowledge : Obligations.RequestFlagsChangeOnlyByRequestAndAcknowledge := by
  intro i s t n hp h
  rcases exec_next h with ⟨op, f, rfl⟩ | ⟨u, d, he, rfl⟩
  · exact ⟨fun h0 h1 => absurd (h0.symm.trans h1) nofun, fun h1 h0 => absurd (h1.symm.trans h0) nofun⟩
  · have hflag : (ifReg (complete u d)).getLsbD n.val = _ := he.flag hp n
    rw [hflag]
    refine ⟨fun h0 h1 => ?_, fun h1 h0 => ?_⟩
    · rw [h0, Bool.false_or, Bool.and_eq_true, decide_eq_true_eq] at h1
      exact h1.1
    · rw [h1, Bool.true_or, Bool.true_and, Bool.not_eq_false', List.any_eq_true] at h0
      simpa only [acknowledges, Bool.and_eq_true, decide_eq_true_eq] using h0

/-! ## IRQREQ and IMEWR (44_irq R211, R216) -/

/-- A request sets one bit of the request flags. -/
theorem ifReg_requestIrq (s : State) (n : Fin 16) : ifReg (requestIrq s n) = ifReg s ||| 1#16 <<< n.val := by
  refine BitVec.eq_of_getLsbD_eq fun j hj => ?_
  have hbit := requestIrq_flag s n ⟨j, hj⟩
  rw [← BitVec.twoPow_eq, BitVec.getLsbD_or, BitVec.getLsbD_twoPow]
  simpa [Fin.ext_iff, hj] using hbit

/-- Settles O49: the request writes one byte of IF, and no other register shares a byte with IF. -/
theorem requestSetsItsFlag : Obligations.RequestSetsItsFlag := by
  intro s n hp
  have he := Effect.irqreq (s := s) n
  refine ⟨_, rfl, ifReg_requestIrq s n, ?_, fun k => ?_, ?_⟩
  · exact he.ioHalf nofun (.inr (offsetFacts hp).ieIf)
  · exact he.ioHalf nofun (.inr ((offsetFacts hp).bgIf k))
  · rw [requestIrq_eq]
    rfl

/-- Settles O51: the command is this one assignment. -/
theorem masterEnableWrite : Obligations.MasterEnableWrite := fun _ _ => rfl

/-! ## IRQPROC (44_irq R212 to R214) -/

theorem exec_irqproc_taken {s : State} (h : irqTaken s = true) : exec .irqproc s = .next (complete (takeIrq s) 1) :=
  if_pos h

theorem exec_irqproc_idle {s : State} (h : irqTaken s = false) : exec .irqproc s = .next (complete s 0) :=
  if_neg (ne_true_of_eq_false h)

/-- The word tested for nonzero, for either value of IRQ_GATE (44_irq R213). -/
theorem pendingWord_ne_zero_iff (s : State) : pendingWord s ≠ 0 ↔
    (s.cfg.irqGate = .ifOnly → ifReg s ≠ 0) ∧ (s.cfg.irqGate = .ifAndIe → ifReg s &&& ieReg s ≠ 0) := by
  cases hg : s.cfg.irqGate <;> simp [pendingWord, hg]

theorem irqTaken_iff (s : State) : irqTaken s = true ↔ s.ime = true ∧ s.cpu.cpsr.i = false ∧
    (s.cfg.irqGate = .ifOnly → ifReg s ≠ 0) ∧ (s.cfg.irqGate = .ifAndIe → ifReg s &&& ieReg s ≠ 0) := by
  rw [← pendingWord_ne_zero_iff]
  simp [irqTaken, and_assoc]

theorem linkOffset_eq (t : InsnState) : linkOffset t = if t = .arm then 4 else 2 := by
  cases t <;> rfl

/-- A processor that keeps its pc ahead by a constant of each instruction-set state (44_irq R214). -/
theorem insnAddrOf_pcPlus (arm thumb : Word) (p : Cpu) :
    insnAddrOf (.pcPlus arm thumb) p = p.pc + (if p.cpsr.t = .arm then arm else thumb) := by
  cases ht : p.cpsr.t <;> simp [insnAddrOf, ht]

/-- The first entry of a table gives the value at its record (44_irq R214). -/
theorem insnAddrOf_table_head (p : Cpu) (v : Word) (more : List (Cpu × Word)) (otherwise : CurInsnAddr) :
    insnAddrOf (.table ((p, v) :: more) otherwise) p = v := by
  simp [insnAddrOf]

/-- Settles O50: the condition is `irqTaken`, the entry `takeIrq`, and the address by the form of the parameter. -/
theorem pollTakesTheInterruptOrDoesNothing : Obligations.PollTakesTheInterruptOrDoesNothing := by
  intro s
  rw [← irqTaken_iff]
  refine ⟨fun h => ?_, fun h => exec_irqproc_idle (Bool.eq_false_of_not_eq_true h), fun h => ?_, fun arm thumb h => ?_,
    fun v more otherwise h => ?_, fun n h => ?_⟩
  · rw [exec_irqproc_taken h, ← linkOffset_eq]
    rfl
  · rw [curInsnAddr, h, insnAddrOf]
  · rw [curInsnAddr, h, insnAddrOf_pcPlus]
  · rw [curInsnAddr, h, insnAddrOf_table_head]
  · rw [curInsnAddr, h, insnAddrOf]

/-- A poll that answers 1 has taken the interrupt. -/
theorem eq_of_irqproc_taken {s t : State} (h : exec .irqproc s = .next t) (hd : t.rsp.data = 1) :
    t = complete (takeIrq s) 1 := by
  cases hs : irqTaken s with
  | true =>
    rw [exec_irqproc_taken hs] at h
    cases h
    rfl
  | false =>
    rw [exec_irqproc_idle hs] at h
    cases h
    cases hd

/-- The entry sets the disable flag, so no poll is taken in the state it leaves (44_irq R212, R217 (2)). -/
theorem irqTaken_takeIrq (s : State) (d : Word) : irqTaken (complete (takeIrq s) d) = false := by
  simp [irqTaken, irqEntry]

/-- Settles O52: a poll that answered 1 leaves the entry's state, in which none is taken. -/
theorem takenPollIsNotTakenAgain : Obligations.TakenPollIsNotTakenAgain := by
  intro s t h hd
  rw [eq_of_irqproc_taken h hd]
  exact exec_irqproc_idle (irqTaken_takeIrq s 1)

end Sys2Proof.Machine
end

section
/-! The faults a command can answer (spec/60_exceptions.md R230, R231, R237): a command whose status is not 0 has delivered
one fault, whose code and `info` the rule of the command names (`ReportsFault`). -/

namespace Sys2Proof.Machine

/-! ## Every command and every step answers a next state (60_exceptions R231 (5)) -/

theorem finishRead_answers (s : State) (op : Byte) (e : Except BlockFault Word) : ∃ t, finishRead s op e = .next t := by
  cases e with
  | ok v => exact ⟨_, rfl⟩
  | error f => exact ⟨_, rfl⟩

theorem finishWrite_answers (s : State) (op : Byte) (e : Except BlockFault State) :
    ∃ t, finishWrite s op e = .next t := by
  cases e with
  | ok u => exact ⟨_, rfl⟩
  | error f => exact ⟨_, rfl⟩

theorem execRender_answers (s : State) (bg : BgIndex) (line : BitVec 8) : ∃ t, execRender bg line s = .next t := by
  unfold execRender
  split_ifs
  · exact ⟨_, rfl⟩
  · exact ⟨_, rfl⟩
  · exact ⟨_, rfl⟩
  · exact finishWrite_answers _ _ _

theorem execTmlook_answers (s : State) (bg : BgIndex) (bgX bgY : Half) : ∃ t, execTmlook bg bgX bgY s = .next t := by
  unfold execTmlook
  split_ifs
  · exact ⟨_, rfl⟩
  · exact ⟨_, rfl⟩

/-- A poll is taken, or changes the response alone (44_irq R212). -/
theorem exec_irqproc_cases (s : State) :
    (irqTaken s = true ∧ exec .irqproc s = .next (complete (takeIrq s) 1)) ∨
    (irqTaken s = false ∧ exec .irqproc s = .next (complete s 0)) := by
  cases h : irqTaken s with
  | true => exact .inl ⟨rfl, exec_irqproc_taken h⟩
  | false => exact .inr ⟨rfl, exec_irqproc_idle h⟩

theorem exec_answers (i : Instr) (s : State) : ∃ t, exec i s = .next t := by
  cases i with
  | rdb | rdh | rdw | ldwc | brdb | brdh | brdw => exact finishRead_answers _ _ _
  | wrb | wrh | wrw | stwc => exact finishWrite_answers _ _ _
  | render bg line => exact execRender_answers s bg line
  | tmlook bg bgX bgY => exact execTmlook_answers s bg bgX bgY
  | scrlwr bg axis v => cases axis <;> exact ⟨_, rfl⟩
  | affwr | bgrst | irqreq | imewr => exact ⟨_, rfl⟩
  | irqproc =>
    rcases exec_irqproc_cases s with ⟨-, h⟩ | ⟨-, h⟩
    · exact ⟨_, h⟩
    · exact ⟨_, h⟩

/-- Settles O8: nothing is presented, or a reserved word, or a command, and every command answers a next state. -/
theorem everyStepAnswersANextState : Obligations.EveryStepAnswersANextState := by
  intro s
  cases hp : s.port with
  | nil => exact ⟨s, by rw [step, hp]⟩
  | cons p rest =>
    cases hd : decode p.word with
    | error r => exact ⟨_, step_of_decode_error hp hd⟩
    | ok i =>
      rw [step_of_decode_ok hp hd]
      exact exec_answers i _

/-! ## The fault of a command (60_exceptions R230, R231) -/

/-- The command ends in `s` with a fault delivered, one that the command's rule names (`faultReport`). -/
def ReportsFault (s : State) (i : Instr) (t : State) : Prop :=
  ∃ f, faultReport s i (faultCode f) (faultInfo f) ∧ t = raiseFault s (opcodeOf i) f

section
variable {s t : State} {i : Instr}

theorem ReportsFault.of_finishRead {e : Except BlockFault Word}
    (he : ∀ f, e = .error f → faultReport s i (faultCode f) (faultInfo f))
    (h : finishRead s (opcodeOf i) e = .next t) (ht : t.rsp.status ≠ 0) : ReportsFault s i t := by
  rcases finishRead_next h with ⟨v, -, rfl⟩ | ⟨f, hf, rfl⟩
  · exact absurd rfl ht
  · exact ⟨f, he f hf, rfl⟩

theorem ReportsFault.of_finishWrite {e : Except BlockFault State}
    (he : ∀ f, e = .error f → faultReport s i (faultCode f) (faultInfo f))
    (h : finishWrite s (opcodeOf i) e = .next t) (ht : t.rsp.status ≠ 0) : ReportsFault s i t := by
  rcases finishWrite_next h with ⟨u, -, rfl⟩ | ⟨f, hf, rfl⟩
  · exact absurd rfl ht
  · exact ⟨f, he f hf, rfl⟩

/-- The fault of a row is that of its lowest pixel without a colour (60_exceptions R244). -/
theorem exists_lowest_of_rowColors_error {k : BgIndex} {line x n : Nat} {f : BlockFault}
    (h : rowColors s k line x n = .error f) :
    ∃ j < n, pixelColor s k line (x + j) = .error f ∧ ∀ l < j, ∃ c, pixelColor s k line (x + l) = .ok c := by
  induction n generalizing x with
  | zero => cases h
  | succ n ih =>
    rw [rowColors] at h
    cases hx : pixelColor s k line x with
    | error g =>
      rw [hx] at h
      cases h
      exact ⟨0, by omega, hx, fun l hl => absurd hl (Nat.not_lt_zero l)⟩
    | ok c =>
      have htail : rowColors s k line (x + 1) n = .error f := by
        rw [hx] at h
        cases hr : rowColors s k line (x + 1) n with
        | error g => rw [hr] at h; exact h
        | ok cs => rw [hr] at h; cases h
      obtain ⟨j, hj, hf, hlow⟩ := ih htail
      simp only [Nat.add_right_comm x 1] at hf hlow
      refine ⟨j + 1, by omega, hf, fun l hl => ?_⟩
      cases l with
      | zero => exact ⟨c, hx⟩
      | succ l => exact hlow l (by omega)

/-- A pixel fails where its 256-colour byte is beyond video RAM, and with that offset (43_render R194). -/
theorem pixelColor_eq_error {k : BgIndex} {line x : Nat} {f : BlockFault}
    (h : pixelColor (tmBaseGet s k) k line x = .error f) :
    s.bgs[k].pal256 = true ∧ 0x18000 ≤ tileByte8 s k line x ∧
      f = .renderOutOfRange (BitVec.ofNat 32 (tileByte8 s k line x)) := by
  cases hp : s.bgs[k].pal256 with
  | false => rw [pixelColor_sixteen hp] at h; cases h
  | true =>
    rw [pixelColor_twoFiftySix hp] at h
    split at h
    · next hr => cases h; exact ⟨rfl, hr, rfl⟩
    · cases h

/-- A pixel of a 256-colour background that has a colour has its byte inside video RAM (43_render R194). -/
theorem tileByte8_lt_of_pixelColor_ok {k : BgIndex} {line x : Nat} {c : Half} (hp : s.bgs[k].pal256 = true)
    (h : pixelColor (tmBaseGet s k) k line x = .ok c) : tileByte8 s k line x < 0x18000 := by
  rw [pixelColor_twoFiftySix hp] at h
  split at h
  · cases h
  · next hr => exact Nat.lt_of_not_le hr

/-- A row that faults reports the offset of its lowest failing column (43_render R194, 60_exceptions R244). -/
theorem renderRow_reports {bg : BgIndex} {line : BitVec 8} {f : BlockFault}
    (h : renderRow s bg line.toNat = .error f) :
    faultReport s (.render bg line) (faultCode f) (faultInfo f) := by
  have hrow : rowColors (tmBaseGet s bg) bg line.toNat 0 screenW = .error f := by
    rw [renderRow] at h
    cases hr : rowColors (tmBaseGet s bg) bg line.toNat 0 screenW with
    | error g => rw [hr] at h; cases h; rfl
    | ok row => rw [hr] at h; cases h
  obtain ⟨x, hx, hf, hlow⟩ := exists_lowest_of_rowColors_error hrow
  simp only [Nat.zero_add] at hf hlow
  obtain ⟨hp, hbeyond, rfl⟩ := pixelColor_eq_error hf
  refine .inr (.inr ⟨rfl, x, hx, rfl, hbeyond, fun z hz => ?_⟩)
  obtain ⟨c, hc⟩ := hlow z hz
  exact tileByte8_lt_of_pixelColor_ok hp hc

/-- RENDER that does not complete reports the line, the background or the offset (43_render R190). -/
theorem ReportsFault.of_render {bg : BgIndex} {line : BitVec 8} (h : exec (.render bg line) s = .next t)
    (ht : t.rsp.status ≠ 0) : ReportsFault s (.render bg line) t := by
  by_cases hl : s.cfg.screenH ≤ line.toNat
  · rw [exec_render_beyond hl] at h
    cases h
    exact ⟨_, .inl ⟨rfl, rfl⟩, rfl⟩
  · rw [Nat.not_le] at hl
    cases ha : s.bgs[bg].affine with
    | true =>
      rw [exec_render_affine hl ha] at h
      cases h
      exact ⟨_, .inr (.inl ⟨rfl, rfl⟩), rfl⟩
    | false =>
      by_cases hp : s.bgs[bg].pal256 = true ∧ s.cfg.pal256Render = .refuse
      · rw [exec_render_refused hl ha hp] at h
        cases h
        exact ⟨_, .inr (.inl ⟨rfl, rfl⟩), rfl⟩
      · rw [exec_render_row hl ha hp] at h
        exact .of_finishWrite (fun f => renderRow_reports) h ht

/-- TMLOOK that does not complete reports the affine background (42_bgcnt_tilemap R175). -/
theorem ReportsFault.of_tmlook {bg : BgIndex} {bgX bgY : Half} (h : exec (.tmlook bg bgX bgY) s = .next t)
    (ht : t.rsp.status ≠ 0) : ReportsFault s (.tmlook bg bgX bgY) t := by
  cases ha : s.bgs[bg].affine with
  | true =>
    rw [exec_tmlook_affine ha] at h
    cases h
    exact ⟨_, ⟨rfl, rfl⟩, rfl⟩
  | false =>
    rw [exec_tmlook_regular ha] at h
    cases h
    exact absurd rfl ht

theorem faultReport_of_biosRead_error {ofs : Word} {n : Nat} {f : BlockFault} (h : biosRead s ofs n = .error f) :
    faultCode f = 0x01 ∧ faultInfo f = BitVec.ofNat 32 (max ofs.toNat s.bios.length) := by
  rw [biosRead_reports h]
  exact ⟨rfl, rfl⟩

/-- A command that does not answer status 0 has delivered a fault that its rule names. -/
theorem exec_reportsFault (h : exec i s = .next t) (ht : t.rsp.status ≠ 0) : ReportsFault s i t := by
  cases i with
  | rdb | rdh | rdw => exact .of_finishRead (fun f => memRead_reports) h ht
  | ldwc => exact .of_finishRead (fun f => checkedLoad_reports) h ht
  | brdb | brdh | brdw => exact .of_finishRead (fun f => faultReport_of_biosRead_error) h ht
  | wrb | wrh | wrw | stwc => exact .of_finishWrite (fun f => memWrite_reports) h ht
  | render => exact .of_render h ht
  | tmlook => exact .of_tmlook h ht
  | scrlwr bg axis v => cases axis <;> (cases h; exact absurd rfl ht)
  | affwr | bgrst | irqreq | imewr => cases h; exact absurd rfl ht
  | irqproc =>
    rcases exec_irqproc_cases s with ⟨-, he⟩ | ⟨-, he⟩
    · rw [he] at h; cases h; exact absurd rfl ht
    · rw [he] at h; cases h; exact absurd rfl ht

/-- A command that answers status 0 has completed, so it leaves the latch (10_state R46). -/
theorem exec_flt_of_status_eq_zero (h : exec i s = .next t) (ht : t.rsp.status = 0) : t.flt = s.flt := by
  rcases exec_next h with ⟨op, f, rfl⟩ | ⟨u, d, he, rfl⟩
  · exact absurd ht (faultCode_ne_zero f)
  · obtain ⟨-, -, -, -, hflt⟩ := he.fixed
    exact hflt

end

/-- Settles O14: a command completes, or its fault is delivered by `raiseFault` with the code and `info` of its rule. -/
theorem faultsAreLatchedAndChangeNothingElse : Obligations.FaultsAreLatchedAndChangeNothingElse := by
  refine ⟨fun i s t h => ⟨exec_flt_of_status_eq_zero h, fun ht => ?_⟩, fun s op a bg => ⟨rfl, rfl, rfl, rfl, rfl⟩⟩
  obtain ⟨f, hf, rfl⟩ := exec_reportsFault h ht
  exact ⟨rfl, faultInfo f, hf, rfl⟩

/-! ## The fault table (60_exceptions R237) -/

theorem zero_mem_allowedStatus (i : Instr) : 0 ∈ allowedStatus i := by
  cases i <;> exact List.mem_cons_self

/-- A failing byte access reports BadAddress or UnimplementedRegion. -/
theorem lowestFails_status {s : State} {w : Bool} {a : Word} {n : Nat} {status : Byte} {info : Word}
    (h : lowestFails s w a n status info) : status = 0x01 ∨ status = 0x02 := by
  obtain ⟨-, -, -, -, ⟨h, -⟩ | ⟨h, -⟩⟩ := h
  · exact .inl h
  · exact .inr h

/-- Every status that a command's rule names stands in its row of the table. -/
theorem mem_allowedStatus_of_faultReport {s : State} {i : Instr} {status : Byte} {info : Word}
    (h : faultReport s i status info) : status ∈ allowedStatus i := by
  cases i with
  | rdb | rdh | rdw | wrb | wrh | wrw | ldwc | stwc =>
    rcases lowestFails_status h with rfl | rfl <;> simp [allowedStatus]
  | brdb | brdh | brdw | tmlook =>
    obtain ⟨rfl, -⟩ := h
    simp [allowedStatus]
  | render => rcases h with ⟨rfl, -⟩ | ⟨rfl, -⟩ | ⟨rfl, -⟩ <;> simp [allowedStatus]
  | scrlwr | affwr | bgrst | irqreq | irqproc | imewr => exact h.elim

/-- Settles O16: the status is 0, or the code of a fault that the command's rule names. -/
theorem eachCommandRaisesOnlyItsFaults : Obligations.EachCommandRaisesOnlyItsFaults := by
  intro i s t h
  by_cases ht : t.rsp.status = 0
  · rw [ht]
    exact zero_mem_allowedStatus i
  · obtain ⟨f, hf, rfl⟩ := exec_reportsFault h ht
    exact mem_allowedStatus_of_faultReport hf

end Sys2Proof.Machine
end

section
/-! The processor's mode (spec/60_exceptions.md R255): each operation of a command commutes with a change of the mode, which
only the interrupt entry writes. -/

namespace Sys2Proof.Machine

/-! ## Operations in another mode -/

section
variable (s : State) (m : Mode)

theorem memRead_withMode : memRead (withMode s m) = memRead s := memRead_congr (busRead8_congr rfl rfl rfl)

theorem checkedLoad_withMode (a : Word) : checkedLoad (withMode s m) a = checkedLoad s a := by
  simp only [checkedLoad, memRead_withMode]
  rfl

theorem biosRead_withMode (ofs : Word) (n : Nat) : biosRead (withMode s m) ofs n = biosRead s ofs n := by
  have hb : ∀ o, biosBytes (withMode s m) o n = biosBytes s o n := by
    induction n with
    | zero => exact fun _ => rfl
    | succ n ih => intro o; simp only [biosBytes, ih]; rfl
  simp only [biosRead, hb]

theorem ioWrite8_withMode (o : Nat) (v : Byte) : ioWrite8 (withMode s m) o v = withMode (ioWrite8 s o v) m := by
  have hcfg : (withMode s m).cfg = s.cfg := rfl
  simp only [ioWrite8, hcfg]
  split_ifs
  · rfl
  · rfl
  · cases bgOfByte0 s.cfg o with
    | some k => rfl
    | none =>
      cases bgOfByte1 s.cfg o with
      | some k => simp only [bgcntWriteByte1_eq]; rfl
      | none => rfl

theorem busWrite8_withMode (a : Word) (v : Byte) : busWrite8 (withMode s m) a v = withMode (busWrite8 s a v) m := by
  unfold busWrite8
  cases route a with
  | none => rfl
  | some p =>
    obtain ⟨r, o⟩ := p
    cases r with
    | io => exact ioWrite8_withMode s m o v
    | _ => rfl

theorem writeBytes_withMode (a : Word) (bs : List Byte) :
    writeBytes (withMode s m) a bs = withMode (writeBytes s a bs) m := by
  induction bs generalizing s a with
  | nil => rfl
  | cons b bs ih => rw [writeBytes, busWrite8_withMode, ih, writeBytes]

theorem memWrite_withMode (a : Word) (n : Nat) (v : Word) :
    memWrite (withMode s m) a n v = (memWrite s a n v).map (withMode · m) := by
  have hc : ∀ a, checkBytes (withMode s m) true a n = checkBytes s true a n := by
    have hcheck : check (withMode s m) = check s := check_congr rfl rfl
    induction n with
    | zero => exact fun _ => rfl
    | succ n ih => intro a; simp only [checkBytes, hcheck, ih]
  rw [memWrite, memWrite, hc, writeBytes_withMode]
  cases checkBytes s true a n <;> rfl

theorem tmBaseGet_withMode (k : BgIndex) : tmBaseGet (withMode s m) k = withMode (tmBaseGet s k) m := by
  rw [tmBaseGet_eq, tmBaseGet_eq]
  rfl

theorem renderRow_withMode (k : BgIndex) (line : Nat) :
    renderRow (withMode s m) k line = (renderRow s k line).map (withMode · m) := by
  have hv : SameView k (tmBaseGet s k) (withMode (tmBaseGet s k) m) := ⟨rfl, rfl, rfl, rfl, rfl⟩
  rw [renderRow, renderRow, tmBaseGet_withMode, hv.rowColors]
  cases rowColors (tmBaseGet s k) k line 0 screenW <;> rfl

end

/-! ## Commands in another mode -/

section
variable {s t : State} (m : Mode)

theorem finishRead_withMode {op : Byte} {e e' : Except BlockFault Word} (he : e' = e)
    (h : finishRead s op e = .next t) : finishRead (withMode s m) op e' = .next (withMode t m) := by
  rcases finishRead_next h with ⟨v, rfl, rfl⟩ | ⟨f, rfl, rfl⟩
  · rw [he]; rfl
  · rw [he]; rfl

theorem finishWrite_withMode {op : Byte} {e e' : Except BlockFault State} (he : e' = e.map (withMode · m))
    (h : finishWrite s op e = .next t) : finishWrite (withMode s m) op e' = .next (withMode t m) := by
  rcases finishWrite_next h with ⟨u, rfl, rfl⟩ | ⟨f, rfl, rfl⟩
  · rw [he]; rfl
  · rw [he]; rfl

theorem execRender_withMode {bg : BgIndex} {line : BitVec 8} (h : execRender bg line s = .next t) :
    execRender bg line (withMode s m) = .next (withMode t m) := by
  have hcfg : (withMode s m).cfg = s.cfg := rfl
  have hbgs : (withMode s m).bgs = s.bgs := rfl
  simp only [execRender, hcfg, hbgs] at h ⊢
  split_ifs at h ⊢
  · cases h; rfl
  · cases h; rfl
  · cases h; rfl
  · exact finishWrite_withMode m (renderRow_withMode s m bg line.toNat) h

theorem execTmlook_withMode {bg : BgIndex} {bgX bgY : Half} (h : exec (.tmlook bg bgX bgY) s = .next t) :
    exec (.tmlook bg bgX bgY) (withMode s m) = .next (withMode t m) := by
  cases ha : s.bgs[bg].affine with
  | true =>
    have ha' : (withMode s m).bgs[bg].affine = true := ha
    rw [exec_tmlook_affine ha] at h
    rw [exec_tmlook_affine ha']
    cases h
    rfl
  | false =>
    have ha' : (withMode s m).bgs[bg].affine = false := ha
    rw [exec_tmlook_regular ha] at h
    rw [exec_tmlook_regular ha']
    cases h
    rfl

/-- Every command but the poll does the same in another mode, and keeps it. -/
theorem exec_withMode {i : Instr} (hi : i ≠ .irqproc) (h : exec i s = .next t) :
    exec i (withMode s m) = .next (withMode t m) := by
  cases i with
  | rdb a => exact finishRead_withMode m (congrFun₂ (memRead_withMode s m) a 1) h
  | rdh a => exact finishRead_withMode m (congrFun₂ (memRead_withMode s m) a 2) h
  | rdw a => exact finishRead_withMode m (congrFun₂ (memRead_withMode s m) a 4) h
  | ldwc a => exact finishRead_withMode m (checkedLoad_withMode s m a) h
  | brdb | brdh | brdw => exact finishRead_withMode m (biosRead_withMode s m _ _) h
  | wrb | wrh | wrw | stwc => exact finishWrite_withMode m (memWrite_withMode s m _ _ _) h
  | render => exact execRender_withMode m h
  | tmlook => exact execTmlook_withMode m h
  | scrlwr bg axis v => cases axis <;> (cases h; rfl)
  | affwr | bgrst | irqreq | imewr => cases h; rfl
  | irqproc => exact absurd rfl hi

end

/-- Settles O58: the poll's condition does not look at the mode, and its entry saves the one it finds. -/
theorem modeIsNeverTested : Obligations.ModeIsNeverTested := by
  refine ⟨fun i s t m => exec_withMode m, fun s t m h => ?_⟩
  have hsame : irqTaken (withMode s m) = irqTaken s := rfl
  rcases exec_irqproc_cases s with ⟨hs, he⟩ | ⟨hs, he⟩
  · rw [he] at h
    cases h
    exact ⟨_, exec_irqproc_taken (hsame.trans hs), rfl, fun _ => ⟨rfl, rfl⟩, nofun⟩
  · rw [he] at h
    cases h
    exact ⟨_, exec_irqproc_idle (hsame.trans hs), rfl, nofun, fun _ => rfl⟩

end Sys2Proof.Machine
end

section
/-! Construction (spec/70_reset_and_hazards.md R271): `construct` answers the reset state of the two images where its
conditions (`Constructs`) hold, and `ImageLoadError` everywhere else. -/

namespace Sys2Proof.Machine

/-! ## The image of a declared length (R271 steps 2 and 3) -/

section
variable {n : Nat} {img bytes : List Byte}

theorem imageOf_declared_iff :
    imageOf (some n) (some bytes) = some img ↔ n ≤ bytes.length ∧ bytes.take n = img := by
  simp [imageOf]

/-- An image of a declared length has that length, whatever was given. -/
theorem length_of_imageOf_declared {given : Option (List Byte)} (h : imageOf (some n) given = some img) :
    img.length = n := by
  cases given with
  | none => cases h
  | some bytes =>
    obtain ⟨hn, rfl⟩ := imageOf_declared_iff.1 h
    exact List.length_take_of_le hn

end

/-! ## What construction answers -/

/-- The conditions under which construction answers the block of the images `rom` and `bios`. -/
structure Constructs (c : Config) (romLen biosLen : Option Nat) (romImage biosImage : Option (List Byte))
    (rom bios : List Byte) : Prop where
  params    : paramsOk c = true
  romGiven  : imageOf romLen romImage = some rom
  biosGiven : imageOf biosLen biosImage = some bios
  romFits   : rom.length ≤ maxRomLen

section
variable {c : Config} {dr db : Option Nat} {ri bi : Option (List Byte)}

theorem Constructs.construct_eq {rom bios : List Byte} (h : Constructs c dr db ri bi rom bios) :
    construct c dr db ri bi = .next (State.resetOf c rom bios) := by
  simp only [construct, h.params, h.romGiven, h.biosGiven, h.romFits, if_true]

theorem construct_cases (c : Config) (dr db : Option Nat) (ri bi : Option (List Byte)) :
    (∃ rom bios, Constructs c dr db ri bi rom bios) ∨ construct c dr db ri bi = .fault .imageLoadError := by
  unfold construct
  split
  · next hp =>
    split
    · next rom bios hr hb =>
      split
      · next hw => exact .inl ⟨rom, bios, hp, hr, hb, hw⟩
      · exact .inr rfl
    · exact .inr rfl
  · exact .inr rfl

theorem construct_next {s : State} (h : construct c dr db ri bi = .next s) :
    ∃ rom bios, Constructs c dr db ri bi rom bios ∧ s = State.resetOf c rom bios := by
  rcases construct_cases c dr db ri bi with ⟨rom, bios, k⟩ | he
  · rw [k.construct_eq] at h
    cases h
    exact ⟨rom, bios, k, rfl⟩
  · rw [he] at h
    cases h

theorem construct_refused (h : ∀ rom bios, ¬ Constructs c dr db ri bi rom bios) :
    construct c dr db ri bi = .fault .imageLoadError := by
  rcases construct_cases c dr db ri bi with ⟨rom, bios, k⟩ | he
  · exact absurd k (h rom bios)
  · exact he

end

/-- Settles O13: the state is a reset state with legal parameters and a ROM that fits, which meets the invariant. -/
theorem constructedBlocksMeetTheInvariant : Obligations.ConstructedBlocksMeetTheInvariant := by
  intro c dr db ri bi s h
  obtain ⟨rom, bios, k, rfl⟩ := construct_next h
  exact inv_resetOf k.params k.romFits bios

/-- Settles O10: each way to declare lengths meets the conditions of `Constructs`, each refusal breaks one of them. -/
theorem constructionBuildsTheResetStateOrNothing : Obligations.ConstructionBuildsTheResetStateOrNothing := by
  intro c rom bios n m
  refine ⟨fun hp hr => ⟨?_, fun hm => ?_⟩, fun hp hn hw => ?_, fun dr db ri bi h => ?_, fun db bi hn => ?_,
    fun dr ri hm => ?_, fun db bi hr => ?_, fun db ri bi hn => ?_, fun dr db ri bi hp => ?_⟩
  · exact Constructs.construct_eq ⟨hp, rfl, rfl, hr⟩
  · exact Constructs.construct_eq ⟨hp, rfl, imageOf_declared_iff.2 ⟨hm, rfl⟩, hr⟩
  · have hrom := imageOf_declared_iff.2 ⟨hn, rfl⟩
    have hfit : (rom.take n).length ≤ maxRomLen := (List.length_take_le n rom).trans hw
    exact ⟨Constructs.construct_eq ⟨hp, hrom, rfl, hfit⟩,
      fun hm => Constructs.construct_eq ⟨hp, hrom, imageOf_declared_iff.2 ⟨hm, rfl⟩, hfit⟩⟩
  · refine construct_refused fun _ _ k => ?_
    rcases h with rfl | rfl
    · cases k.romGiven
    · cases k.biosGiven
  · exact construct_refused fun _ _ k => absurd (imageOf_declared_iff.1 k.romGiven).1 (Nat.not_le.2 hn)
  · exact construct_refused fun _ _ k => absurd (imageOf_declared_iff.1 k.biosGiven).1 (Nat.not_le.2 hm)
  · refine construct_refused fun _ _ k => ?_
    cases k.romGiven
    exact absurd k.romFits (Nat.not_le.2 hr)
  · refine construct_refused fun _ _ k => absurd k.romFits (Nat.not_le.2 ?_)
    rw [length_of_imageOf_declared k.romGiven]
    exact hn
  · exact construct_refused fun _ _ k => absurd k.params (ne_true_of_eq_false hp)

end Sys2Proof.Machine
end

section
/-! The empty port (spec/70_reset_and_hazards.md R273) and the interrupt vector as a bus address (R281). -/

namespace Sys2Proof.Machine

theorem step_of_port_nil {s : State} (h : s.port = []) : step s = .next s := by
  rw [step, h]

/-- Settles O7: the step goes by the head of the port. -/
theorem idlePortChangesNothing : Obligations.IdlePortChangesNothing := fun _ => step_of_port_nil

/-- The vector is in no window of the bus, whatever the state (R281). -/
theorem busRead8_irqVector (s : State) : busRead8 s irqVector = .error (.badAddress irqVector) := by
  have hr : route irqVector = none := by decide
  rw [busRead8, check_of_route_none hr]

/-- A read that begins at the vector faults with its first byte, however long it is. -/
theorem memRead_irqVector (s : State) {n : Nat} (hn : 0 < n) : memRead s irqVector n = .error (.badAddress irqVector) :=
  memRead_lowest hn nofun (busRead8_irqVector s)

theorem exec_rdw_irqVector (s : State) :
    exec (.rdw irqVector) s = .next (raiseFault s 0x02 (.badAddress irqVector)) :=
  congrArg (finishRead s 0x02) (memRead_irqVector s (Nat.succ_pos 3))

/-- An open-bus load reads at pc, so it faults where pc is the vector in ARM state. -/
theorem exec_ldwc_irqVector {s : State} {a : Word} (hpc : s.cpu.pc = irqVector) (ht : s.cpu.cpsr.t = .arm)
    (ha : a.toNat % 4 = 0) (ho : 0x10000000 ≤ a.toNat) :
    exec (.ldwc a) s = .next (raiseFault s 0x0A (.badAddress irqVector)) := by
  have he : checkedLoad s a = .error (.badAddress irqVector) := by
    rw [checkedLoad_eq, checkedSource_arm ha ho ht, hpc, memRead_irqVector s (Nat.succ_pos 3)]
    rfl
  exact congrArg (finishRead s 0x0A) he

/-- Settles O54: no window holds the vector, where RDW reads as told and the open-bus load because it is in pc. -/
theorem interruptVectorIsUnmapped : Obligations.InterruptVectorIsUnmapped := by
  intro s t a h hd
  rw [eq_of_irqproc_taken h hd]
  exact ⟨exec_rdw_irqVector _, exec_ldwc_irqVector rfl rfl⟩

end Sys2Proof.Machine
end
